-- ==== Sys2Proof/Word.lean ====
section
/-! DEFINITION. The words of the block: a symbol, a host register, a node index, a node frequency. -/

namespace Sys2Proof

/-- A symbol, and the value a byte call carries: an unsigned 8-bit value (R5, R35). -/
abbrev Byte := BitVec 8

/-- A host register, `FREQ_W` = 32 bits on this hardware (R6, R31). -/
abbrev Word := BitVec 32

/-- A host register number, 10 bits (R30). -/
abbrev RegNum := BitVec 10

/-- A node index, `IDX_W` = 9 bits (R6, R10). -/
abbrev NodeIdx := BitVec 9

/-- The `freq` field of a node, `NFREQ_W` = `FREQ_W` + 8 = 40 bits (R6, R11). -/
abbrev NodeFreq := BitVec 40

end Sys2Proof
end

