-- ==== Sys2Proof/Config.lean ====
section
/-! DEFINITION. The parameters of the block (R6) and the values the spec leaves free, each an opaque constant. -/

namespace Sys2Proof

/-- How a collaborator's source answers one call (R37), or that it withholds the answer (R40). -/
inductive Reply (α : Type) where
  | got (a : α)
  | exhausted
  | ioFail
  | withheld
deriving DecidableEq, Repr, Inhabited

namespace Config

/-- `NSYM`, the number of symbols (R5, R6). -/
abbrev nsym : Nat := 256

/-- `NODE_CAP`, the number of node cells (R6). -/
abbrev nodeCap : Nat := 511

/-- `MAX_INTERNAL`, the most internal nodes a tree of the block has (R6, R105). -/
abbrev maxInternal : Nat := 255

/-- `MAX_DEPTH`, the largest depth of a leaf (R6). -/
abbrev maxDepth : Nat := 255

/-- FREE VALUE (log 6). `TIEBREAK`: the draw made at the `n`-th free choice, when the state lists no draw of its own
(R68, U1: "implementation-defined and must not be assumed consistent"). -/
opaque tiebreak : Nat → Nat

/-- FREE VALUE (log 7). What a host read returns while `BUSY` = 1 (R32, U14: "unspecified"). -/
opaque busyRead : Nat → Word

/-- FREE VALUE (log 5). How a source of which nothing is known answers a `SrcBit` call (R37, R39, U16). -/
opaque srcBit : Nat → Reply Bool

/-- FREE VALUE (log 5). How a source of which nothing is known answers a `SrcByte` call (R37, R39, U16). -/
opaque srcByte : Nat → Reply Byte

end Config

end Sys2Proof
end

