-- ==== Sys2Proof/Syntax.lean ====
section
/-! DEFINITION. The seven instructions of the opcode table, the fields of a written command word, the records and
events of the streams. -/

namespace Sys2Proof

/-- One constructor per row of the opcode table: the five commands (R51) and the two records of the tree-shape
stream (R56), which a running DESERIALIZE reads as its instructions and SERIALIZE writes. -/
inductive Instr where
  /-- `BUILD` (R70). -/
  | build
  /-- `ENCODE s` (R81). -/
  | encode (sym : Byte)
  /-- `DECODE` (R88). -/
  | decode
  /-- `SERIALIZE` (R95). -/
  | serialize
  /-- `DESERIALIZE` (R102). -/
  | deserialize
  /-- `TS.LEAF`: tag bit 1, then the symbol (R56). -/
  | tsLeaf (sym : Byte)
  /-- `TS.INTERNAL`: tag bit 0 (R56). -/
  | tsInternal
deriving DecidableEq, Repr

/-- One call on a channel, with what it carries: `B0`, `B1` or `Yhh` of the spec's notation (R7, R42). -/
inductive Event where
  | bit (b : Bool)
  | byte (v : Byte)
deriving DecidableEq, Repr

/-- The fields of a value written to `CMD`: format `CW16` in bits 15:0, with the bits above it (R50). -/
structure CommandFields where
  /-- Bits 31:16, reserved. -/
  high : BitVec 16
  /-- `RSV`, bits 15:11, reserved. -/
  rsv : BitVec 5
  /-- `OP`, bits 10:8 (R51). -/
  op : BitVec 3
  /-- `SYM`, bits 7:0, the symbol operand of ENCODE. -/
  sym : Byte
deriving DecidableEq, Repr

/-- The parts of one record of the tree-shape stream: its tag and the symbol that follows, if one does (R56). -/
structure RecordFields where
  tag : Bool
  sym : Option Byte
deriving DecidableEq, Repr

end Sys2Proof
end

