-- ==== Sys2Proof/WellFormed.lean ====
section
/-! DEFINITION. Which command words are legal (R54) and which records are records of the grammar (R56). -/

namespace Sys2Proof

namespace CommandFields

/-- `v[31:16]` must be 0 (R54). -/
def highOk (f : CommandFields) : Bool := f.high == 0

/-- `v[15:11]` must be 0 (R54). -/
def rsvOk (f : CommandFields) : Bool := f.rsv == 0

/-- `OP` 0, 6 and 7 are reserved (R51, R54). -/
def opOk (f : CommandFields) : Bool := f.op != 0 && f.op != 6 && f.op != 7

/-- `SYM` must be 0 for every operation but ENCODE, `OP` = 2 (R50, R54). -/
def symOk (f : CommandFields) : Bool := f.op == 2 || f.sym == 0

/-- A legal command word (R54, R55). -/
def wellFormed (f : CommandFields) : Bool := f.highOk && f.rsvOk && f.opOk && f.symOk

end CommandFields

/-- A symbol follows tag 1 and none follows tag 0 (R56). -/
def RecordFields.wellFormed (r : RecordFields) : Bool := r.tag == r.sym.isSome

end Sys2Proof
end

