-- ==== Sys2Proof/Decode.lean ====
section
/-! DEFINITION. Decoding a command word (R50 to R55) and a record of the tree-shape stream (R56), total and rejecting by
name; then the encoder, written from the same tables; then the host's view of the opcode table's words. -/

namespace Sys2Proof

/-- Why a word or a record is no instruction. -/
inductive DecodeError where
  /-- Bits 31:16 are not all 0 (R54). -/
  | highBits
  /-- Bits 15:11 are not all 0 (R54). -/
  | reservedBits
  /-- `OP` is 0, 6 or 7 (R54). -/
  | reservedOp
  /-- `SYM` is not 0 in a command without an operand (R54). -/
  | strayOperand
  /-- A tag 1 without its symbol, a symbol without its tag, or nothing at all (R56). -/
  | notARecord
deriving DecidableEq, Repr

/-- The fields of a written value, by the bit ranges of R50. -/
def commandFields (v : Word) : CommandFields :=
  { high := v.extractLsb' 16 16, rsv := v.extractLsb' 11 5, op := v.extractLsb' 8 3, sym := v.extractLsb' 0 8 }

/-- The operation map of R51 over fields that passed the reserved-bit checks. -/
def decodeOp (f : CommandFields) : Except DecodeError Instr :=
  match f.op.toNat with
  | 1 => .ok .build
  | 2 => .ok (.encode f.sym)
  | 3 => .ok .decode
  | 4 => .ok .serialize
  | 5 => .ok .deserialize
  | _ => .error .reservedOp

/-- The command a value written to `CMD` selects, or why it is illegal (R51, R54). -/
def decodeCommand (v : Word) : Except DecodeError Instr :=
  let f := commandFields v
  if !f.highOk then .error .highBits
  else if !f.rsvOk then .error .reservedBits
  else if !f.opOk then .error .reservedOp
  else if !f.symOk then .error .strayOperand
  else decodeOp f

/-- The record whose tag and symbol were read (R56). -/
def decodeRecord (r : RecordFields) : Except DecodeError Instr :=
  match r.tag, r.sym with
  | true, some v => .ok (.tsLeaf v)
  | false, none => .ok .tsInternal
  | _, _ => .error .notARecord

/-- The first record of an event sequence, and what follows it: the length of a record is known from its tag
(R56, R57). -/
def decodeStream : List Event → Except DecodeError (Instr × List Event)
  | .bit true :: .byte v :: es => .ok (.tsLeaf v, es)
  | .bit false :: es => .ok (.tsInternal, es)
  | _ => .error .notARecord

/-! The encoder. -/

/-- What stands for an instruction on its way into the block: a value written to `CMD`, or a record's events. -/
inductive Code where
  | command (v : Word)
  | record (es : List Event)
deriving DecidableEq, Repr

/-- The record of a leaf carrying `v`: tag 1, then the symbol by one byte call (R42, R56). -/
def leafRecord (v : Byte) : List Event := [.bit true, .byte v]

/-- The record of an internal node: tag 0 (R56). -/
def internalRecord : List Event := [.bit false]

/-- The command word with operation `op` and operand `sym` (R50). -/
def commandWord (op : BitVec 3) (sym : Byte) : Word :=
  (0#16 ++ 0#5 ++ op ++ sym : BitVec 32)

/-- The encoding of every instruction (R51, R56). -/
def encode : Instr → Code
  | .build => .command (commandWord 1 0)
  | .encode s => .command (commandWord 2 s)
  | .decode => .command (commandWord 3 0)
  | .serialize => .command (commandWord 4 0)
  | .deserialize => .command (commandWord 5 0)
  | .tsLeaf v => .record (leafRecord v)
  | .tsInternal => .record internalRecord

/-- The decoder on either kind of code; a record must be the whole of its events. -/
def decodeCode : Code → Except DecodeError Instr
  | .command v => decodeCommand v
  | .record es =>
    match decodeStream es with
    | .ok (i, []) => .ok i
    | .ok (_, _ :: _) => .error .notARecord
    | .error e => .error e

/-- Well-formedness of an instruction: its code's fields pass every check of R54 or R56. -/
def Instr.wellFormed (i : Instr) : Bool :=
  match i with
  | .build => (commandFields (commandWord 1 0)).wellFormed
  | .encode s => (commandFields (commandWord 2 s)).wellFormed
  | .decode => (commandFields (commandWord 3 0)).wellFormed
  | .serialize => (commandFields (commandWord 4 0)).wellFormed
  | .deserialize => (commandFields (commandWord 5 0)).wellFormed
  | .tsLeaf v => RecordFields.wellFormed { tag := true, sym := some v }
  | .tsInternal => RecordFields.wellFormed { tag := false, sym := none }

/-! The opcode table's words. A row of 16 bits is a command word. The two records have 9 bits and 1 bit, written in
channel order, first bit leftmost, so that the tag of `TS.LEAF` is bit 8 and its symbol bits 7..0 (R7, R56; log 8). -/

/-- The code whose table word has `nbits` bits and value `w` (log 8). Eight bits are the one bit of `TS.INTERNAL` in
whole bytes. -/
def tableCode (nbits w : Nat) : Code :=
  if nbits = 9 then .record (.bit (w.testBit 8) :: if w < 512 then [.byte (BitVec.ofNat 8 w)] else [])
  else if nbits = 1 ∨ nbits = 8 then .record (if w = 0 then internalRecord else [.bit true])
  else .command (BitVec.ofNat 32 w)

/-- The instruction the decoder reads from a word of the opcode table. -/
def decodeTableWord (nbits w : Nat) : Option Instr :=
  if w < 2 ^ 32 then
    match decodeCode (tableCode nbits w) with
    | .ok i => some i
    | .error _ => none
  else none

end Sys2Proof
end

