-- ==== Sys2Proof/Machine/State.lean ====
section
/-! DEFINITION. The state of the block (R10), of the commands that have not ended, and of its environment, as plain
data; the reasons a step can stop; the state after reset (R27). -/

namespace Sys2Proof.Machine

/-- A node cell `N[k]` (R11). -/
structure Node where
  leaf : Bool
  sym : Byte
  freq : NodeFreq
  left : NodeIdx
  right : NodeIdx
  pv : Bool
  parent : NodeIdx
deriving DecidableEq, Repr

/-- The leaf index `LI`: entry `s` is `none` when `LI[s].v` = 0, and `some k` when `LI[s]` = (1, k) (R14). -/
abbrev LeafIndex := Vector (Option NodeIdx) 256

/-- The frequency table `FREQ` (R16). -/
abbrev FreqTable := Vector Word 256

/-- The tree state (R10): what `commit` replaces in one step (R19). -/
structure TreeState where
  /-- `N[0], N[1], …, N[NNODE-1]`: the cells in use (R15). The content of the other cells is unspecified and never
  read, and is left out (R11, U13; log 2). -/
  nodes : List Node
  /-- `none` is `ROOTV` = 0, the root absent; `some r` is `ROOTV` = 1 and `ROOT` = r (R13; log 2). -/
  root : Option NodeIdx
  li : LeafIndex
  /-- `NNODE`, the number of cells in use (R15). -/
  nnode : BitVec 10
deriving DecidableEq, Repr

/-- An entry of DESERIALIZE's explicit stack (R21 b): an internal record whose first-branch subtree, or whose
second-branch subtree, is being read. -/
inductive Frame where
  | first
  | second (l : NodeIdx)
deriving DecidableEq, Repr

/-- The staged state of a running DESERIALIZE with its locals (R19, R21, R102). -/
structure Staging where
  /-- `N'`, with `n` its length. -/
  nodes : List Node
  /-- `LI'`. -/
  li : LeafIndex
  /-- `ic`, the internal records read so far. -/
  ic : Nat
  /-- The explicit stack, innermost record first. -/
  stack : List Frame
  /-- A tag 1 has been read and its symbol has not. -/
  tag : Bool
deriving DecidableEq, Repr

/-- A command in progress: what it still has to do. Seen between steps only while a channel call is unanswered
(R40, R52). -/
inductive Running where
  /-- ENCODE: the bits still to be sent, and the length of the whole codeword. -/
  | encode (rest : List Bool) (len : Byte)
  /-- DECODE: the current node. -/
  | decode (k : NodeIdx)
  /-- SERIALIZE: the events still to be sent. -/
  | serialize (rest : List Event)
  /-- DESERIALIZE. -/
  | deserialize (st : Staging)
deriving DecidableEq, Repr

/-- What the host does next (R31, R61, R62, R130). -/
inductive HostInput where
  /-- `HostRead(ra)`. -/
  | read (ra : RegNum)
  /-- `HostWrite(ra, v)`. -/
  | write (ra : RegNum) (v : Word)
  /-- `WAIT`: reads of `STATUS` until bit 0 of the value read is 0. -/
  | wait
  /-- The reset input is asserted. -/
  | reset
deriving DecidableEq, Repr

/-- The host as the block sees it. Not state of the block (R22; log 4). -/
structure HostSide where
  /-- The inputs still to come, in order. -/
  port : List HostInput
  /-- The values returned by reads, oldest first. -/
  replies : List Word
deriving DecidableEq, Repr

/-- One entry of a scripted source: an answer (R37), or the answer withheld for one step (R40). -/
inductive SrcItem where
  | bit (b : Bool)
  | byte (v : Byte)
  | exhausted
  | ioFail
  | hold
deriving DecidableEq, Repr

/-- The bit source (R36; log 5). -/
inductive Source where
  /-- The answers to the coming calls, call for call. With no entry left, the answer is withheld (R40). -/
  | script (items : List SrcItem)
  /-- The reference adapter of R43: the bits it still holds. -/
  | adapter (bits : List Bool)
  /-- A source of which nothing is known: every answer is a free value (U16). -/
  | unknown
deriving DecidableEq, Repr

/-- One entry of a scripted sink: an answer (R38), or the answer withheld for one step (R40). -/
inductive SinkItem where
  | ok
  | ioFail
  | hold
deriving DecidableEq, Repr

/-- How the bit sink answers (R38; log 5). -/
inductive SinkPlan where
  /-- The answers to the coming calls. With no entry left, the answer is withheld (R40). -/
  | script (items : List SinkItem)
  /-- The reference adapter of R43: every call is answered `ok`. -/
  | adapter
deriving DecidableEq, Repr

/-- The collaborator as the block sees it. Not state of the block (R22; log 5). -/
structure Channels where
  source : Source
  sinkPlan : SinkPlan
  /-- The events the sink has accepted, oldest first (R38, R41). -/
  sink : List Event
deriving DecidableEq, Repr

/-- The free choices still to come. Not state of the block (R22; log 6). -/
structure Choices where
  /-- Draws of `TIEBREAK` still to come; with none left a draw is `Config.tiebreak` of the counter. -/
  draws : List Nat
  /-- The counter that makes each opaque value a fresh one. -/
  fresh : Nat
deriving DecidableEq, Repr

end Sys2Proof.Machine

namespace Sys2Proof.Machine

/-- The state: the registers of R10, then the environment. -/
structure State where
  /-- `FREQ[0..255]` (R16). -/
  freq : FreqTable
  /-- `N`, `ROOTV`, `ROOT`, `LI`, `NNODE` (R10). -/
  tree : TreeState
  /-- `ERR` (R17, R110). -/
  err : BitVec 3
  /-- `RSYM` (R18). -/
  rsym : Byte
  /-- `CLEN` (R18). -/
  clen : Byte
  /-- `none` is `BUSY` = 0; otherwise `BUSY` = 1 and the command in progress (R17, R40; log 3). -/
  running : Option Running
  host : HostSide
  chan : Channels
  choice : Choices
deriving DecidableEq, Repr

/-- The error kinds of R110. They are outcomes reported in `ERR`, not reasons to stop. -/
inductive ErrKind where
  | invalidArgument
  | notFound
  | emptyTree
  | sourceExhausted
  | ioFailure
  | capacityExceeded
deriving DecidableEq, Repr

/-- Why a step faults. -/
inductive Fault where
  /-- Raised by ENCODE, DECODE and SERIALIZE when they meet a node index that is no cell in use, or a walk longer than
  the node store: a tree state that breaks R23. No run from reset reaches one. Safe: the model stops (log 9). -/
  | brokenTree
deriving DecidableEq, Repr

/-- Why a step is refused. -/
inductive Refusal where
  /-- Raised by `exec` alone, for an instruction that has no meaning yet. Safe: the model stops. No arm raises it. -/
  | notModelled (mnemonic : String)
deriving DecidableEq, Repr

/-- The empty tree, "created empty" (R24, R27): no root, no node, no leaf registered. -/
def TreeState.empty : TreeState :=
  { nodes := [], root := none, li := Vector.replicate 256 none, nnode := 0 }

/-- What DESERIALIZE starts from (R102): `n` = 0, `ic` = 0, every `LI'[s]` = (0, 0). -/
def Staging.fresh : Staging :=
  { nodes := [], li := Vector.replicate 256 none, ic := 0, stack := [], tag := false }

/-- The state after reset (R27). The environment's fields are the model's own (log 4, log 5, log 6). -/
def State.reset : State :=
  { freq := Vector.replicate 256 0
    tree := TreeState.empty
    err := 0
    rsym := 0
    clen := 0
    running := none
    host := { port := [], replies := [] }
    chan := { source := .script [], sinkPlan := .script [], sink := [] }
    choice := { draws := [], fresh := 0 } }

end Sys2Proof.Machine
end

