-- ==== Sys2Proof/Machine/Flags.lean ====
section
/-! DEFINITION. `STATUS`, its bits, and the codes of the error kinds. -/

namespace Sys2Proof.Machine

/-- The code of an error kind in `STATUS.ERR` (R110). Code 0 is success, code 7 is reserved. -/
def ErrKind.code : ErrKind → BitVec 3
  | .invalidArgument => 1
  | .notFound => 2
  | .emptyTree => 3
  | .sourceExhausted => 4
  | .ioFailure => 5
  | .capacityExceeded => 6

namespace State

/-- `ROOTV` (R13). -/
def rootv (s : State) : Bool := s.tree.root.isSome

/-- `BUSY`: a command is in progress (R17). -/
def busy (s : State) : Bool := s.running.isSome

/-- `STATUS.EMPTY` reads as `ROOTV == 0` (R17). -/
def emptyFlag (s : State) : Bool := !s.rootv

/-- `STATUS.DEGEN` reads as `ROOTV == 1 and N[ROOT].leaf == 1` (R17). -/
def degenFlag (s : State) : Bool :=
  match s.tree.root with
  | none => false
  | some r =>
    match s.tree.nodes[r.toNat]? with
    | none => false
    | some nd => nd.leaf

/-- One flag as a register value. -/
def flagWord (b : Bool) : Word := if b then 1 else 0

/-- `STATUS` as read with `BUSY` = 0 (R17, R31); the reserved bits read 0. -/
def status (s : State) : Word :=
  (s.err.setWidth 32 <<< 4) ||| (flagWord s.degenFlag <<< 2) ||| (flagWord s.emptyFlag <<< 1) ||| flagWord s.busy

end State

end Sys2Proof.Machine
end

