-- ==== Sys2Proof/Machine/Ops.lean ====
section
/-! DEFINITION. The named operations over the registers, the tree state, the error report, and the two channels. -/

namespace Sys2Proof.Machine

/-! ## The registers -/

namespace State

def setFreq (a : Byte) (v : Word) (s : State) : State :=
  { s with freq := s.freq.set a.toNat v a.isLt }

/-- `commit`: the staged tree becomes the tree state in one indivisible step (R19). -/
def commit (t : TreeState) (s : State) : State := { s with tree := t }

def setRsym (v : Byte) (s : State) : State := { s with rsym := v }

def setClen (n : Byte) (s : State) : State := { s with clen := n }

def setChoice (c : Choices) (s : State) : State := { s with choice := c }

/-- The command stays in progress, `BUSY` = 1, with `r` still to do (R40). -/
def setRunning (r : Running) (s : State) : State := { s with running := some r }

/-- `done`: the command ends with `ERR <- 0` and `BUSY <- 0` (R8, R52). -/
def done (s : State) : State := { s with err := 0, running := none }

/-- TAKING AN ERROR, the block's only exception mechanism (R112): the staged state and the command's locals are
discarded, `ERR <- code(kind)`, `BUSY <- 0`. It saves nothing, changes no mode and transfers control nowhere. There is
no return from an error and nothing to restore (R113). -/
def raise (e : ErrKind) (s : State) : State := { s with err := e.code, running := none }

/-- The next opaque value is a fresh one (log 6, log 7). -/
def tick (s : State) : State := { s with choice := { s.choice with fresh := s.choice.fresh + 1 } }

def setSource (x : Source) (s : State) : State := { s with chan := { s.chan with source := x } }

def setSinkPlan (x : SinkPlan) (s : State) : State := { s with chan := { s.chan with sinkPlan := x } }

/-- The sink has accepted `e` (R38). -/
def pushSink (e : Event) (s : State) : State := { s with chan := { s.chan with sink := s.chan.sink ++ [e] } }

def setPort (l : List HostInput) (s : State) : State := { s with host := { s.host with port := l } }

/-- A read has returned `v` to the host. -/
def pushReply (v : Word) (s : State) : State := { s with host := { s.host with replies := s.host.replies ++ [v] } }

end State

/-! ## The node store -/

/-- A leaf as BUILD and DESERIALIZE construct it (R70, R102): links and `parent` 0, `pv` 0 (D23). -/
def leafNode (v : Byte) (f : NodeFreq) : Node :=
  { leaf := true, sym := v, freq := f, left := 0, right := 0, pv := false, parent := 0 }

/-- An internal node as BUILD and DESERIALIZE construct it (R70, R102): `sym` and `parent` 0, `pv` 0 (D23). -/
def internalNode (f : NodeFreq) (l r : NodeIdx) : Node :=
  { leaf := false, sym := 0, freq := f, left := l, right := r, pv := false, parent := 0 }

/-- The node index of a position in the node store. -/
def idx (n : Nat) : NodeIdx := BitVec.ofNat 9 n

/-- `N'[k].pv <- 1 ; N'[k].parent <- p` (R70, R102). -/
def adopt (p k : NodeIdx) (nodes : List Node) : List Node :=
  nodes.modify k.toNat fun nd => { nd with pv := true, parent := p }

/-- An internal node over `l` and `r` takes the next free cell, and both get it as parent (R70, R102). -/
def join (f : NodeFreq) (l r : NodeIdx) (nodes : List Node) : List Node :=
  adopt (idx nodes.length) r (adopt (idx nodes.length) l nodes) ++ [internalNode f l r]

/-! ## The bit source (R36, R37, R43) -/

/-- The bits of a byte in the reference adapter, most significant first (R43). -/
def byteBits (v : Byte) : List Bool := (List.range 8).map fun i => v.getLsbD (7 - i)

/-- The byte the reference adapter reads from 8 bits, most significant first (R43). -/
def byteOfBits (l : List Bool) : Byte := BitVec.ofNat 8 (l.foldl (fun n b => 2 * n + b.toNat) 0)

/-- The bits of a stream in the reference adapter: a bit as it is, a byte as its 8 bits (R43). -/
def eventBits (es : List Event) : List Bool :=
  es.flatMap fun e =>
    match e with
    | .bit b => [b]
    | .byte v => byteBits v

/-- The answer of a scripted source to the call that matches `e` (R39). -/
def eventItem : Event → SrcItem
  | .bit b => .bit b
  | .byte v => .byte v

/-- A source that first gives `es`, call for call, and then what `x` gives (R39). Of a source of which nothing is
known, nothing is kept. -/
def sourceWith (es : List Event) (x : Source) : Source :=
  match x with
  | .script l => .script (es.map eventItem ++ l)
  | .adapter l => .adapter (eventBits es ++ l)
  | .unknown => .script (es.map eventItem)

namespace State

/-- `SrcBit()` (R37). An entry that answers a byte call does not answer this one: nothing is promised then, of this
call or of any later one (R39; log 5). -/
def srcBit (s : State) : Reply Bool × State :=
  match s.chan.source with
  | .script (.bit b :: l) => (.got b, s.setSource (.script l))
  | .script (.byte _ :: _) => (Config.srcBit s.choice.fresh, (s.setSource .unknown).tick)
  | .script (.exhausted :: l) => (.exhausted, s.setSource (.script l))
  | .script (.ioFail :: l) => (.ioFail, s.setSource (.script l))
  | .script (.hold :: _) => (.withheld, s)
  | .script [] => (.withheld, s)
  | .adapter (b :: l) => (.got b, s.setSource (.adapter l))
  | .adapter [] => (.exhausted, s)
  | .unknown => (Config.srcBit s.choice.fresh, s.tick)

/-- `SrcByte()` (R37). The adapter with fewer than 8 bits answers `exhausted` and removes nothing (R43). -/
def srcByte (s : State) : Reply Byte × State :=
  match s.chan.source with
  | .script (.byte v :: l) => (.got v, s.setSource (.script l))
  | .script (.bit _ :: _) => (Config.srcByte s.choice.fresh, (s.setSource .unknown).tick)
  | .script (.exhausted :: l) => (.exhausted, s.setSource (.script l))
  | .script (.ioFail :: l) => (.ioFail, s.setSource (.script l))
  | .script (.hold :: _) => (.withheld, s)
  | .script [] => (.withheld, s)
  | .adapter l =>
    if l.length < 8 then (.exhausted, s) else (.got (byteOfBits (l.take 8)), s.setSource (.adapter (l.drop 8)))
  | .unknown => (Config.srcByte s.choice.fresh, s.tick)

end State

/-- What a command makes of an answer of the source: it goes on with what it got, raises `SourceExhausted` or
`IoFailure` (R37), or stays in progress as `wait` while the answer is withheld (R40). -/
def onReply {α : Type} (r : Reply α × State) (wait : Running)
    (go : α → State → Host.Outcome State Fault Refusal) : Host.Outcome State Fault Refusal :=
  match r with
  | (.got a, s) => go a s
  | (.exhausted, s) => .next (s.raise .sourceExhausted)
  | (.ioFail, s) => .next (s.raise .ioFailure)
  | (.withheld, s) => .next (s.setRunning wait)

/-! ## The bit sink (R38) -/

/-- `SinkBit` or `SinkByte`, by the event: the answer, and the event appended if it was `ok` (R35, R38). -/
def State.sinkCall (e : Event) (s : State) : SinkItem × State :=
  match s.chan.sinkPlan with
  | .script (.ok :: l) => (.ok, (s.setSinkPlan (.script l)).pushSink e)
  | .script (.ioFail :: l) => (.ioFail, s.setSinkPlan (.script l))
  | .script (.hold :: _) => (.hold, s)
  | .script [] => (.hold, s)
  | .adapter => (.ok, s.pushSink e)

/-- Hand `es` to the sink one call at a time, `ev` saying which call each is, then end as `fin` says. `io_fail` raises
`IoFailure` (R38), what was accepted stays in the sink (R41), and a withheld answer leaves the command in progress with
`wait` of what is left (R40). -/
def emit {α : Type} (ev : α → Event) (wait : List α → Running) (fin : State → State) : List α → State → State
  | [], s => fin s
  | e :: es, s =>
    match s.sinkCall (ev e) with
    | (.ok, s') => emit ev wait fin es s'
    | (.ioFail, s') => s'.raise .ioFailure
    | (.hold, s') => s'.setRunning (wait (e :: es))

/-! ## Withheld answers (R40) -/

/-- The sink withholds its answer for now. -/
def SinkPlan.withholds : SinkPlan → Bool
  | .script [] => true
  | .script (.hold :: _) => true
  | .script (.ok :: _) => false
  | .script (.ioFail :: _) => false
  | .adapter => false

/-- The source withholds the answer to the call a command waits on (`byte` says which) for now. -/
def Source.withholds (fresh : Nat) (byte : Bool) : Source → Bool
  | .script [] => true
  | .script (.hold :: _) => true
  | .script (.bit _ :: _) => false
  | .script (.byte _ :: _) => false
  | .script (.exhausted :: _) => false
  | .script (.ioFail :: _) => false
  | .adapter _ => false
  | .unknown => if byte then Config.srcByte fresh == .withheld else Config.srcBit fresh == .withheld

namespace State

/-- The command in progress has no answer to its call yet (R40). -/
def stalled (r : Running) (s : State) : Bool :=
  match r with
  | .encode _ _ => s.chan.sinkPlan.withholds
  | .serialize _ => s.chan.sinkPlan.withholds
  | .decode _ => s.chan.source.withholds s.choice.fresh false
  | .deserialize st => s.chan.source.withholds s.choice.fresh st.tag

/-- The source has withheld its answer for this step. -/
def passSourceHold (s : State) : State :=
  match s.chan.source with
  | .script (.hold :: l) => s.setSource (.script l)
  | .unknown => s.tick
  | _ => s

/-- The sink has withheld its answer for this step. -/
def passSinkHold (s : State) : State :=
  match s.chan.sinkPlan with
  | .script (.hold :: l) => s.setSinkPlan (.script l)
  | _ => s

/-- The channel that `r` waits on has withheld its answer for this step. -/
def passHold (r : Running) (s : State) : State :=
  match r with
  | .encode _ _ => s.passSinkHold
  | .serialize _ => s.passSinkHold
  | .decode _ => s.passSourceHold
  | .deserialize _ => s.passSourceHold

end State

end Sys2Proof.Machine
end

