-- ==== Sys2Proof/Machine/Operands.lean ====
section
/-! DEFINITION. The operands of the commands (R53): the frequency table, the leaf index, the node store. The symbol
operand of ENCODE is used as it stands in the command word. -/

namespace Sys2Proof.Machine

/-- `FREQ[s]` (R16). -/
def readFreq (f : FreqTable) (a : Byte) : Word := f[a.toNat]'a.isLt

/-- `LI[s]`: the index of the leaf registered for `s`, if one is (R14). -/
def readLi (li : LeafIndex) (a : Byte) : Option NodeIdx := li[a.toNat]'a.isLt

/-- `LI[s] <- (1, k)` (R70, R102). -/
def setLi (li : LeafIndex) (a : Byte) (k : NodeIdx) : LeafIndex := li.set a.toNat (some k) a.isLt

/-- The 256 symbols in ascending order, the order of BUILD's step 1 (R70). -/
def allSymbols : List Byte := (List.range 256).map (BitVec.ofNat 8)

/-- `zext_NFREQ_W(FREQ[s])` (R70). -/
def leafFreq (f : FreqTable) (a : Byte) : NodeFreq := (readFreq f a).setWidth 40

/-- The `freq` field of a cell being staged. BUILD asks only for cells it has constructed. -/
def nodeFreq (nodes : List Node) (k : NodeIdx) : NodeFreq :=
  match nodes[k.toNat]? with
  | some nd => nd.freq
  | none => 0

end Sys2Proof.Machine
end

