-- ==== Sys2Proof/Machine/SymbolDecoder.lean ====
section
/-! DEFINITION. Unit symbol_decoder: DECODE (R87 to R91). -/

namespace Sys2Proof.Machine

/-- The descent of R88 from node `k`. In a tree that keeps R23 it ends within `Config.nodeCap` turns; if it does not,
the command is still in progress after the step. -/
def descendLoop : Nat → NodeIdx → State → Host.Outcome State Fault Refusal
  | 0, k, s => .next (s.setRunning (.decode k))
  | n + 1, k, s =>
    match s.tree.nodes[k.toNat]? with
    | none => .fault .brokenTree
    | some nd =>
      if nd.leaf then .next ((s.setRsym nd.sym).done)
      else onReply s.srcBit (.decode k) fun b s' => descendLoop n (if b then nd.right else nd.left) s'

/-- `DECODE` (R88): `EmptyTree` before any source call. -/
def execDecode (s : State) : Host.Outcome State Fault Refusal :=
  match s.tree.root with
  | none => .next (s.raise .emptyTree)
  | some r => descendLoop Config.nodeCap r s

end Sys2Proof.Machine
end

