-- ==== Sys2Proof/Machine/SymbolEncoder.lean ====
section
/-! DEFINITION. Unit symbol_encoder: ENCODE (R80 to R84). -/

namespace Sys2Proof.Machine

/-- The walk of R81 from node `k` to the root, its bits already in root-to-leaf order: `acc` holds those of the part
walked. `none` when a link leads to no cell in use, or the walk is longer than `fuel`: the tree breaks R23. -/
def walkUp (nodes : List Node) : Nat → NodeIdx → List Bool → Option (List Bool)
  | 0, _, _ => none
  | n + 1, k, acc =>
    match nodes[k.toNat]? with
    | none => none
    | some nd =>
      if nd.pv then
        match nodes[nd.parent.toNat]? with
        | none => none
        | some p => walkUp nodes n nd.parent ((if p.left = k then false else true) :: acc)
      else some acc

/-- The codeword of the leaf `k`, root end first (R58, R81). -/
def codeword (nodes : List Node) (k : NodeIdx) : Option (List Bool) := walkUp nodes Config.nodeCap k []

/-- Send the bits that are left, then `CLEN <- |c|` and `done` (R81). -/
def sendCodeword (len : Byte) (bits : List Bool) (s : State) : State :=
  emit .bit (fun rest => .encode rest len) (fun s' => (s'.setClen len).done) bits s

/-- `ENCODE s` (R81): `EmptyTree` first, then `NotFound`, then the walk, then the calls (R82, R115). -/
def execEncode (a : Byte) (s : State) : Host.Outcome State Fault Refusal :=
  if s.tree.root = none then .next (s.raise .emptyTree)
  else
    match readLi s.tree.li a with
    | none => .next (s.raise .notFound)
    | some k =>
      match codeword s.tree.nodes k with
      | none => .fault .brokenTree
      | some c => .next (sendCodeword (BitVec.ofNat 8 c.length) c s)

end Sys2Proof.Machine
end

