-- ==== Sys2Proof/Machine/TreeBuilder.lean ====
section
/-! DEFINITION. Unit huffman_tree_builder: the priority ordering, the queue, and BUILD (R65 to R75). -/

namespace Sys2Proof.Machine

/-- The ordering of R65: "x goes before y". -/
def lt (x y : Node) : Bool :=
  x.freq.ult y.freq || (x.freq == y.freq && x.leaf && y.leaf && x.sym.ult y.sym)

/-- BUILD's staged state and queue `Q`, a multiset of node indices (R66), with the draws still to come. -/
structure Build where
  nodes : List Node
  li : LeafIndex
  q : List NodeIdx
  choice : Choices
deriving DecidableEq, Repr

/-- `lt(N'[x], N'[m])` (R68). -/
def before (nodes : List Node) (x m : NodeIdx) : Bool :=
  match nodes[x.toNat]?, nodes[m.toNat]? with
  | some nx, some nm => lt nx nm
  | _, _ => false

/-- The set `M` of R68: the elements of `Q` that no element of `Q` goes before. -/
def minimal (nodes : List Node) (q : List NodeIdx) : List NodeIdx :=
  q.filter fun m => q.all fun x => !before nodes x m

/-- One draw of `TIEBREAK`: the next one listed, or else an opaque value made fresh by the counter (R68; log 6). -/
def draw (c : Choices) : Nat × Choices :=
  match c.draws with
  | d :: ds => (d, { c with draws := ds })
  | [] => (Config.tiebreak c.fresh, { c with fresh := c.fresh + 1 })

/-- `choose m in M` (R68): fixed when `M` has one element, otherwise the element a draw names. The elements stand in
the order of `TB_REF`, so draw 0 is `TB_REF`'s choice (R69). -/
def choose (m : List NodeIdx) (c : Choices) : Option (NodeIdx × Choices) :=
  match m with
  | [] => none
  | [x] => some (x, c)
  | x :: y :: rest => some ((x :: y :: rest).getD ((draw c).1 % (rest.length + 2)) x, (draw c).2)

/-- `extract_min(Q)` (R68), defined when `Q` is not empty (R66). -/
def extractMin (b : Build) : Option (NodeIdx × Build) :=
  match choose (minimal b.nodes b.q) b.choice with
  | none => none
  | some (m, c) => some (m, { b with q := b.q.erase m, choice := c })

/-- Step 1 of BUILD for one symbol (R70). -/
def insertSymbol (f : FreqTable) (b : Build) (a : Byte) : Build :=
  if readFreq f a = 0 then b
  else
    { b with
      nodes := b.nodes ++ [leafNode a (leafFreq f a)]
      li := setLi b.li a (idx b.nodes.length)
      q := b.q ++ [idx b.nodes.length] }

/-- Step 1 of BUILD: a leaf for every symbol with frequency > 0 (R70). -/
def buildLeaves (f : FreqTable) (c : Choices) : Build :=
  allSymbols.foldl (insertSymbol f) { nodes := [], li := Vector.replicate 256 none, q := [], choice := c }

/-- One turn of step 2: the first node extracted is the first-branch child, the second the second-branch child, and
the new node's frequency is their sum (R70, D11). -/
def mergeStep (b : Build) : Build :=
  match extractMin b with
  | none => b
  | some (l, b1) =>
    match extractMin b1 with
    | none => b1
    | some (r, b2) =>
      { b2 with
        nodes := join (nodeFreq b2.nodes l + nodeFreq b2.nodes r) l r b2.nodes
        q := b2.q ++ [idx b2.nodes.length] }

/-- Step 2: "while the queue holds more than one node" (R70). Every turn shortens the queue by one, so its length is
turns enough. -/
def mergeAll : Nat → Build → Build
  | 0, b => b
  | n + 1, b => if b.q.length ≤ 1 then b else mergeAll n (mergeStep b)

/-- BUILD's staged tree at `commit` (R70), the empty tree for an all-zero table (R71 a), and the draws left. -/
def buildTree (f : FreqTable) (c : Choices) : TreeState × Choices :=
  let b := buildLeaves f c
  let b := mergeAll b.q.length b
  match extractMin b with
  | none => (TreeState.empty, b.choice)
  | some (r, b) =>
    ({ nodes := b.nodes, root := some r, li := b.li, nnode := BitVec.ofNat 10 b.nodes.length }, b.choice)

/-- `BUILD` (R70). It makes no channel call and cannot fail (R75). -/
def execBuild (s : State) : Host.Outcome State Fault Refusal :=
  .next (((s.setChoice (buildTree s.freq s.choice).2).commit (buildTree s.freq s.choice).1).done)

end Sys2Proof.Machine
end

