-- ==== Sys2Proof/Machine/TreeDeserializer.lean ====
section
/-! DEFINITION. Unit tree_deserializer: the two records as a running DESERIALIZE reads them, and DESERIALIZE (R100 to
R108). -/

namespace Sys2Proof.Machine

/-- What reading a record leaves: more to read, a whole tree, or a stream too large (R105). -/
inductive Absorbed where
  | more (st : Staging)
  | whole (t : TreeState)
  | tooLarge
deriving DecidableEq, Repr

namespace Staging

/-- Node `k` has just been constructed: it is the first-branch child of the innermost pending record, or its second,
and then that record's node is constructed in turn; with no record pending, `k` is the root (R102). The frames are
the stack. -/
def attach (li : LeafIndex) (ic : Nat) : List Frame → NodeIdx → List Node → Absorbed
  | [], k, nodes => .whole { nodes := nodes, root := some k, li := li, nnode := BitVec.ofNat 10 nodes.length }
  | .first :: fs, k, nodes => .more { nodes := nodes, li := li, ic := ic, stack := .second k :: fs, tag := false }
  | .second l :: fs, k, nodes => attach li ic fs (idx nodes.length) (join 0 l k nodes)

/-- A leaf record (R102): the leaf takes the next free cell with `freq` 0 (R106), and `LI'[v]` names it in place of
any earlier leaf (R104). -/
def addLeaf (v : Byte) (st : Staging) : Absorbed :=
  attach (setLi st.li v (idx st.nodes.length)) st.ic st.stack (idx st.nodes.length) (st.nodes ++ [leafNode v 0])

/-- An internal record (R102): `ic` counts it, the 256th is too many (R105), and its first-branch subtree follows. -/
def addInternal (st : Staging) : Absorbed :=
  if st.ic + 1 > Config.maxInternal then .tooLarge
  else .more { st with ic := st.ic + 1, stack := .first :: st.stack, tag := false }

end Staging

/-- DESERIALIZE after a record: it goes on, or commits and ends, or raises `CapacityExceeded` (R102, R105). -/
def settle (a : Absorbed) (s : State) : State :=
  match a with
  | .more st => s.setRunning (.deserialize st)
  | .whole t => (s.commit t).done
  | .tooLarge => s.raise .capacityExceeded

/-- The state after the record `TS.LEAF v` has been read. Only a running DESERIALIZE reads records (log 8). -/
def readLeaf (v : Byte) (s : State) : State :=
  match s.running with
  | some (.deserialize st) => settle (st.addLeaf v) s
  | _ => s

/-- The state after the record `TS.INTERNAL` has been read. Only a running DESERIALIZE reads records (log 8). -/
def readInternal (s : State) : State :=
  match s.running with
  | some (.deserialize st) => settle st.addInternal s
  | _ => s

/-- `TS.LEAF` (R56, R102), read by a running DESERIALIZE. -/
def execTsLeaf (v : Byte) (s : State) : Host.Outcome State Fault Refusal := .next (readLeaf v s)

/-- `TS.INTERNAL` (R56, R102, R105), read by a running DESERIALIZE. -/
def execTsInternal (s : State) : Host.Outcome State Fault Refusal := .next (readInternal s)

/-- The calls of `des()` in stream order, one a turn: a tag by `SrcBit`, the symbol after tag 1 by `SrcByte` (R42,
R102). At most 512 tags and 256 symbols are read before the command ends (R105), so 1024 turns do; if they did not, the
command would still be in progress after the step. -/
def desLoop : Nat → Staging → State → Host.Outcome State Fault Refusal
  | 0, st, s => .next (s.setRunning (.deserialize st))
  | n + 1, st, s =>
    if st.tag then
      onReply s.srcByte (.deserialize st) fun v s' =>
        match st.addLeaf v with
        | .more st' => desLoop n st' s'
        | a => .next (settle a s')
    else
      onReply s.srcBit (.deserialize st) fun b s' =>
        if b then desLoop n { st with tag := true } s'
        else
          match st.addInternal with
          | .more st' => desLoop n st' s'
          | a => .next (settle a s')

/-- Turns enough for any stream (R105). -/
abbrev desTurns : Nat := 1024

/-- `DESERIALIZE` (R102). The old tree is not read, and stays unless the new one is whole (R19). -/
def execDeserialize (s : State) : Host.Outcome State Fault Refusal := desLoop desTurns Staging.fresh s

end Sys2Proof.Machine
end

