-- ==== Sys2Proof/Machine/TreeSerializer.lean ====
section
/-! DEFINITION. Unit tree_serializer: SERIALIZE (R94 to R97). -/

namespace Sys2Proof.Machine

/-- The channel calls of `ser(k)` in order (R95): a leaf's record, or an internal record and then the first-branch and
the second-branch subtree. The first argument bounds the depth; `none` when it does not do, or an index is no cell in
use: the tree breaks R23. -/
def serEvents (nodes : List Node) : Nat → NodeIdx → Option (List Event)
  | 0, _ => none
  | n + 1, k =>
    match nodes[k.toNat]? with
    | none => none
    | some nd =>
      if nd.leaf then some (leafRecord nd.sym)
      else
        match serEvents nodes n nd.left, serEvents nodes n nd.right with
        | some l, some r => some (internalRecord ++ l ++ r)
        | _, _ => none

/-- Send the events that are left, then `done` (R95). -/
def sendEvents (es : List Event) (s : State) : State := emit id .serialize State.done es s

/-- `SERIALIZE` (R95). An absent root emits nothing and is no error. -/
def execSerialize (s : State) : Host.Outcome State Fault Refusal :=
  match s.tree.root with
  | none => .next s.done
  | some r =>
    match serEvents s.tree.nodes Config.nodeCap r with
    | none => .fault .brokenTree
    | some es => .next (sendEvents es s)

end Sys2Proof.Machine
end

