-- ==== Sys2Proof/Machine/Dispatch.lean ====
section
/-! DEFINITION. One arm per instruction (R51, R56). -/

namespace Sys2Proof.Machine

def exec (i : Instr) (s : State) : Host.Outcome State Fault Refusal :=
  match i with
  | .build => Sys2Proof.Machine.execBuild s
  | .encode sym => Sys2Proof.Machine.execEncode sym s
  | .decode => Sys2Proof.Machine.execDecode s
  | .serialize => Sys2Proof.Machine.execSerialize s
  | .deserialize => Sys2Proof.Machine.execDeserialize s
  | .tsLeaf sym => Sys2Proof.Machine.execTsLeaf sym s
  | .tsInternal => Sys2Proof.Machine.execTsInternal s

end Sys2Proof.Machine
end

