-- ==== Sys2Proof/Machine/HostPort.lean ====
section
/-! DEFINITION. The host register port, the reset input, and how a stuck command goes on (R30 to R32, R40, R130). -/

namespace Sys2Proof.Machine

/-! ## The register map (R30) -/

abbrev regCmd : RegNum := 0x100
abbrev regStatus : RegNum := 0x101
abbrev regRsym : RegNum := 0x102
abbrev regClen : RegNum := 0x103
abbrev regNnode : RegNum := 0x104

/-- `HostRead(ra)` with `BUSY` = 0 (R31): it changes no register. -/
def hostRead (ra : RegNum) (s : State) : Word :=
  if ra ≤ 0x0FF then readFreq s.freq (ra.setWidth 8)
  else if ra = regCmd then 0
  else if ra = regStatus then s.status
  else if ra = regRsym then s.rsym.setWidth 32
  else if ra = regClen then s.clen.setWidth 32
  else if ra = regNnode then s.tree.nnode.setWidth 32
  else 0

/-- `HostWrite(ra, v)` with `BUSY` = 0 to a register other than `CMD` (R31): only `FREQ[s]` stores anything. -/
def hostWrite (ra : RegNum) (v : Word) (s : State) : State :=
  if ra ≤ 0x0FF then s.setFreq (ra.setWidth 8) v else s

/-- What a host read returns while `BUSY` = 1 (R32): a free value, but for bit 0 of `STATUS`, which is 1. -/
def busyReadValue (ra : RegNum) (s : State) : Word :=
  if ra = regStatus then Config.busyRead s.choice.fresh ||| 1 else Config.busyRead s.choice.fresh

/-- The reset input (R130): the registers take the values of R27 and a command in progress is dropped without
`commit`; host and collaborator are not reset. -/
def applyReset (s : State) : State :=
  { State.reset with host := s.host, chan := s.chan, choice := s.choice }

/-- What the host does at a step in which the command in progress has no answer yet, `BUSY` = 1: its writes are
ignored, its reads return free values (R32), `WAIT` goes on polling (R62), reset is served (R130). -/
def serveBusy (s : State) : State :=
  match s.host.port with
  | [] => s
  | .read ra :: l => ((s.setPort l).pushReply (busyReadValue ra s)).tick
  | .write _ _ :: l => s.setPort l
  | .wait :: _ => (s.pushReply (busyReadValue regStatus s)).tick
  | .reset :: l => applyReset (s.setPort l)

/-- The command in progress goes on from where it stood (R40). -/
def resume (r : Running) (s : State) : Host.Outcome State Fault Refusal :=
  match r with
  | .encode rest len => .next (sendCodeword len rest s)
  | .decode k => descendLoop Config.nodeCap k s
  | .serialize rest => .next (sendEvents rest s)
  | .deserialize st => desLoop desTurns st s

end Sys2Proof.Machine
end

