-- ==== Sys2Proof/Machine/Step.lean ====
section
/-! DEFINITION. One step: a host input served, or a command in progress going on (R31, R40, R44, R52). -/

namespace Sys2Proof.Machine

/-- A value written to `CMD` while `BUSY` = 0 (R52): the command it selects runs, and an illegal one ends at once with
`InvalidArgument` (R54). -/
def acceptCommand (v : Word) (s : State) : Host.Outcome State Fault Refusal :=
  match decodeCommand v with
  | .ok i => exec i s
  | .error _ => .next (s.raise .invalidArgument)

/-- A step with `BUSY` = 0: the next host input, in the order the host issues them (R31, R44). With none pending the
block waits. -/
def serveIdle (s : State) : Host.Outcome State Fault Refusal :=
  match s.host.port with
  | [] => .next s
  | .read ra :: l => .next ((s.setPort l).pushReply (hostRead ra s))
  | .write ra v :: l =>
    if ra = regCmd then acceptCommand v (s.setPort l) else .next (hostWrite ra v (s.setPort l))
  | .wait :: l => .next ((s.setPort l).pushReply (hostRead regStatus s))
  | .reset :: l => .next (applyReset (s.setPort l))

/-- One step. A command in progress goes on as soon as its call is answered; until then the host is served with
`BUSY` = 1 (R32, R40). -/
def step (s : State) : Host.Outcome State Fault Refusal :=
  match s.running with
  | none => serveIdle s
  | some r => if s.stalled r then .next (serveBusy (s.passHold r)) else resume r s

/-- The state whose next step runs the instruction of a table word (log 8): a command word is what the host writes to
`CMD` next, with no command in progress; a record is what the source gives next to a DESERIALIZE that has just
started. -/
def State.withFetchWord (s : State) (nbits w : Nat) : State :=
  match tableCode nbits w with
  | .command v => { s with running := none, host := { s.host with port := .write regCmd v :: s.host.port } }
  | .record es =>
    { s with
      running := some (.deserialize Staging.fresh)
      chan := { s.chan with source := sourceWith es s.chan.source } }

end Sys2Proof.Machine
end

