-- ==== Sys2Proof/Machine/HostProgram.lean ====
section
/-! DEFINITION. Host programs: the lines of R61 and the pseudo-operations of R62 as the host inputs they stand for. -/

namespace Sys2Proof.Machine

/-- One line of a host program (R61, R62). -/
inductive HostLine where
  /-- `WR ra, v`. -/
  | wr (ra : RegNum) (v : Word)
  /-- `RD ra`. -/
  | rd (ra : RegNum)
  /-- A command line: `BUILD`, `ENCODE s`, `DECODE`, `SERIALIZE` or `DESERIALIZE`. -/
  | command (op : BitVec 3) (sym : Byte)
  /-- `FREQ s, n`. -/
  | freq (a : Byte) (n : Word)
  /-- `CLRF`. -/
  | clrf
  /-- `LOADF`. -/
  | loadf (l : List (Byte × Word))
  /-- `CLEAR`. -/
  | clear
  /-- `WAIT`. -/
  | wait
deriving DecidableEq, Repr

/-- `FREQ s, n` is `WR s, n`: the register number is the symbol's value (R62). -/
def freqLine (a : Byte) (n : Word) : HostInput := .write (a.setWidth 10) n

/-- A command line writes the command word to `CMD` and waits until `BUSY` = 0 (R61). -/
def commandLine (op : BitVec 3) (sym : Byte) : List HostInput := [.write regCmd (commandWord op sym), .wait]

/-- `CLRF` is `WR s, 0` for every symbol (R62). -/
def clrfLines : List HostInput := allSymbols.map fun a => freqLine a 0

/-- The expansion of a line (R61, R62). -/
def HostLine.inputs : HostLine → List HostInput
  | .wr ra v => [.write ra v]
  | .rd ra => [.read ra]
  | .command op sym => commandLine op sym
  | .freq a n => [freqLine a n]
  | .clrf => clrfLines
  | .loadf l => clrfLines ++ l.map fun p => freqLine p.1 p.2
  | .clear => clrfLines ++ commandLine 1 0
  | .wait => [.wait]

/-- A host program as the inputs it stands for, in order (R61). -/
def programInputs (l : List HostLine) : List HostInput := l.flatMap HostLine.inputs

/-- The bits of a stream packed into bytes (R43): first bit is bit 7 of the first byte, the last byte padded with 0.
The first argument bounds the number of bytes. -/
def packBits : Nat → List Bool → List Byte
  | 0, _ => []
  | _ + 1, [] => []
  | n + 1, b :: l => byteOfBits (((b :: l) ++ List.replicate 7 false).take 8) :: packBits n ((b :: l).drop 8)

end Sys2Proof.Machine
end

