-- ==== Sys2Proof/Safety.lean ====
section
/-! DEFINITION. The terms claims use: the abstract view of a tree state (R26), what a collaborator is about to answer,
and the invariant of R23. -/

namespace Sys2Proof.Machine

/-! ## The abstract view (R26) -/

/-- The shape of a full binary tree (R26). -/
inductive Shape where
  | leaf (v : Byte)
  | node (l r : Shape)
deriving DecidableEq, Repr

namespace Shape

/-- The event sequence `S` of R97. -/
def stream : Shape → List Event
  | .leaf v => [.bit true, .byte v]
  | .node l r => .bit false :: (l.stream ++ r.stream)

/-- The symbols of the leaves, in preorder. -/
def symbols : Shape → List Byte
  | .leaf v => [v]
  | .node l r => l.symbols ++ r.symbols

/-- The number of internal nodes. -/
def internals : Shape → Nat
  | .leaf _ => 0
  | .node l r => l.internals + r.internals + 1

/-- The number of nodes. -/
def size : Shape → Nat
  | .leaf _ => 1
  | .node l r => l.size + r.size + 1

/-- The subtree a path leads to: 0 to the first-branch child, 1 to the second (R9, R26). -/
def sub : List Bool → Shape → Option Shape
  | [], t => some t
  | _ :: _, .leaf _ => none
  | b :: bs, .node l r => sub bs (if b then r else l)

/-- The cost below depth `d`: the sum over the leaves of weight times depth (R73). -/
def cost (w : Byte → Nat) : Nat → Shape → Nat
  | d, .leaf v => w v * d
  | d, .node l r => cost w (d + 1) l + cost w (d + 1) r

/-- The cells DESERIALIZE gives a subtree (R102, R108): post-order from cell `base` on, the first-branch subtree before
the second, each subtree before its parent; `parent` is the cell of the parent, if there is one. -/
def cells (base : Nat) (parent : Option NodeIdx) : Shape → List Node
  | .leaf v =>
    [{ leaf := true, sym := v, freq := 0, left := 0, right := 0, pv := parent.isSome, parent := parent.getD 0 }]
  | .node l r =>
    cells base (some (idx (base + l.size + r.size))) l ++
      (cells (base + l.size) (some (idx (base + l.size + r.size))) r ++
        [{ leaf := false, sym := 0, freq := 0, left := idx (base + l.size - 1),
           right := idx (base + l.size + r.size - 1), pv := parent.isSome, parent := parent.getD 0 }])

/-- The leaf index entries DESERIALIZE makes for a subtree whose cells start at `base`: a later leaf replaces an earlier
one with the same symbol (R104, R108). -/
def register (base : Nat) (li : LeafIndex) : Shape → LeafIndex
  | .leaf v => setLi li v (idx base)
  | .node l r => register (base + l.size) (register base li l) r

/-- The tree state DESERIALIZE leaves for a shape (R108). -/
def toTree (t : Shape) : TreeState :=
  { nodes := cells 0 none t
    root := some (idx (t.size - 1))
    li := register 0 (Vector.replicate 256 none) t
    nnode := BitVec.ofNat 10 t.size }

end Shape

/-- The shape of node `k` (R26). The first argument bounds the depth. -/
def shapeAt (nodes : List Node) : Nat → NodeIdx → Option Shape
  | 0, _ => none
  | n + 1, k =>
    match nodes[k.toNat]? with
    | none => none
    | some nd =>
      if nd.leaf then some (.leaf nd.sym)
      else
        match shapeAt nodes n nd.left, shapeAt nodes n nd.right with
        | some l, some r => some (.node l r)
        | _, _ => none

/-- The node a path leads to from node `k` (R26): 0 to the first-branch child, 1 to the second. -/
def followPath (nodes : List Node) : List Bool → NodeIdx → Option NodeIdx
  | [], k => if k.toNat < nodes.length then some k else none
  | b :: bs, k =>
    match nodes[k.toNat]? with
    | none => none
    | some nd => if nd.leaf then none else followPath nodes bs (if b then nd.right else nd.left)

namespace TreeState

/-- `N[k]`, if the cell is in use. -/
def node? (t : TreeState) (k : NodeIdx) : Option Node := t.nodes[k.toNat]?

/-- `shape(ROOT)`, if there is a root (R26). -/
def shape (t : TreeState) : Option Shape :=
  match t.root with
  | none => none
  | some r => shapeAt t.nodes Config.nodeCap r

/-- The node the path `c` leads to from the root: `c` is `path(k)` when this is `k` (R26). -/
def atPath (t : TreeState) (c : List Bool) : Option NodeIdx :=
  match t.root with
  | none => none
  | some r => followPath t.nodes c r

/-- The path `c` leads to a leaf carrying `v`. -/
def leafAtPath (t : TreeState) (c : List Bool) (v : Byte) : Prop :=
  ∃ k nd, t.atPath c = some k ∧ t.node? k = some nd ∧ nd.leaf = true ∧ nd.sym = v

/-- `c` is the codeword of `a`: the path of the leaf that the leaf index names for `a` (R58). -/
def IsCodeword (t : TreeState) (a : Byte) (c : List Bool) : Prop :=
  ∃ k, readLi t.li a = some k ∧ t.atPath c = some k

end TreeState

/-! ## What the collaborator is about to answer (R36 to R39) -/

/-- The source answers the call that matches `e` with what `e` carries, and is then the source returned. -/
def Source.gives1 (e : Event) (x : Source) : Option Source :=
  match e, x with
  | .bit b, .script (.bit b' :: l) => if b = b' then some (.script l) else none
  | .byte v, .script (.byte v' :: l) => if v = v' then some (.script l) else none
  | .bit b, .adapter (b' :: l) => if b = b' then some (.adapter l) else none
  | .byte v, .adapter l =>
    if 8 ≤ l.length ∧ byteOfBits (l.take 8) = v then some (.adapter (l.drop 8)) else none
  | _, _ => none

/-- "The next events of the source are `es`" (R107, R108), and after them it is the source returned. -/
def Source.gives : List Event → Source → Option Source
  | [], x => some x
  | e :: es, x =>
    match x.gives1 e with
    | none => none
    | some y => y.gives es

/-- The next call is answered `exhausted` or `io_fail` (as `kind` says), whichever call it is, and the source is then
the source returned. -/
def Source.fails (kind : ErrKind) (x : Source) : Option Source :=
  match kind, x with
  | .sourceExhausted, .script (.exhausted :: l) => some (.script l)
  | .sourceExhausted, .adapter [] => some (.adapter [])
  | .ioFailure, .script (.ioFail :: l) => some (.script l)
  | _, _ => none

/-- The sink accepts the next `n` calls, and its plan is then the plan returned. -/
def SinkPlan.accepts : Nat → SinkPlan → Option SinkPlan
  | 0, p => some p
  | n + 1, .script (.ok :: l) => accepts n (.script l)
  | _ + 1, .script _ => none
  | _ + 1, .adapter => some .adapter

/-- The next sink call is answered `io_fail`, and the plan is then the plan returned. -/
def SinkPlan.fails : SinkPlan → Option SinkPlan
  | .script (.ioFail :: l) => some (.script l)
  | _ => none

/-- The source that gives the same answers and withholds none of them for a while (R40). -/
def Source.unheld : Source → Source
  | .script l => .script (l.filter (· != .hold))
  | .adapter l => .adapter l
  | .unknown => .unknown

/-- The sink plan that gives the same answers and withholds none of them for a while (R40). -/
def SinkPlan.unheld : SinkPlan → SinkPlan
  | .script l => .script (l.filter (· != .hold))
  | .adapter => .adapter

/-- The same state with a collaborator that gives the same answers and withholds none of them for a while. -/
def State.unheld (s : State) : State :=
  { s with chan := { s.chan with source := s.chan.source.unheld, sinkPlan := s.chan.sinkPlan.unheld } }

/-- The sink holds `es` more, and its plan is `p` now. -/
def State.sinkTook (es : List Event) (p : SinkPlan) (s : State) : State :=
  { s with chan := { s.chan with sinkPlan := p, sink := s.chan.sink ++ es } }

/-! ## The invariant (R23) -/

/-- The number of leaves, and of internal nodes, in a list of cells. -/
def countLeaves (nodes : List Node) : Nat := (nodes.filter fun nd => nd.leaf).length

/-- The number of internal nodes in a list of cells. -/
def countInternals (nodes : List Node) : Nat := (nodes.filter fun nd => !nd.leaf).length

/-- Node `c` is linked under node `p` as R23 item 3 says. -/
def LinkedUnder (nodes : List Node) (p : Nat) (c : NodeIdx) : Prop :=
  c.toNat < p ∧ ∃ nc, nodes[c.toNat]? = some nc ∧ nc.pv = true ∧ nc.parent.toNat = p

/-- The cells are full binary trees side by side, with the given roots (R12, R23 items 2 to 4, R25). -/
structure Forest (nodes : List Node) (roots : List NodeIdx) : Prop where
  /-- There are 511 cells (R10). -/
  cap : nodes.length ≤ Config.nodeCap
  rootsInUse : ∀ r ∈ roots, r.toNat < nodes.length
  rootsDistinct : roots.Nodup
  /-- `pv` = 0 exactly at the roots (R23 item 4). -/
  rootless : ∀ (k : Nat) (nd : Node), nodes[k]? = some nd → (nd.pv = false ↔ idx k ∈ roots)
  /-- R23 item 3. -/
  children : ∀ (p : Nat) (nd : Node), nodes[p]? = some nd → nd.leaf = false →
    LinkedUnder nodes p nd.left ∧ LinkedUnder nodes p nd.right ∧ nd.left ≠ nd.right
  /-- A node with a parent is a child of that parent (R25). -/
  parents : ∀ (k : Nat) (nd : Node), nodes[k]? = some nd → nd.pv = true →
    ∃ p, nodes[nd.parent.toNat]? = some p ∧ p.leaf = false ∧ (p.left = idx k ∨ p.right = idx k)
  /-- Every internal node joins two trees into one (R23 item 2). -/
  count : countLeaves nodes = countInternals nodes + roots.length
  /-- The fields that mean nothing hold 0 (D23). -/
  tidy : ∀ (k : Nat) (nd : Node), nodes[k]? = some nd →
    (nd.leaf = true → nd.left = 0 ∧ nd.right = 0) ∧ (nd.leaf = false → nd.sym = 0) ∧ (nd.pv = false → nd.parent = 0)

/-- The leaf index names leaves by their symbols, and misses no symbol that has a leaf (R23 items 5 and 6). -/
structure Indexed (nodes : List Node) (li : LeafIndex) : Prop where
  named : ∀ a k, readLi li a = some k → ∃ nd, nodes[k.toNat]? = some nd ∧ nd.leaf = true ∧ nd.sym = a
  complete : ∀ (k : Nat) (nd : Node), nodes[k]? = some nd → nd.leaf = true → (readLi li nd.sym).isSome = true

/-- The tree state is as R23 says. -/
structure TreeInv (t : TreeState) : Prop where
  nnode : t.nnode.toNat = t.nodes.length
  /-- R23 item 1. -/
  absent : t.root = none ↔ t.nodes = []
  /-- `ROOT = NNODE - 1` (R23 item 2). -/
  last : ∀ r, t.root = some r → r.toNat + 1 = t.nodes.length
  forest : Forest t.nodes t.root.toList
  indexed : Indexed t.nodes t.li

/-- The roots of the subtrees a running DESERIALIZE has finished and not yet joined. -/
def openRoots (stack : List Frame) : List NodeIdx :=
  stack.filterMap fun f =>
    match f with
    | .first => none
    | .second l => some l

/-- The staged state of a running DESERIALIZE (R21 b, R102, R105). -/
structure StagingInv (st : Staging) : Prop where
  forest : Forest st.nodes (openRoots st.stack)
  indexed : Indexed st.nodes st.li
  icCap : st.ic ≤ Config.maxInternal
  /-- An internal record read is pending or constructed. -/
  pending : st.stack.length + countInternals st.nodes = st.ic

/-- A command in progress has its locals in order. -/
def RunningInv (t : TreeState) : Running → Prop
  | .encode _ _ => True
  | .decode k => (t.node? k).isSome = true
  | .serialize _ => True
  | .deserialize st => StagingInv st

/-- The invariant: R23 for the tree state, code 7 never in `ERR` (R110), and a command in progress in order. -/
structure Inv (s : State) : Prop where
  tree : TreeInv s.tree
  err : s.err ≠ 7
  running : ∀ r, s.running = some r → RunningInv s.tree r

end Sys2Proof.Machine
end

