-- ==== Sys2Proof/Certificates/Slice0/Obligations.lean ====
section
/-! DEFINITION. The statements for the provers, from the numbered rules of spec/. -/

open Sys2Proof Sys2Proof.Machine

/-! ## Encoding -/

/-- R50, R51, R56: decoding the encoding of an instruction gives the instruction back, whatever its operand. -/
def Obligations.DecodeOfEncodeIsIdentity : Prop :=
  ∀ i : Instr, i.wellFormed = true ∧ decodeCode (encode i) = .ok i

/-- R51, R55: a value written to `CMD` is a command exactly when it is one of the 260 legal words, and each of them is
the command the table gives it. -/
def Obligations.LegalCommandWordsAreTheTables : Prop :=
  (∀ (v : Word) (i : Instr), decodeCommand v = .ok i ↔ encode i = .command v) ∧
  (∀ v : Word, (∃ i, decodeCommand v = .ok i) ↔
    (v = 0x100 ∨ (0x200 ≤ v ∧ v ≤ 0x2FF) ∨ v = 0x300 ∨ v = 0x400 ∨ v = 0x500))

/-- R51, R56: some words of the table, written out, decode to their instructions. That a record's word is its bits in
channel order, first bit leftmost, is the model's choice (log 8). -/
def Obligations.TableWordsDecodeToTheirInstructions : Prop :=
  decodeTableWord 16 0b0000000100000000 = some .build ∧
  decodeTableWord 16 0b0000001001100001 = some (.encode 0x61) ∧
  decodeTableWord 16 0b0000001100000000 = some .decode ∧
  decodeTableWord 16 0b0000010000000000 = some .serialize ∧
  decodeTableWord 16 0b0000010100000000 = some .deserialize ∧
  decodeTableWord 9 0b101000001 = some (.tsLeaf 0x41) ∧
  decodeTableWord 1 0b0 = some .tsInternal

/-- R97: `S` is injective and no `S(t)` is a proper prefix of another `S(u)`. -/
def Obligations.TreeStreamDeterminesShape : Prop :=
  ∀ (t u : Shape) (es fs : List Event), t.stream ++ es = u.stream ++ fs → t = u ∧ es = fs

/-- R57: a tree with L leaves has L - 1 internal nodes and a stream of 10 L - 1 bits: 9 for each leaf, 1 for each
internal node. -/
def Obligations.TreeStreamLength : Prop :=
  ∀ t : Shape, t.symbols.length = t.internals + 1 ∧
    (eventBits t.stream).length = 9 * t.symbols.length + t.internals ∧
    (eventBits t.stream).length = 10 * t.symbols.length - 1

/-- R39: what is written call for call is read back call for call, on a scripted source and on the reference
adapter. -/
def Obligations.SourceReadsBackWhatWasWritten : Prop :=
  ∀ (s : State) (e : Event) (x : Source), x ≠ .unknown → s.chan.source = sourceWith [e] x →
    match e with
    | .bit b => s.srcBit = (.got b, { s with chan := { s.chan with source := x } })
    | .byte v => s.srcByte = (.got v, { s with chan := { s.chan with source := x } })

/-! ## The step, the host port, reset -/

/-- R52: with `BUSY` = 0, a step whose next host input writes a legal word to `CMD` is the execution of the command the
word decodes to. -/
def Obligations.StepExecutesDecodedCommand : Prop :=
  ∀ (s : State) (v : Word) (l : List HostInput) (i : Instr),
    s.running = none → s.host.port = .write 0x100 v :: l → decodeCommand v = .ok i →
    step s = exec i { s with host := { s.host with port := l } }

/-- R56, R102: while a DESERIALIZE waits for a record, a step whose source holds that record and no answer after it is
the execution of the record. That a record is an instruction is the model's choice (log 8), and so is the form of a
scripted source (log 5). -/
def Obligations.StepExecutesDecodedRecord : Prop :=
  ∀ (s : State) (st : Staging) (i : Instr) (es : List Event) (l : List SrcItem),
    s.running = some (.deserialize st) → st.tag = false → encode i = .record es →
    s.chan.source = .script (es.map eventItem ++ l) → (l = [] ∨ ∃ l', l = .hold :: l') →
    step s = exec i { s with chan := { s.chan with source := .script l } }

/-- R54: an illegal command word ends at once with `InvalidArgument`: no channel call, no change but `ERR`. -/
def Obligations.IllegalCommandWordRaisesInvalidArgument : Prop :=
  ∀ (s : State) (v : Word) (l : List HostInput),
    s.running = none → s.host.port = .write 0x100 v :: l →
    (v.extractLsb' 16 16 ≠ 0 ∨ v.extractLsb' 11 5 ≠ 0 ∨
      v.extractLsb' 8 3 = 0 ∨ v.extractLsb' 8 3 = 6 ∨ v.extractLsb' 8 3 = 7 ∨
      ((v.extractLsb' 8 3 = 1 ∨ v.extractLsb' 8 3 = 3 ∨ v.extractLsb' 8 3 = 4 ∨ v.extractLsb' 8 3 = 5) ∧
        v.extractLsb' 0 8 ≠ 0)) →
    step s = .next { s with err := 1, host := { s.host with port := l } }

/-- R31: host reads and writes with `BUSY` = 0. Last clause: `WAIT` (R62) is then one read of `STATUS`. -/
def Obligations.HostPortAccessWhenIdle : Prop :=
  ∀ (s : State) (ra : RegNum) (l : List HostInput), s.running = none →
    (s.host.port = .read ra :: l →
      step s = .next { s with host := { port := l, replies := s.host.replies ++ [
        if h : ra.toNat ≤ 0x0FF then s.freq[ra.toNat]'(by omega)
        else if ra.toNat = 0x101 then
          (s.err.setWidth 32 <<< 4) ||| ((if s.degenFlag then 1 else 0) <<< 2) |||
            ((if s.tree.root = none then 1 else 0) <<< 1)
        else if ra.toNat = 0x102 then s.rsym.setWidth 32
        else if ra.toNat = 0x103 then s.clen.setWidth 32
        else if ra.toNat = 0x104 then s.tree.nnode.setWidth 32
        else 0] } }) ∧
    (∀ v : Word, s.host.port = .write ra v :: l →
      (∀ h : ra.toNat ≤ 0x0FF,
        step s = .next { s with freq := s.freq.set ra.toNat v (by omega), host := { s.host with port := l } }) ∧
      (ra.toNat = 0x100 → step s = acceptCommand v { s with host := { s.host with port := l } }) ∧
      (0x101 ≤ ra.toNat → step s = .next { s with host := { s.host with port := l } })) ∧
    (s.host.port = .wait :: l →
      step s = .next { s with host := { port := l, replies := s.host.replies ++ [hostRead 0x101 s] } } ∧
      step s = step { s with host := { s.host with port := .read 0x101 :: l } } ∧
      (hostRead 0x101 s).getLsbD 0 = false)

/-- R17: the fields of `STATUS`. -/
def Obligations.StatusFieldsReadTheirMeaning : Prop :=
  ∀ s : State,
    s.status.getLsbD 0 = s.running.isSome ∧
    (s.status.getLsbD 1 = true ↔ s.tree.root = none) ∧
    (s.status.getLsbD 2 = true ↔ ∃ r nd, s.tree.root = some r ∧ s.tree.node? r = some nd ∧ nd.leaf = true) ∧
    s.status.getLsbD 3 = false ∧
    s.status.extractLsb' 4 3 = s.err ∧
    s.status.extractLsb' 7 25 = 0

/-- R16: a `FREQ` entry reads what was last written to it, and no write disturbs another entry or another register. -/
def Obligations.FreqReadsWhatWasLastWritten : Prop :=
  ∀ (s : State) (a b : Byte) (v : Word),
    hostRead (b.setWidth 10) (hostWrite (a.setWidth 10) v s) = (if a = b then v else hostRead (b.setWidth 10) s) ∧
    hostWrite (a.setWidth 10) v s = { s with freq := (hostWrite (a.setWidth 10) v s).freq }

/-- R32: while `BUSY` = 1 a host write is ignored, and a read of `STATUS` returns bit 0 = 1; neither changes a
register. Last clause: `WAIT` (R62) reads `STATUS`, finds bit 0 = 1 each time, and is still to be served after the
step. -/
def Obligations.HostAccessWhileBusy : Prop :=
  ∀ (s : State) (r : Running) (ra : RegNum) (l : List HostInput),
    s.running = some r → s.stalled r = true →
    (∀ v, s.host.port = .write ra v :: l →
      ∃ t, step s = .next t ∧ t.host = { s.host with port := l } ∧ t.running = s.running ∧ t.freq = s.freq ∧
        t.tree = s.tree ∧ t.err = s.err ∧ t.rsym = s.rsym ∧ t.clen = s.clen ∧ t.chan.sink = s.chan.sink) ∧
    (s.host.port = .read ra :: l →
      ∃ t v, step s = .next t ∧ t.host = { port := l, replies := s.host.replies ++ [v] } ∧
        (ra = 0x101 → v.getLsbD 0 = true) ∧ t.running = s.running ∧ t.freq = s.freq ∧
        t.tree = s.tree ∧ t.err = s.err ∧ t.rsym = s.rsym ∧ t.clen = s.clen ∧ t.chan.sink = s.chan.sink) ∧
    (s.host.port = .wait :: l →
      ∃ t vs, step s = .next t ∧ t.host = { s.host with replies := s.host.replies ++ vs } ∧ vs ≠ [] ∧
        (∀ v ∈ vs, v.getLsbD 0 = true) ∧ t.running = s.running ∧ t.freq = s.freq ∧
        t.tree = s.tree ∧ t.err = s.err ∧ t.rsym = s.rsym ∧ t.clen = s.clen ∧ t.chan.sink = s.chan.sink)

/-- R40: a command whose call has no answer does not proceed and keeps `BUSY` = 1, whatever the host does short of
reset. -/
def Obligations.StalledCommandKeepsBusy : Prop :=
  ∀ (s : State) (r : Running), s.running = some r → s.stalled r = true → s.host.port.head? ≠ some .reset →
    ∃ t, step s = .next t ∧ t.running = some r ∧ t.freq = s.freq ∧ t.tree = s.tree ∧ t.err = s.err ∧
      t.rsym = s.rsym ∧ t.clen = s.clen ∧ t.chan.sink = s.chan.sink

/-- R40: a command whose first call is not answered stays in progress with nothing done. That a script without an entry
withholds the answer is the model's choice (log 5). -/
def Obligations.CommandWaitsAtItsFirstCall : Prop :=
  ∀ s : State, s.chan.source = .script [] → s.chan.sinkPlan = .script [] →
    exec .deserialize s = .next { s with running := some (.deserialize Staging.fresh) } ∧
    (∀ r nd, s.tree.root = some r → s.tree.node? r = some nd → nd.leaf = false →
      exec .decode s = .next { s with running := some (.decode r) }) ∧
    (∀ a k c, s.tree.root ≠ none → readLi s.tree.li a = some k → codeword s.tree.nodes k = some c → c ≠ [] →
      exec (.encode a) s = .next { s with running := some (.encode c (BitVec.ofNat 8 c.length)) }) ∧
    (∀ r es, s.tree.root = some r → serEvents s.tree.nodes Config.nodeCap r = some es →
      exec .serialize s = .next { s with running := some (.serialize es) })

/-- R40, R52: a command that has to wait for an answer ends as if it had not.
First clause: whatever the host does short of reset, and wherever the collaborator withholds an answer for a while, an
instruction that would end if no answer were withheld ends in the same state, but for the host side and the counter of
the free values; a DECODE or DESERIALIZE that asks a source for what it does not hold is left out, since its answers are
free values (log 5).
Then what the step of a command does whose answer has come: ENCODE sends the bits that are left and writes the length of
the whole codeword, SERIALIZE sends the events that are left, DECODE goes on from its node, and DESERIALIZE takes the
symbol after the tag 1 it has read.
Last clause: a DECODE with one `hold` entry and a silent host ends at the second step. That a `hold` entry withholds the
answer for exactly one step, and what counts as a step, are the model's choices (log 5, log 11). -/
def Obligations.ResumedCommandEndsAsUninterrupted : Prop :=
  (∀ (s u₀ : State) (i : Instr), (∀ x ∈ s.host.port, x ≠ .reset) → exec i s.unheld = .next u₀ → u₀.running = none →
    (i = .decode ∨ i = .deserialize → u₀.chan.source ≠ .unknown) →
    ∃ n t u, exec i s = .next t ∧ Sys2Proof.core.run n t = .next u ∧
      u.unheld = { u₀ with host := u.host, choice := { u₀.choice with fresh := u.choice.fresh } }) ∧
  (∀ (s : State) (rest : List Bool) (len : Byte) (p : SinkPlan),
    s.running = some (.encode rest len) → rest ≠ [] → s.chan.sinkPlan.accepts rest.length = some p →
    step s = .next { s with
      clen := len, err := 0, running := none,
      chan := { s.chan with sinkPlan := p, sink := s.chan.sink ++ rest.map .bit } }) ∧
  (∀ (s : State) (rest : List Event) (p : SinkPlan),
    s.running = some (.serialize rest) → rest ≠ [] → s.chan.sinkPlan.accepts rest.length = some p →
    step s = .next { s with
      err := 0, running := none,
      chan := { s.chan with sinkPlan := p, sink := s.chan.sink ++ rest } }) ∧
  (∀ (s : State) (k j : NodeIdx) (nd : Node) (d : List Bool) (x : Source), TreeInv s.tree →
    s.running = some (.decode k) → d ≠ [] → followPath s.tree.nodes d k = some j → s.tree.node? j = some nd →
    nd.leaf = true → s.chan.source.gives (d.map .bit) = some x →
    step s = .next { s with
      rsym := nd.sym, err := 0, running := none, chan := { s.chan with source := x } }) ∧
  (∀ (s : State) (st : Staging) (v : Byte) (l : List SrcItem),
    s.running = some (.deserialize st) → st.tag = true → s.chan.source = .script (.byte v :: l) →
    (l = [] ∨ ∃ l', l = .hold :: l') →
    step s = exec (.tsLeaf v) { s with chan := { s.chan with source := .script l } }) ∧
  (∀ (s : State) (c d : List Bool) (v : Byte) (l : List SrcItem),
    TreeInv s.tree → s.running = none → s.host.port = [] → d ≠ [] → s.tree.leafAtPath (c ++ d) v →
    s.chan.source = .script (c.map .bit ++ .hold :: (d.map .bit ++ l)) →
    ∃ t u, exec .decode s = .next t ∧ t.running.isSome = true ∧ t.rsym = s.rsym ∧ step t = .next u ∧
      step u = .next { s with rsym := v, err := 0, chan := { s.chan with source := .script l } })

/-- R27: the state after reset. -/
def Obligations.ResetStateIsAsSpecified : Prop :=
  State.reset.rootv = false ∧ State.reset.tree.nnode = 0 ∧
  (∀ a, readLi State.reset.tree.li a = none) ∧ (∀ a, readFreq State.reset.freq a = 0) ∧
  State.reset.busy = false ∧ State.reset.err = 0 ∧ State.reset.rsym = 0 ∧ State.reset.clen = 0 ∧
  hostRead 0x101 State.reset = 0x2

/-- R130: the reset input gives the registers their reset values, drops a command in progress, and resets neither host
nor collaborator. -/
def Obligations.ResetInputRestoresResetValues : Prop :=
  ∀ (s : State) (l : List HostInput), s.host.port = .reset :: l →
    (s.running = none ∨ ∃ r, s.running = some r ∧ s.stalled r = true) →
    ∃ t, step s = .next t ∧ t.freq = State.reset.freq ∧ t.tree = State.reset.tree ∧ t.err = 0 ∧ t.rsym = 0 ∧
      t.clen = 0 ∧ t.running = none ∧ t.host = { s.host with port := l } ∧ t.chan.sink = s.chan.sink ∧
      (s.running = none → t.chan = s.chan)

/-! ## BUILD -/

/-- R75 and the frame of R70: BUILD completes from every state with `ERR` = 0, makes no channel call, and writes nothing
but the tree state. -/
def Obligations.BuildAlwaysCompletes : Prop :=
  ∀ s : State, ∃ t, exec .build s = .next t ∧ t.err = 0 ∧ t.running = none ∧ t.freq = s.freq ∧ t.rsym = s.rsym ∧
    t.clen = s.clen ∧ t.host = s.host ∧ t.chan = s.chan

/-- R71 (a): an all-zero table gives the empty tree, whatever tree was held. -/
def Obligations.BuildOfZeroTableGivesEmptyTree : Prop :=
  ∀ s : State, (∀ a, readFreq s.freq a = 0) →
    exec .build s = .next { s with tree := TreeState.empty, err := 0, running := none }

/-- R71 (b): one symbol with a nonzero frequency gives a tree of one leaf, which is its root. -/
def Obligations.BuildOfOneSymbolGivesOneLeaf : Prop :=
  ∀ (s : State) (a : Byte), readFreq s.freq a ≠ 0 → (∀ b, b ≠ a → readFreq s.freq b = 0) →
    exec .build s = .next { s with
      tree :=
        { nodes := [{ leaf := true, sym := a, freq := (readFreq s.freq a).setWidth 40, left := 0, right := 0,
                      pv := false, parent := 0 }]
          root := some 0
          li := (Vector.replicate 256 none).set a.toNat (some 0) a.isLt
          nnode := 1 }
      err := 0
      running := none }

/-- R71 (d): of two symbols with equal frequency the lower one gets the codeword 0 and the higher one 1, under every
tie-break. -/
def Obligations.BuildOfTwoEqualSymbolsOrdersThem : Prop :=
  ∀ (s : State) (a b : Byte), a < b → readFreq s.freq a ≠ 0 → readFreq s.freq a = readFreq s.freq b →
    (∀ d, d ≠ a → d ≠ b → readFreq s.freq d = 0) →
    ∃ t, exec .build s = .next t ∧ t.err = 0 ∧ t.tree.shape = some (.node (.leaf a) (.leaf b)) ∧
      t.tree.IsCodeword a [false] ∧ t.tree.IsCodeword b [true]

/-- R74: what every built tree satisfies, for every tie-break. The symbols with a nonzero frequency are listed in
ascending order. -/
def Obligations.BuiltTreeIsAsSpecified : Prop :=
  ∀ (s : State) (syms : List Byte),
    syms = ((List.range 256).map (BitVec.ofNat 8)).filter (fun a => readFreq s.freq a != 0) → syms ≠ [] →
    ∃ t, exec .build s = .next t ∧ t.err = 0 ∧
      t.tree.nodes.length = 2 * syms.length - 1 ∧ t.tree.nnode.toNat = 2 * syms.length - 1 ∧
      t.tree.root = some (BitVec.ofNat 9 (2 * syms.length - 2)) ∧
      (∀ (j : Nat) (a : Byte), syms[j]? = some a →
        (∃ nd, t.tree.nodes[j]? = some nd ∧ nd.leaf = true ∧ nd.sym = a ∧
          nd.freq.toNat = (readFreq s.freq a).toNat) ∧
        readLi t.tree.li a = some (BitVec.ofNat 9 j)) ∧
      (∀ a, readFreq s.freq a = 0 → readLi t.tree.li a = none) ∧
      (∀ (p : Nat) (nd : Node), syms.length ≤ p → t.tree.nodes[p]? = some nd →
        nd.leaf = false ∧ ∃ nl nr, t.tree.node? nd.left = some nl ∧ t.tree.node? nd.right = some nr ∧
          nd.freq.toNat = nl.freq.toNat + nr.freq.toNat ∧ nl.freq.toNat ≤ nr.freq.toNat) ∧
      (∀ (p p' : Nat) (nd nd' : Node), syms.length ≤ p → p ≤ p' → t.tree.nodes[p]? = some nd →
        t.tree.nodes[p']? = some nd' → nd.freq.toNat ≤ nd'.freq.toNat) ∧
      (∃ nd, t.tree.nodes[2 * syms.length - 2]? = some nd ∧
        nd.freq.toNat = (syms.map fun a => (readFreq s.freq a).toNat).sum)

/-- R65, R67: the ordering compares frequencies, and orders equal frequencies only between two leaves, by symbol; it is
irreflexive and transitive; and two nodes are unordered exactly when their frequencies are equal and they are not two
leaves with different symbols. -/
def Obligations.PriorityOrderIsStrictPartial : Prop :=
  ∀ x y z : Node,
    (lt x y = true ↔ (x.freq.toNat < y.freq.toNat ∨
      (x.freq.toNat = y.freq.toNat ∧ x.leaf = true ∧ y.leaf = true ∧ x.sym.toNat < y.sym.toNat))) ∧
    lt x x = false ∧
    (lt x y = true → lt y z = true → lt x z = true) ∧
    ((lt x y = false ∧ lt y x = false) ↔
      (x.freq = y.freq ∧ ¬(x.leaf = true ∧ y.leaf = true ∧ x.sym ≠ y.sym)))

/-- R66, R68: from a queue that is not empty, `extract_min` removes and returns an element that no element goes before,
and every such element is returned under some draw. -/
def Obligations.ExtractMinReturnsAnyMinimalElement : Prop :=
  ∀ b : Build, (∀ k ∈ b.q, k.toNat < b.nodes.length) → b.q ≠ [] →
    (∃ m b', extractMin b = some (m, b')) ∧
    (∀ m b', extractMin b = some (m, b') →
      m ∈ b.q ∧ (∀ x ∈ b.q, before b.nodes x m = false) ∧ b'.q = b.q.erase m ∧ b'.nodes = b.nodes ∧ b'.li = b.li) ∧
    (∀ m ∈ b.q, (∀ x ∈ b.q, before b.nodes x m = false) →
      ∃ d, ∀ ds, ∃ b', extractMin { b with choice := { b.choice with draws := d :: ds } } = some (m, b'))

/-- 95_test_vectors V5: with a tie between a leaf and an internal node, every draw gives one of the two permitted trees,
and each of them is given by some draw. -/
def Obligations.TieAdmitsBothOutcomesAndNoOther : Prop :=
  ∀ f : FreqTable,
    f = (((Vector.replicate 256 (0 : Word)).set 0x61 1).set 0x62 1).set 0x63 2 →
    (∀ c : Choices,
      (buildTree f c).1.shape = some (.node (.leaf 0x63) (.node (.leaf 0x61) (.leaf 0x62))) ∨
      (buildTree f c).1.shape = some (.node (.node (.leaf 0x61) (.leaf 0x62)) (.leaf 0x63))) ∧
    (∃ c, (buildTree f c).1.shape = some (.node (.leaf 0x63) (.node (.leaf 0x61) (.leaf 0x62)))) ∧
    (∃ c, (buildTree f c).1.shape = some (.node (.node (.leaf 0x61) (.leaf 0x62)) (.leaf 0x63)))

/-- R73: for every tie-break, the cost of the tree BUILD leaves is at most the cost of any prefix code for the same
frequencies. -/
def Obligations.BuiltTreeCostIsMinimalAmongPrefixCodes : Prop :=
  ∀ s : State, (∃ a, readFreq s.freq a ≠ 0) →
    ∃ t sh, exec .build s = .next t ∧ t.tree.shape = some sh ∧
      ∀ code : Byte → List Bool,
        (∀ a b, readFreq s.freq a ≠ 0 → readFreq s.freq b ≠ 0 → a ≠ b → ¬ code a <+: code b) →
        sh.cost (fun a => (readFreq s.freq a).toNat) 0 ≤
          (((List.range 256).map (BitVec.ofNat 8)).map fun a => (readFreq s.freq a).toNat * (code a).length).sum

/-- 95_test_vectors Part D 5: every tie-break gives the same cost, and no full binary tree over the same leaves has a
smaller one. -/
def Obligations.BuiltTreeCostIsTheSameForEveryTieBreak : Prop :=
  ∀ (f : FreqTable) (c c' : Choices) (sh sh' : Shape),
    (buildTree f c).1.shape = some sh → (buildTree f c').1.shape = some sh' →
    sh.cost (fun a => (readFreq f a).toNat) 0 = sh'.cost (fun a => (readFreq f a).toNat) 0 ∧
    ∀ u : Shape, u.symbols.Perm sh.symbols →
      sh.cost (fun a => (readFreq f a).toNat) 0 ≤ u.cost (fun a => (readFreq f a).toNat) 0

/-! ## The tree as a code -/

/-- R26, R23 item 7: in a tree that keeps R23 every cell has exactly one path, of at most 255 steps. -/
def Obligations.EveryCellHasOnePath : Prop :=
  ∀ t : TreeState, TreeInv t → ∀ k : NodeIdx, k.toNat < t.nodes.length →
    ∃ c, t.atPath c = some k ∧ c.length ≤ 255 ∧ ∀ d, t.atPath d = some k → d = c

/-- R23 items 2 and 7, R26: a tree that keeps R23 and has a root has a shape; the shape has as many nodes as cells are in
use, at most 255 of them internal, and its leaves are the leaves of the tree. -/
def Obligations.TreeHasItsShape : Prop :=
  ∀ t : TreeState, TreeInv t → t.root ≠ none →
    ∃ sh, t.shape = some sh ∧ sh.size = t.nnode.toNat ∧ sh.size = 2 * sh.symbols.length - 1 ∧ sh.internals ≤ 255 ∧
      ∀ c v, t.leafAtPath c v ↔ sh.sub c = some (.leaf v)

/-- R84: no leaf's codeword is a prefix of another leaf's. -/
def Obligations.CodeIsPrefixFree : Prop :=
  ∀ (t : TreeState) (c d : List Bool) (k j : NodeIdx) (nk nj : Node), TreeInv t →
    t.atPath c = some k → t.node? k = some nk → nk.leaf = true →
    t.atPath d = some j → t.node? j = some nj → nj.leaf = true → k ≠ j → ¬ c <+: d

/-- R90: every bit sequence that is long enough begins with the path of exactly one leaf. -/
def Obligations.LongBitSequenceBeginsWithOneCodeword : Prop :=
  ∀ (t : TreeState) (w : List Bool), TreeInv t → t.root ≠ none → 255 ≤ w.length →
    ∃ c v, c <+: w ∧ t.leafAtPath c v ∧ ∀ d u, d <+: w → t.leafAtPath d u → d = c ∧ u = v

/-! ## ENCODE -/

/-- R81, R58: with a sink that accepts the bits, ENCODE sends the codeword root end first, writes its length to `CLEN`,
and changes nothing else but `ERR`. -/
def Obligations.EncodeSendsTheCodeword : Prop :=
  ∀ (s : State) (a : Byte) (c : List Bool) (p : SinkPlan),
    TreeInv s.tree → s.tree.IsCodeword a c → s.chan.sinkPlan.accepts c.length = some p →
    exec (.encode a) s = .next { s with
      clen := BitVec.ofNat 8 c.length, err := 0, running := none,
      chan := { s.chan with sinkPlan := p, sink := s.chan.sink ++ c.map .bit } } ∧
    (BitVec.ofNat 8 c.length).toNat = c.length

/-- R82 (c), R110: a symbol without a leaf, in a tree with a root, is `NotFound`; nothing is sent and nothing changes but
`ERR`. -/
def Obligations.EncodeOfUnknownSymbolIsNotFound : Prop :=
  ∀ (s : State) (a : Byte), s.tree.root ≠ none → readLi s.tree.li a = none →
    exec (.encode a) s = .next { s with err := 2, running := none }

/-- R82 (a), R89 (b), R96 (a): on the empty tree ENCODE and DECODE end with `EmptyTree` and make no call, whatever the
symbol; SERIALIZE succeeds and emits nothing. -/
def Obligations.CommandsOnTheEmptyTree : Prop :=
  ∀ (s : State) (a : Byte), s.tree.root = none →
    exec (.encode a) s = .next { s with err := 3, running := none } ∧
    exec .decode s = .next { s with err := 3, running := none } ∧
    exec .serialize s = .next { s with err := 0, running := none }

/-- R82 (b), R89 (a): on the degenerate tree ENCODE of its symbol sends nothing and DECODE reads nothing. -/
def Obligations.DegenerateTreeUsesNoBits : Prop :=
  ∀ (s : State) (r : NodeIdx) (nd : Node), TreeInv s.tree →
    s.tree.root = some r → s.tree.node? r = some nd → nd.leaf = true →
    exec (.encode nd.sym) s = .next { s with clen := 0, err := 0, running := none } ∧
    exec .decode s = .next { s with rsym := nd.sym, err := 0, running := none }

/-! ## DECODE -/

/-- R88, R90: DECODE consumes exactly the path of a leaf, returns its symbol in `RSYM`, and changes nothing else but
`ERR`. -/
def Obligations.DecodeReadsOneCodeword : Prop :=
  ∀ (s : State) (c : List Bool) (v : Byte) (x : Source),
    TreeInv s.tree → s.tree.leafAtPath c v → s.chan.source.gives (c.map .bit) = some x →
    exec .decode s = .next { s with rsym := v, err := 0, running := none, chan := { s.chan with source := x } }

/-- R89 (c), (d): when the source ends or fails inside a codeword, DECODE ends with `SourceExhausted` or `IoFailure`; the
bits read stay consumed and `RSYM` keeps its value. -/
def Obligations.DecodeReportsSourceFailure : Prop :=
  ∀ (s : State) (c : List Bool) (k : NodeIdx) (nd : Node) (kind : ErrKind) (x y : Source),
    TreeInv s.tree → s.tree.atPath c = some k → s.tree.node? k = some nd → nd.leaf = false →
    s.chan.source.gives (c.map .bit) = some x → x.fails kind = some y →
    exec .decode s = .next { s with err := kind.code, running := none, chan := { s.chan with source := y } }

/-- R91: a symbol that was encoded is decoded, from exactly the bits that were sent. -/
def Obligations.DecodeOfEncodeGivesTheSymbol : Prop :=
  ∀ (s t : State) (a : Byte), TreeInv s.tree → exec (.encode a) s = .next t → t.running = none → t.err = 0 →
    ∃ c : List Bool, t.chan.sink = s.chan.sink ++ c.map .bit ∧ t.clen.toNat = c.length ∧
      ∀ y x : Source, y.gives (c.map .bit) = some x →
        exec .decode { t with chan := { t.chan with source := y } } =
          .next { t with rsym := a, err := 0, chan := { t.chan with source := x } }

/-! ## SERIALIZE -/

/-- R95, R97: with a sink that accepts them, SERIALIZE sends the events `S(shape(ROOT))` and changes nothing else but
`ERR`. -/
def Obligations.SerializeSendsTheTreeStream : Prop :=
  ∀ (s : State) (sh : Shape) (p : SinkPlan),
    s.tree.shape = some sh → s.chan.sinkPlan.accepts sh.stream.length = some p →
    exec .serialize s = .next { s with
      err := 0, running := none,
      chan := { s.chan with sinkPlan := p, sink := s.chan.sink ++ sh.stream } }

/-- R38, R41: when the sink fails after `j` calls of ENCODE or of SERIALIZE, what those calls sent stays sent, `ERR` is
`IoFailure`, and nothing else changes. -/
def Obligations.SinkFailureKeepsWhatWasSent : Prop :=
  ∀ (s : State) (j : Nat) (p p' : SinkPlan), s.chan.sinkPlan.accepts j = some p → p.fails = some p' →
    (∀ (a : Byte) (c : List Bool), TreeInv s.tree → s.tree.IsCodeword a c → j < c.length →
      exec (.encode a) s = .next { s with
        err := 5, running := none,
        chan := { s.chan with sinkPlan := p', sink := s.chan.sink ++ (c.take j).map .bit } }) ∧
    (∀ sh : Shape, s.tree.shape = some sh → j < sh.stream.length →
      exec .serialize s = .next { s with
        err := 5, running := none,
        chan := { s.chan with sinkPlan := p', sink := s.chan.sink ++ sh.stream.take j } })

/-! ## DESERIALIZE and its records -/

/-- R108: DESERIALIZE consumes exactly the stream of a shape with at most 255 internal nodes, and leaves the tree of that
shape, its nodes numbered in post-order (`Shape.cells`) and the leaf index naming, for each symbol, the leaf that comes
last in preorder. -/
def Obligations.DeserializeRebuildsTheTree : Prop :=
  ∀ (s : State) (sh : Shape) (x : Source),
    sh.internals ≤ 255 → s.chan.source.gives sh.stream = some x →
    exec .deserialize s = .next { s with
      tree := sh.toTree, err := 0, running := none, chan := { s.chan with source := x } } ∧
    sh.toTree.shape = some sh ∧
    ∀ a c, sh.toTree.IsCodeword a c ↔
      (sh.sub c = some (.leaf a) ∧
        ∀ d, sh.sub d = some (.leaf a) →
          d = c ∨ ∃ p u w, d = p ++ false :: u ∧ c = p ++ true :: w)

/-- R23, R106: the tree DESERIALIZE leaves for a shape keeps R23, has as many cells as the shape has nodes, and every
`freq` field in it is 0. -/
def Obligations.DeserializedTreeKeepsInvariant : Prop :=
  ∀ sh : Shape, sh.internals ≤ 255 →
    TreeInv sh.toTree ∧ sh.toTree.nodes.length = 2 * sh.symbols.length - 1 ∧
    ∀ (k : Nat) (nd : Node), sh.toTree.nodes[k]? = some nd → nd.freq = 0

/-- R103 (b), (c), R19: when the source ends or fails inside a tree stream, DESERIALIZE ends with `SourceExhausted` or
`IoFailure`, and the old tree is kept. Second clause (R43): the reference adapter with fewer than 8 bits left where a
symbol is due answers `exhausted`, and those bits stay in the source. -/
def Obligations.DeserializeOfTruncatedStreamKeepsTree : Prop :=
  (∀ (s : State) (sh : Shape) (es rest : List Event) (kind : ErrKind) (x y : Source),
    sh.internals ≤ 255 → sh.stream = es ++ rest → rest ≠ [] →
    s.chan.source.gives es = some x → x.fails kind = some y →
    exec .deserialize s = .next { s with err := kind.code, running := none, chan := { s.chan with source := y } }) ∧
  (∀ (s : State) (sh : Shape) (es rest : List Event) (v : Byte) (bits : List Bool),
    sh.internals ≤ 255 → sh.stream = es ++ .byte v :: rest →
    s.chan.source.gives es = some (.adapter bits) → bits.length < 8 →
    exec .deserialize s = .next { s with err := 4, running := none, chan := { s.chan with source := .adapter bits } })

/-- R105: the tag bit of the 256th internal record ends DESERIALIZE with `CapacityExceeded`; the bits consumed are those
up to and including that tag, and the old tree is kept. -/
def Obligations.DeserializeCapacityExceeded : Prop :=
  ∀ (s : State) (sh : Shape) (es rest : List Event) (x : Source),
    sh.stream = es ++ .bit false :: rest → es.count (.bit false) = 255 →
    s.chan.source.gives (es ++ [.bit false]) = some x →
    exec .deserialize s = .next { s with err := 6, running := none, chan := { s.chan with source := x } }

/-- R19, 95_test_vectors Part D 4: DESERIALIZE either commits a tree that keeps R23 with `ERR` = 0, or leaves the tree
state as it was. -/
def Obligations.DeserializeCommitsOrKeepsTree : Prop :=
  ∀ s : State, ∃ t, exec .deserialize s = .next t ∧
    ((t.running = none ∧ t.err = 0 ∧ TreeInv t.tree ∧ t.tree.root ≠ none) ∨
      (t.tree = s.tree ∧ t.running = none ∧ (t.err = 4 ∨ t.err = 5 ∨ t.err = 6)) ∨
      (t.tree = s.tree ∧ t.err = s.err ∧ ∃ st, t.running = some (.deserialize st)))

/-- R102, R106: a leaf record read by a running DESERIALIZE constructs a leaf with `freq` 0 in the next free cell and
makes the leaf index name it; with nothing pending it is the whole tree, and below a record whose first subtree is due it
is that subtree. -/
def Obligations.LeafRecordConstructsALeaf : Prop :=
  ∀ (s : State) (st : Staging) (v : Byte), s.running = some (.deserialize st) →
    (∃ t nodes li, exec (.tsLeaf v) s = .next t ∧
      ((t.running = none ∧ t.err = 0 ∧ nodes = t.tree.nodes ∧ li = t.tree.li) ∨
        (∃ st', t.running = some (.deserialize st') ∧ t.tree = s.tree ∧ t.err = s.err ∧ nodes = st'.nodes ∧
          li = st'.li ∧ st'.ic = st.ic)) ∧
      (∃ nd, nodes[st.nodes.length]? = some nd ∧ nd.leaf = true ∧ nd.sym = v ∧ nd.freq = 0) ∧
      li = st.li.set v.toNat (some (BitVec.ofNat 9 st.nodes.length)) v.isLt) ∧
    (st.stack = [] →
      exec (.tsLeaf v) s = .next { s with
        tree :=
          { nodes := st.nodes ++ [{ leaf := true, sym := v, freq := 0, left := 0, right := 0, pv := false, parent := 0 }]
            root := some (BitVec.ofNat 9 st.nodes.length)
            li := st.li.set v.toNat (some (BitVec.ofNat 9 st.nodes.length)) v.isLt
            nnode := BitVec.ofNat 10 (st.nodes.length + 1) }
        err := 0
        running := none }) ∧
    (∀ fs, st.stack = .first :: fs →
      exec (.tsLeaf v) s = .next { s with
        running := some (.deserialize
          { nodes := st.nodes ++ [{ leaf := true, sym := v, freq := 0, left := 0, right := 0, pv := false, parent := 0 }]
            li := st.li.set v.toNat (some (BitVec.ofNat 9 st.nodes.length)) v.isLt
            ic := st.ic
            stack := .second (BitVec.ofNat 9 st.nodes.length) :: fs
            tag := false }) })

/-- R102: a leaf record that ends a second-branch subtree constructs the internal node over both subtrees, the first one
first, and sets the parent links of both. -/
def Obligations.LeafRecordClosesAnInternalNode : Prop :=
  ∀ (s : State) (st : Staging) (v : Byte) (l : NodeIdx) (nl : Node), s.running = some (.deserialize st) →
    st.stack = [.second l] → st.nodes[l.toNat]? = some nl → st.nodes.length + 1 < 511 →
    ∃ t nl' nr, exec (.tsLeaf v) s = .next t ∧ t.err = 0 ∧ t.running = none ∧
      t.tree.root = some (BitVec.ofNat 9 (st.nodes.length + 1)) ∧
      t.tree.nodes.length = st.nodes.length + 2 ∧
      t.tree.nodes[st.nodes.length + 1]? = some
        { leaf := false, sym := 0, freq := 0, left := l, right := BitVec.ofNat 9 st.nodes.length, pv := false,
          parent := 0 } ∧
      t.tree.nodes[l.toNat]? = some nl' ∧
      nl' = { nl with pv := true, parent := BitVec.ofNat 9 (st.nodes.length + 1) } ∧
      t.tree.nodes[st.nodes.length]? = some nr ∧
      nr = { leaf := true, sym := v, freq := 0, left := 0, right := 0, pv := true,
             parent := BitVec.ofNat 9 (st.nodes.length + 1) } ∧
      ∀ j : Nat, j ≠ l.toNat → j < st.nodes.length → t.tree.nodes[j]? = st.nodes[j]?

/-- R102, R105: an internal record read by a running DESERIALIZE opens a node whose first-branch subtree follows; the
256th is too many and ends the command with `CapacityExceeded`, the tree unchanged. -/
def Obligations.InternalRecordOpensANode : Prop :=
  ∀ (s : State) (st : Staging), s.running = some (.deserialize st) →
    (st.ic < 255 →
      exec .tsInternal s = .next { s with
        running := some (.deserialize { st with ic := st.ic + 1, stack := .first :: st.stack, tag := false }) }) ∧
    (255 ≤ st.ic → exec .tsInternal s = .next { s with err := 6, running := none })

/-- The frame of the two records: they write nothing but the staged state, the tree state at `commit`, `ERR` and `BUSY`.
That a record outside a running DESERIALIZE changes nothing is the model's choice (log 8). -/
def Obligations.RecordsFrame : Prop :=
  ∀ (s : State) (v : Byte) (i : Instr), (i = .tsLeaf v ∨ i = .tsInternal) →
    ∃ t, exec i s = .next t ∧ t.freq = s.freq ∧ t.rsym = s.rsym ∧ t.clen = s.clen ∧ t.host = s.host ∧
      t.chan = s.chan ∧ t.choice = s.choice ∧
      ((∀ st, s.running ≠ some (.deserialize st)) → t = s)

/-- R107: what SERIALIZE sent, DESERIALIZE reads back into a tree with the same shape, the same `NNODE` and the same
codewords, for every tree that BUILD or DESERIALIZE makes. -/
def Obligations.DeserializeOfSerializeGivesTheTree : Prop :=
  ∀ s t : State,
    ((∃ f c, s.tree = (buildTree f c).1) ∨ (∃ sh : Shape, sh.internals ≤ 255 ∧ s.tree = sh.toTree)) →
    s.tree.root ≠ none → exec .serialize s = .next t → t.running = none → t.err = 0 →
    ∃ es : List Event, t.chan.sink = s.chan.sink ++ es ∧
      ∀ (u : State) (x : Source), u.chan.source.gives es = some x →
        ∃ w, exec .deserialize u = .next w ∧ w.err = 0 ∧ w.running = none ∧ w.chan.source = x ∧
          w.tree.shape = s.tree.shape ∧ w.tree.nnode = s.tree.nnode ∧
          ∀ a, (readLi w.tree.li a).isSome = (readLi s.tree.li a).isSome ∧
            ∀ c, w.tree.IsCodeword a c ↔ s.tree.IsCodeword a c

/-! ## Frames, errors, indistinguishability -/

/-- R80, R94: ENCODE and SERIALIZE leave the tree state, `FREQ`, `RSYM` and the source alone and only append to the sink;
SERIALIZE leaves `CLEN` alone, and so does ENCODE unless it ends with `ERR` = 0. The same of either when it goes on after
a wait. -/
def Obligations.EncodeAndSerializeFrame : Prop :=
  (∀ (s t : State) (i : Instr) (a : Byte), (i = .encode a ∨ i = .serialize) → exec i s = .next t →
    t.freq = s.freq ∧ t.tree = s.tree ∧ t.rsym = s.rsym ∧ t.host = s.host ∧ t.choice = s.choice ∧
    t.chan.source = s.chan.source ∧ s.chan.sink <+: t.chan.sink ∧
    (i = .serialize ∨ t.err ≠ 0 ∨ t.running ≠ none → t.clen = s.clen)) ∧
  (∀ (s t : State) (r : Running) (bits : List Bool) (len : Byte) (es : List Event),
    (r = .encode bits len ∨ r = .serialize es) → resume r s = .next t →
    t.freq = s.freq ∧ t.tree = s.tree ∧ t.rsym = s.rsym ∧ t.host = s.host ∧ t.choice = s.choice ∧
    t.chan.source = s.chan.source ∧ s.chan.sink <+: t.chan.sink ∧
    (r = .serialize es ∨ t.err ≠ 0 ∨ t.running ≠ none → t.clen = s.clen))

/-- R87, R102: DECODE and DESERIALIZE leave `FREQ`, `CLEN` and the sink alone; DECODE leaves the tree state alone, and
`RSYM` too unless it ends with `ERR` = 0; DESERIALIZE leaves `RSYM` alone, and the tree state too unless it ends with
`ERR` = 0. The same of either when it goes on after a wait. -/
def Obligations.DecodeAndDeserializeFrame : Prop :=
  (∀ (s t : State) (i : Instr), (i = .decode ∨ i = .deserialize) → exec i s = .next t →
    t.freq = s.freq ∧ t.clen = s.clen ∧ t.host = s.host ∧ t.chan.sink = s.chan.sink ∧
    t.chan.sinkPlan = s.chan.sinkPlan ∧ t.choice.draws = s.choice.draws ∧
    (i = .decode ∨ t.err ≠ 0 ∨ t.running ≠ none → t.tree = s.tree) ∧
    (i = .deserialize ∨ t.err ≠ 0 ∨ t.running ≠ none → t.rsym = s.rsym)) ∧
  (∀ (s t : State) (r : Running) (k : NodeIdx) (st : Staging),
    (r = .decode k ∨ r = .deserialize st) → resume r s = .next t →
    t.freq = s.freq ∧ t.clen = s.clen ∧ t.host = s.host ∧ t.chan.sink = s.chan.sink ∧
    t.chan.sinkPlan = s.chan.sinkPlan ∧ t.choice.draws = s.choice.draws ∧
    (r = .decode k ∨ t.err ≠ 0 ∨ t.running ≠ none → t.tree = s.tree) ∧
    (r = .deserialize st ∨ t.err ≠ 0 ∨ t.running ≠ none → t.rsym = s.rsym))

/-- R118: which command can end with which code, at once or after a wait. -/
def Obligations.CommandsEndWithTheirOwnCodes : Prop :=
  ∀ (s t : State), t.running = none →
    (∀ v e, decodeCommand v = .error e → acceptCommand v s = .next t → t.err = 1) ∧
    (exec .build s = .next t → t.err = 0) ∧
    (∀ a, exec (.encode a) s = .next t → t.err = 0 ∨ t.err = 2 ∨ t.err = 3 ∨ t.err = 5) ∧
    (exec .decode s = .next t → t.err = 0 ∨ t.err = 3 ∨ t.err = 4 ∨ t.err = 5) ∧
    (exec .serialize s = .next t → t.err = 0 ∨ t.err = 5) ∧
    (exec .deserialize s = .next t → t.err = 0 ∨ t.err = 4 ∨ t.err = 5 ∨ t.err = 6) ∧
    (∀ rest len, resume (.encode rest len) s = .next t → t.err = 0 ∨ t.err = 5) ∧
    (∀ k, resume (.decode k) s = .next t → t.err = 0 ∨ t.err = 4 ∨ t.err = 5) ∧
    (∀ rest, resume (.serialize rest) s = .next t → t.err = 0 ∨ t.err = 5) ∧
    (∀ st, resume (.deserialize st) s = .next t → t.err = 0 ∨ t.err = 4 ∨ t.err = 5 ∨ t.err = 6)

/-- R112: `raise` writes `ERR` and clears `BUSY`, and that is all; beyond `ERR`, a failed command changes nothing but what
the collaborator holds, whether it fails at once or after a wait. -/
def Obligations.FailedCommandChangesOnlyErr : Prop :=
  (∀ (s : State) (e : ErrKind), s.raise e = { s with err := e.code, running := none }) ∧
  (∀ (s t : State) (i : Instr), exec i s = .next t → t.running = none → t.err ≠ 0 →
    t.freq = s.freq ∧ t.tree = s.tree ∧ t.rsym = s.rsym ∧ t.clen = s.clen ∧ t.host = s.host ∧
    s.chan.sink <+: t.chan.sink) ∧
  (∀ (s t : State) (r : Running), resume r s = .next t → t.running = none → t.err ≠ 0 →
    t.freq = s.freq ∧ t.tree = s.tree ∧ t.rsym = s.rsym ∧ t.clen = s.clen ∧ t.host = s.host ∧
    s.chan.sink <+: t.chan.sink) ∧
  (∀ (s : State) (v : Word) (e : DecodeError), decodeCommand v = .error e →
    acceptCommand v s = .next { s with err := 1, running := none })

/-- R113: `ERR` is not sticky: a command that ends, at once or after a wait, leaves the same state whatever `ERR` held
before. -/
def Obligations.ErrIsNotSticky : Prop :=
  (∀ (s t : State) (i : Instr) (e : BitVec 3) (a : Byte),
    (i = .build ∨ i = .encode a ∨ i = .decode ∨ i = .serialize ∨ i = .deserialize) →
    exec i s = .next t → t.running = none → exec i { s with err := e } = .next t) ∧
  (∀ (s t : State) (r : Running) (e : BitVec 3),
    resume r s = .next t → t.running = none → resume r { s with err := e } = .next t)

/-- R26: two tree states with the same shape and the same codewords cannot be told apart by ENCODE, DECODE or
SERIALIZE, nor by the registers the host reads. -/
def Obligations.SameShapeAndCodewordsAreIndistinguishable : Prop :=
  ∀ (s t : State) (i : Instr) (a : Byte), TreeInv s.tree → TreeInv t.tree →
    s.tree.shape = t.tree.shape → (∀ b c, s.tree.IsCodeword b c ↔ t.tree.IsCodeword b c) →
    t = { s with tree := t.tree } → (i = .encode a ∨ i = .decode ∨ i = .serialize) →
    (∀ ra, hostRead ra s = hostRead ra t) ∧
    ∃ s' t', exec i s = .next s' ∧ exec i t = .next t' ∧ s'.chan = t'.chan ∧ s'.err = t'.err ∧
      s'.rsym = t'.rsym ∧ s'.clen = t'.clen ∧ s'.busy = t'.busy ∧ ∀ ra, hostRead ra s' = hostRead ra t'

/-! ## The invariant -/

/-- R23: the reset state keeps the invariant. -/
def Obligations.ResetKeepsInvariant : Prop := Inv State.reset

/-- R23, R19, R110: every step from a state that keeps the invariant leads to one that keeps it. -/
def Obligations.EveryStepKeepsInvariant : Prop :=
  ∀ s t : State, Inv s → step s = .next t → Inv t

/-- 93_implementation_defined ("nothing in the block is undefined behaviour"): from a state that keeps the invariant a
step always answers a next state. -/
def Obligations.EveryStepFromInvariantAnswersNext : Prop :=
  ∀ s : State, Inv s → ∃ t, step s = .next t
end

