-- ==== Sys2Proof/Laws/State.lean ====
section
/-! SUPPORT. One lemma per field of the state per update. -/

namespace Sys2Proof.Machine.State

@[simp] theorem setFreq_freq (s : State) (a : Byte) (v : Word) : (s.setFreq a v).freq = s.freq.set a.toNat v a.isLt := rfl
@[simp] theorem setFreq_tree (s : State) (a : Byte) (v : Word) : (s.setFreq a v).tree = s.tree := rfl
@[simp] theorem setFreq_err (s : State) (a : Byte) (v : Word) : (s.setFreq a v).err = s.err := rfl
@[simp] theorem setFreq_rsym (s : State) (a : Byte) (v : Word) : (s.setFreq a v).rsym = s.rsym := rfl
@[simp] theorem setFreq_clen (s : State) (a : Byte) (v : Word) : (s.setFreq a v).clen = s.clen := rfl
@[simp] theorem setFreq_running (s : State) (a : Byte) (v : Word) : (s.setFreq a v).running = s.running := rfl
@[simp] theorem setFreq_host (s : State) (a : Byte) (v : Word) : (s.setFreq a v).host = s.host := rfl
@[simp] theorem setFreq_chan (s : State) (a : Byte) (v : Word) : (s.setFreq a v).chan = s.chan := rfl
@[simp] theorem setFreq_choice (s : State) (a : Byte) (v : Word) : (s.setFreq a v).choice = s.choice := rfl

@[simp] theorem commit_freq (s : State) (t : TreeState) : (s.commit t).freq = s.freq := rfl
@[simp] theorem commit_tree (s : State) (t : TreeState) : (s.commit t).tree = t := rfl
@[simp] theorem commit_err (s : State) (t : TreeState) : (s.commit t).err = s.err := rfl
@[simp] theorem commit_rsym (s : State) (t : TreeState) : (s.commit t).rsym = s.rsym := rfl
@[simp] theorem commit_clen (s : State) (t : TreeState) : (s.commit t).clen = s.clen := rfl
@[simp] theorem commit_running (s : State) (t : TreeState) : (s.commit t).running = s.running := rfl
@[simp] theorem commit_host (s : State) (t : TreeState) : (s.commit t).host = s.host := rfl
@[simp] theorem commit_chan (s : State) (t : TreeState) : (s.commit t).chan = s.chan := rfl
@[simp] theorem commit_choice (s : State) (t : TreeState) : (s.commit t).choice = s.choice := rfl

@[simp] theorem setRsym_freq (s : State) (v : Byte) : (s.setRsym v).freq = s.freq := rfl
@[simp] theorem setRsym_tree (s : State) (v : Byte) : (s.setRsym v).tree = s.tree := rfl
@[simp] theorem setRsym_err (s : State) (v : Byte) : (s.setRsym v).err = s.err := rfl
@[simp] theorem setRsym_rsym (s : State) (v : Byte) : (s.setRsym v).rsym = v := rfl
@[simp] theorem setRsym_clen (s : State) (v : Byte) : (s.setRsym v).clen = s.clen := rfl
@[simp] theorem setRsym_running (s : State) (v : Byte) : (s.setRsym v).running = s.running := rfl
@[simp] theorem setRsym_host (s : State) (v : Byte) : (s.setRsym v).host = s.host := rfl
@[simp] theorem setRsym_chan (s : State) (v : Byte) : (s.setRsym v).chan = s.chan := rfl
@[simp] theorem setRsym_choice (s : State) (v : Byte) : (s.setRsym v).choice = s.choice := rfl

@[simp] theorem setClen_freq (s : State) (n : Byte) : (s.setClen n).freq = s.freq := rfl
@[simp] theorem setClen_tree (s : State) (n : Byte) : (s.setClen n).tree = s.tree := rfl
@[simp] theorem setClen_err (s : State) (n : Byte) : (s.setClen n).err = s.err := rfl
@[simp] theorem setClen_rsym (s : State) (n : Byte) : (s.setClen n).rsym = s.rsym := rfl
@[simp] theorem setClen_clen (s : State) (n : Byte) : (s.setClen n).clen = n := rfl
@[simp] theorem setClen_running (s : State) (n : Byte) : (s.setClen n).running = s.running := rfl
@[simp] theorem setClen_host (s : State) (n : Byte) : (s.setClen n).host = s.host := rfl
@[simp] theorem setClen_chan (s : State) (n : Byte) : (s.setClen n).chan = s.chan := rfl
@[simp] theorem setClen_choice (s : State) (n : Byte) : (s.setClen n).choice = s.choice := rfl

@[simp] theorem setChoice_freq (s : State) (c : Choices) : (s.setChoice c).freq = s.freq := rfl
@[simp] theorem setChoice_tree (s : State) (c : Choices) : (s.setChoice c).tree = s.tree := rfl
@[simp] theorem setChoice_err (s : State) (c : Choices) : (s.setChoice c).err = s.err := rfl
@[simp] theorem setChoice_rsym (s : State) (c : Choices) : (s.setChoice c).rsym = s.rsym := rfl
@[simp] theorem setChoice_clen (s : State) (c : Choices) : (s.setChoice c).clen = s.clen := rfl
@[simp] theorem setChoice_running (s : State) (c : Choices) : (s.setChoice c).running = s.running := rfl
@[simp] theorem setChoice_host (s : State) (c : Choices) : (s.setChoice c).host = s.host := rfl
@[simp] theorem setChoice_chan (s : State) (c : Choices) : (s.setChoice c).chan = s.chan := rfl
@[simp] theorem setChoice_choice (s : State) (c : Choices) : (s.setChoice c).choice = c := rfl

@[simp] theorem setRunning_freq (s : State) (r : Running) : (s.setRunning r).freq = s.freq := rfl
@[simp] theorem setRunning_tree (s : State) (r : Running) : (s.setRunning r).tree = s.tree := rfl
@[simp] theorem setRunning_err (s : State) (r : Running) : (s.setRunning r).err = s.err := rfl
@[simp] theorem setRunning_rsym (s : State) (r : Running) : (s.setRunning r).rsym = s.rsym := rfl
@[simp] theorem setRunning_clen (s : State) (r : Running) : (s.setRunning r).clen = s.clen := rfl
@[simp] theorem setRunning_running (s : State) (r : Running) : (s.setRunning r).running = some r := rfl
@[simp] theorem setRunning_host (s : State) (r : Running) : (s.setRunning r).host = s.host := rfl
@[simp] theorem setRunning_chan (s : State) (r : Running) : (s.setRunning r).chan = s.chan := rfl
@[simp] theorem setRunning_choice (s : State) (r : Running) : (s.setRunning r).choice = s.choice := rfl

@[simp] theorem done_freq (s : State) : (s.done).freq = s.freq := rfl
@[simp] theorem done_tree (s : State) : (s.done).tree = s.tree := rfl
@[simp] theorem done_err (s : State) : (s.done).err = 0 := rfl
@[simp] theorem done_rsym (s : State) : (s.done).rsym = s.rsym := rfl
@[simp] theorem done_clen (s : State) : (s.done).clen = s.clen := rfl
@[simp] theorem done_running (s : State) : (s.done).running = none := rfl
@[simp] theorem done_host (s : State) : (s.done).host = s.host := rfl
@[simp] theorem done_chan (s : State) : (s.done).chan = s.chan := rfl
@[simp] theorem done_choice (s : State) : (s.done).choice = s.choice := rfl

@[simp] theorem raise_freq (s : State) (e : ErrKind) : (s.raise e).freq = s.freq := rfl
@[simp] theorem raise_tree (s : State) (e : ErrKind) : (s.raise e).tree = s.tree := rfl
@[simp] theorem raise_err (s : State) (e : ErrKind) : (s.raise e).err = e.code := rfl
@[simp] theorem raise_rsym (s : State) (e : ErrKind) : (s.raise e).rsym = s.rsym := rfl
@[simp] theorem raise_clen (s : State) (e : ErrKind) : (s.raise e).clen = s.clen := rfl
@[simp] theorem raise_running (s : State) (e : ErrKind) : (s.raise e).running = none := rfl
@[simp] theorem raise_host (s : State) (e : ErrKind) : (s.raise e).host = s.host := rfl
@[simp] theorem raise_chan (s : State) (e : ErrKind) : (s.raise e).chan = s.chan := rfl
@[simp] theorem raise_choice (s : State) (e : ErrKind) : (s.raise e).choice = s.choice := rfl

@[simp] theorem tick_freq (s : State) : (s.tick).freq = s.freq := rfl
@[simp] theorem tick_tree (s : State) : (s.tick).tree = s.tree := rfl
@[simp] theorem tick_err (s : State) : (s.tick).err = s.err := rfl
@[simp] theorem tick_rsym (s : State) : (s.tick).rsym = s.rsym := rfl
@[simp] theorem tick_clen (s : State) : (s.tick).clen = s.clen := rfl
@[simp] theorem tick_running (s : State) : (s.tick).running = s.running := rfl
@[simp] theorem tick_host (s : State) : (s.tick).host = s.host := rfl
@[simp] theorem tick_chan (s : State) : (s.tick).chan = s.chan := rfl
@[simp] theorem tick_choice (s : State) : (s.tick).choice = { s.choice with fresh := s.choice.fresh + 1 } := rfl

@[simp] theorem setSource_freq (s : State) (x : Source) : (s.setSource x).freq = s.freq := rfl
@[simp] theorem setSource_tree (s : State) (x : Source) : (s.setSource x).tree = s.tree := rfl
@[simp] theorem setSource_err (s : State) (x : Source) : (s.setSource x).err = s.err := rfl
@[simp] theorem setSource_rsym (s : State) (x : Source) : (s.setSource x).rsym = s.rsym := rfl
@[simp] theorem setSource_clen (s : State) (x : Source) : (s.setSource x).clen = s.clen := rfl
@[simp] theorem setSource_running (s : State) (x : Source) : (s.setSource x).running = s.running := rfl
@[simp] theorem setSource_host (s : State) (x : Source) : (s.setSource x).host = s.host := rfl
@[simp] theorem setSource_chan (s : State) (x : Source) : (s.setSource x).chan = { s.chan with source := x } := rfl
@[simp] theorem setSource_choice (s : State) (x : Source) : (s.setSource x).choice = s.choice := rfl

@[simp] theorem setSinkPlan_freq (s : State) (x : SinkPlan) : (s.setSinkPlan x).freq = s.freq := rfl
@[simp] theorem setSinkPlan_tree (s : State) (x : SinkPlan) : (s.setSinkPlan x).tree = s.tree := rfl
@[simp] theorem setSinkPlan_err (s : State) (x : SinkPlan) : (s.setSinkPlan x).err = s.err := rfl
@[simp] theorem setSinkPlan_rsym (s : State) (x : SinkPlan) : (s.setSinkPlan x).rsym = s.rsym := rfl
@[simp] theorem setSinkPlan_clen (s : State) (x : SinkPlan) : (s.setSinkPlan x).clen = s.clen := rfl
@[simp] theorem setSinkPlan_running (s : State) (x : SinkPlan) : (s.setSinkPlan x).running = s.running := rfl
@[simp] theorem setSinkPlan_host (s : State) (x : SinkPlan) : (s.setSinkPlan x).host = s.host := rfl
@[simp] theorem setSinkPlan_chan (s : State) (x : SinkPlan) : (s.setSinkPlan x).chan = { s.chan with sinkPlan := x } := rfl
@[simp] theorem setSinkPlan_choice (s : State) (x : SinkPlan) : (s.setSinkPlan x).choice = s.choice := rfl

@[simp] theorem pushSink_freq (s : State) (e : Event) : (s.pushSink e).freq = s.freq := rfl
@[simp] theorem pushSink_tree (s : State) (e : Event) : (s.pushSink e).tree = s.tree := rfl
@[simp] theorem pushSink_err (s : State) (e : Event) : (s.pushSink e).err = s.err := rfl
@[simp] theorem pushSink_rsym (s : State) (e : Event) : (s.pushSink e).rsym = s.rsym := rfl
@[simp] theorem pushSink_clen (s : State) (e : Event) : (s.pushSink e).clen = s.clen := rfl
@[simp] theorem pushSink_running (s : State) (e : Event) : (s.pushSink e).running = s.running := rfl
@[simp] theorem pushSink_host (s : State) (e : Event) : (s.pushSink e).host = s.host := rfl
@[simp] theorem pushSink_chan (s : State) (e : Event) : (s.pushSink e).chan = { s.chan with sink := s.chan.sink ++ [e] } := rfl
@[simp] theorem pushSink_choice (s : State) (e : Event) : (s.pushSink e).choice = s.choice := rfl

@[simp] theorem sinkTook_freq (s : State) (es : List Event) (p : SinkPlan) : (s.sinkTook es p).freq = s.freq := rfl
@[simp] theorem sinkTook_tree (s : State) (es : List Event) (p : SinkPlan) : (s.sinkTook es p).tree = s.tree := rfl
@[simp] theorem sinkTook_err (s : State) (es : List Event) (p : SinkPlan) : (s.sinkTook es p).err = s.err := rfl
@[simp] theorem sinkTook_rsym (s : State) (es : List Event) (p : SinkPlan) : (s.sinkTook es p).rsym = s.rsym := rfl
@[simp] theorem sinkTook_clen (s : State) (es : List Event) (p : SinkPlan) : (s.sinkTook es p).clen = s.clen := rfl
@[simp] theorem sinkTook_running (s : State) (es : List Event) (p : SinkPlan) : (s.sinkTook es p).running = s.running := rfl
@[simp] theorem sinkTook_host (s : State) (es : List Event) (p : SinkPlan) : (s.sinkTook es p).host = s.host := rfl
@[simp] theorem sinkTook_chan (s : State) (es : List Event) (p : SinkPlan) : (s.sinkTook es p).chan = { s.chan with sinkPlan := p, sink := s.chan.sink ++ es } := rfl
@[simp] theorem sinkTook_choice (s : State) (es : List Event) (p : SinkPlan) : (s.sinkTook es p).choice = s.choice := rfl

@[simp] theorem setPort_freq (s : State) (l : List HostInput) : (s.setPort l).freq = s.freq := rfl
@[simp] theorem setPort_tree (s : State) (l : List HostInput) : (s.setPort l).tree = s.tree := rfl
@[simp] theorem setPort_err (s : State) (l : List HostInput) : (s.setPort l).err = s.err := rfl
@[simp] theorem setPort_rsym (s : State) (l : List HostInput) : (s.setPort l).rsym = s.rsym := rfl
@[simp] theorem setPort_clen (s : State) (l : List HostInput) : (s.setPort l).clen = s.clen := rfl
@[simp] theorem setPort_running (s : State) (l : List HostInput) : (s.setPort l).running = s.running := rfl
@[simp] theorem setPort_host (s : State) (l : List HostInput) : (s.setPort l).host = { s.host with port := l } := rfl
@[simp] theorem setPort_chan (s : State) (l : List HostInput) : (s.setPort l).chan = s.chan := rfl
@[simp] theorem setPort_choice (s : State) (l : List HostInput) : (s.setPort l).choice = s.choice := rfl

@[simp] theorem pushReply_freq (s : State) (v : Word) : (s.pushReply v).freq = s.freq := rfl
@[simp] theorem pushReply_tree (s : State) (v : Word) : (s.pushReply v).tree = s.tree := rfl
@[simp] theorem pushReply_err (s : State) (v : Word) : (s.pushReply v).err = s.err := rfl
@[simp] theorem pushReply_rsym (s : State) (v : Word) : (s.pushReply v).rsym = s.rsym := rfl
@[simp] theorem pushReply_clen (s : State) (v : Word) : (s.pushReply v).clen = s.clen := rfl
@[simp] theorem pushReply_running (s : State) (v : Word) : (s.pushReply v).running = s.running := rfl
@[simp] theorem pushReply_host (s : State) (v : Word) : (s.pushReply v).host = { s.host with replies := s.host.replies ++ [v] } := rfl
@[simp] theorem pushReply_chan (s : State) (v : Word) : (s.pushReply v).chan = s.chan := rfl
@[simp] theorem pushReply_choice (s : State) (v : Word) : (s.pushReply v).choice = s.choice := rfl

end Sys2Proof.Machine.State
end

