-- ==== Sys2Proof/Laws/Channels.lean ====
section
/-! SUPPORT. What the channel operations can do: the two source calls, the sink call, sending a list, going on after a
reply. -/

namespace Sys2Proof.Machine

/-! ## The source -/

/-- A source call changes nothing but the source and, for a source of which nothing is known, the counter. -/
theorem srcBit_frame (s : State) : ∃ x n, s.srcBit.2 =
    { s with chan := { s.chan with source := x }, choice := { s.choice with fresh := n } } := by
  unfold State.srcBit
  split <;> exact ⟨_, _, rfl⟩

theorem srcByte_frame (s : State) : ∃ x n, s.srcByte.2 =
    { s with chan := { s.chan with source := x }, choice := { s.choice with fresh := n } } := by
  unfold State.srcByte
  split <;> first
    | exact ⟨_, _, rfl⟩
    | (split <;> exact ⟨_, _, rfl⟩)

/-- `t` is `s` after source calls alone. -/
def SourceOnly (s t : State) : Prop :=
  ∃ x n, t = { s with chan := { s.chan with source := x }, choice := { s.choice with fresh := n } }

theorem SourceOnly.refl (s : State) : SourceOnly s s := ⟨s.chan.source, s.choice.fresh, rfl⟩

theorem SourceOnly.trans {s t u : State} (h : SourceOnly s t) (h' : SourceOnly t u) : SourceOnly s u := by
  obtain ⟨x, n, rfl⟩ := h
  obtain ⟨y, m, rfl⟩ := h'
  exact ⟨y, m, rfl⟩

theorem sourceOnly_srcBit (s : State) : SourceOnly s s.srcBit.2 := srcBit_frame s

theorem sourceOnly_srcByte (s : State) : SourceOnly s s.srcByte.2 := srcByte_frame s

/-- A source about to give a bit answers `SrcBit` with it. -/
theorem srcBit_of_gives {s : State} {b : Bool} {x : Source} (h : s.chan.source.gives1 (.bit b) = some x) :
    s.srcBit = (.got b, s.setSource x) := by
  unfold Source.gives1 at h
  unfold State.srcBit
  split at h <;> simp_all

/-- A source about to give a byte answers `SrcByte` with it. -/
theorem srcByte_of_gives {s : State} {v : Byte} {x : Source} (h : s.chan.source.gives1 (.byte v) = some x) :
    s.srcByte = (.got v, s.setSource x) := by
  unfold Source.gives1 at h
  unfold State.srcByte
  split at h <;> simp_all

/-- The sequence of answers of a source, one event at a time. -/
theorem gives_cons {e : Event} {es : List Event} {x y : Source} :
    x.gives (e :: es) = some y ↔ ∃ z, x.gives1 e = some z ∧ z.gives es = some y := by
  simp only [Source.gives]
  split <;> simp_all

theorem gives_append {es fs : List Event} {x y : Source} :
    x.gives (es ++ fs) = some y ↔ ∃ z, x.gives es = some z ∧ z.gives fs = some y := by
  induction es generalizing x with
  | nil => simp [Source.gives]
  | cons e es ih =>
    simp only [List.cons_append, gives_cons, ih]
    constructor
    · rintro ⟨z, hz, w, hw, hy⟩; exact ⟨w, ⟨z, hz, hw⟩, hy⟩
    · rintro ⟨w, ⟨z, hz, hw⟩, hy⟩; exact ⟨z, hz, w, hw, hy⟩

/-- A script gives the events it was written from, call for call (R39). -/
theorem gives_script (es : List Event) (l : List SrcItem) :
    (Source.script (es.map eventItem ++ l)).gives es = some (.script l) := by
  induction es with
  | nil => rfl
  | cons e es ih => cases e <;> simpa [Source.gives, Source.gives1, eventItem] using ih

/-! ## Going on after a reply -/

/-- The four things `onReply` can do. -/
theorem onReply_cases {α : Type} {r : Reply α × State} {wait : Running}
    {go : α → State → Host.Outcome State Fault Refusal} {o : Host.Outcome State Fault Refusal}
    (h : onReply r wait go = o) :
    (∃ a, r.1 = .got a ∧ o = go a r.2) ∨ (r.1 = .exhausted ∧ o = .next (r.2.raise .sourceExhausted)) ∨
      (r.1 = .ioFail ∧ o = .next (r.2.raise .ioFailure)) ∨ (r.1 = .withheld ∧ o = .next (r.2.setRunning wait)) := by
  subst h
  obtain ⟨r, s⟩ := r
  cases r <;> simp [onReply]

/-- A command whose source call fails raises the kind of the failure. -/
theorem onReply_srcBit_of_fails {s : State} {kind : ErrKind} {y : Source} (h : s.chan.source.fails kind = some y)
    (wait : Running) (go : Bool → State → Host.Outcome State Fault Refusal) :
    onReply s.srcBit wait go = .next ((s.setSource y).raise kind) := by
  unfold Source.fails at h
  split at h <;> cases h
  · simp [onReply, State.srcBit, *]
  · simp [onReply, State.srcBit, State.setSource, *]
    simp [← ‹s.chan.source = _›]
  · simp [onReply, State.srcBit, *]

theorem onReply_srcByte_of_fails {s : State} {kind : ErrKind} {y : Source} (h : s.chan.source.fails kind = some y)
    (wait : Running) (go : Byte → State → Host.Outcome State Fault Refusal) :
    onReply s.srcByte wait go = .next ((s.setSource y).raise kind) := by
  unfold Source.fails at h
  split at h <;> cases h
  · simp [onReply, State.srcByte, *]
  · simp [onReply, State.srcByte, State.setSource, *]
    simp [← ‹s.chan.source = _›]
  · simp [onReply, State.srcByte, *]

/-! ## The sink -/

/-- The three things a sink call can do. -/
theorem sinkCall_cases (e : Event) (s : State) :
    (∃ p, s.sinkCall e = (.ok, s.sinkTook [e] p)) ∨ (∃ p, s.sinkCall e = (.ioFail, s.setSinkPlan p)) ∨
      s.sinkCall e = (.hold, s) := by
  unfold State.sinkCall
  split
  · exact .inl ⟨_, rfl⟩
  · exact .inr (.inl ⟨_, rfl⟩)
  · exact .inr (.inr rfl)
  · exact .inr (.inr rfl)
  · exact .inl ⟨s.chan.sinkPlan, rfl⟩

@[simp] theorem sinkTook_sinkTook (s : State) (es fs : List Event) (p q : SinkPlan) :
    (s.sinkTook es p).sinkTook fs q = s.sinkTook (es ++ fs) q := by
  simp [State.sinkTook]

theorem sinkTook_nil (s : State) : s.sinkTook [] s.chan.sinkPlan = s := by
  simp [State.sinkTook]

theorem sinkCall_of_accepts {s : State} {e : Event} {n : Nat} {p : SinkPlan}
    (h : s.chan.sinkPlan.accepts (n + 1) = some p) :
    ∃ q, s.sinkCall e = (.ok, s.sinkTook [e] q) ∧ q.accepts n = some p := by
  unfold State.sinkCall
  cases hp : s.chan.sinkPlan with
  | adapter =>
    rw [hp] at h
    refine ⟨.adapter, by simp [State.sinkTook, State.pushSink, ← hp], ?_⟩
    cases n <;> simpa [SinkPlan.accepts] using h
  | script l =>
    rw [hp] at h
    match l with
    | .ok :: l => exact ⟨.script l, rfl, by simpa [SinkPlan.accepts] using h⟩
    | .ioFail :: l => simp [SinkPlan.accepts] at h
    | .hold :: l => simp [SinkPlan.accepts] at h
    | [] => simp [SinkPlan.accepts] at h

/-- A sink that accepts all of a list takes it, and the command ends as `fin` says. -/
theorem emit_of_accepts {α : Type} (ev : α → Event) (wait : List α → Running) (fin : State → State) (l : List α)
    (s : State) (p : SinkPlan) (h : s.chan.sinkPlan.accepts l.length = some p) :
    emit ev wait fin l s = fin (s.sinkTook (l.map ev) p) := by
  induction l generalizing s with
  | nil =>
    simp [SinkPlan.accepts] at h
    simp [emit, ← h, sinkTook_nil]
  | cons a l ih =>
    obtain ⟨q, hc, hq⟩ := sinkCall_of_accepts (e := ev a) h
    simp only [emit, hc]
    rw [ih _ (by simpa using hq)]
    simp

/-- A sink that fails after `j` calls of a list keeps what those calls sent. -/
theorem emit_of_fails {α : Type} (ev : α → Event) (wait : List α → Running) (fin : State → State) (l : List α)
    (s : State) (j : Nat) (p p' : SinkPlan) (hj : j < l.length) (h : s.chan.sinkPlan.accepts j = some p)
    (hp : p.fails = some p') :
    emit ev wait fin l s = (s.sinkTook ((l.take j).map ev) p').raise .ioFailure := by
  induction l generalizing s j with
  | nil => simp at hj
  | cons a l ih =>
    cases j with
    | zero =>
      simp only [SinkPlan.accepts, Option.some.injEq] at h
      subst h
      unfold SinkPlan.fails at hp
      split at hp
      · next l' hl =>
        cases hp
        simp [emit, State.sinkCall, hl, State.sinkTook, State.setSinkPlan]
      · cases hp
    | succ j =>
      obtain ⟨q, hc, hq⟩ := sinkCall_of_accepts (e := ev a) h
      simp only [emit, hc]
      rw [ih _ j (by simpa using hj) (by simpa using hq)]
      simp

/-- Everything `emit` can do: a first part of the list has been sent, and the command has ended as `fin` says with all
of it sent, or failed, or waits with the rest still to be sent. -/
theorem emit_cases {α : Type} (ev : α → Event) (wait : List α → Running) (fin : State → State) (l : List α)
    (s : State) :
    ∃ sent rest p, l = sent ++ rest ∧
      ((rest = [] ∧ emit ev wait fin l s = fin (s.sinkTook (sent.map ev) p)) ∨
        (rest ≠ [] ∧ emit ev wait fin l s = (s.sinkTook (sent.map ev) p).raise .ioFailure) ∨
        (rest ≠ [] ∧ emit ev wait fin l s = (s.sinkTook (sent.map ev) p).setRunning (wait rest))) := by
  induction l generalizing s with
  | nil => exact ⟨[], [], s.chan.sinkPlan, rfl, .inl ⟨rfl, by simp [emit, sinkTook_nil]⟩⟩
  | cons a l ih =>
    obtain ⟨p, hc⟩ | ⟨p, hc⟩ | hc := sinkCall_cases (ev a) s
    · obtain ⟨sent, rest, q, rfl, h⟩ := ih (s.sinkTook [ev a] p)
      refine ⟨a :: sent, rest, q, rfl, ?_⟩
      simpa [emit, hc] using h
    · refine ⟨[], a :: l, p, rfl, .inr (.inl ⟨by simp, ?_⟩)⟩
      simp [emit, hc, State.sinkTook, State.setSinkPlan]
    · refine ⟨[], a :: l, s.chan.sinkPlan, rfl, .inr (.inr ⟨by simp, ?_⟩)⟩
      simp [emit, hc, sinkTook_nil]

end Sys2Proof.Machine
end

