-- ==== Sys2Proof/Laws/Encoding.lean ====
section
/-! SUPPORT. The fields of a command word and the word of its fields. -/

namespace Sys2Proof

/-- The fields of the word made from an operation and an operand (R50). -/
theorem commandFields_commandWord : ∀ (op : BitVec 3) (sym : Byte),
    commandFields (commandWord op sym) = { high := 0, rsv := 0, op := op, sym := sym } := by
  decide +kernel

/-- A word whose reserved fields are 0 is the word of its operation and operand (R50). -/
theorem commandWord_of_fields (v : Word) (hh : (commandFields v).high = 0) (hr : (commandFields v).rsv = 0) :
    v = commandWord (commandFields v).op (commandFields v).sym := by
  have h : v = (commandFields v).high ++ (commandFields v).rsv ++ (commandFields v).op ++ (commandFields v).sym := by
    simp only [commandFields]
    apply BitVec.eq_of_getLsbD_eq
    intro i hi
    simp only [BitVec.getLsbD_append, BitVec.getLsbD_extractLsb']
    grind
  rw [hh, hr] at h
  exact h

end Sys2Proof
end

