-- ==== Sys2Proof/Laws/Forest.lean ====
section
/-! SUPPORT. The node store: what constructing a leaf or joining two nodes does to the cells, to a forest, and to the
leaf index. -/

namespace Sys2Proof.Machine

/-! ## Indices -/

theorem idx_toNat {n : Nat} (h : n < 512) : (idx n).toNat = n := by
  simp [idx, BitVec.toNat_ofNat, Nat.mod_eq_of_lt h]

@[simp] theorem idx_of_toNat (k : NodeIdx) : idx k.toNat = k := by
  simp [idx]

theorem idx_inj {m n : Nat} (hm : m < 512) (hn : n < 512) : idx m = idx n ↔ m = n := by
  constructor
  · intro h
    have := congrArg BitVec.toNat h
    rwa [idx_toNat hm, idx_toNat hn] at this
  · rintro rfl; rfl

theorem idx_eq_iff {n : Nat} (hn : n < 512) (k : NodeIdx) : idx n = k ↔ n = k.toNat := by
  rw [← idx_of_toNat k, idx_inj hn k.isLt, idx_of_toNat]

/-! ## Cells after an update -/

theorem lt_of_getElem? {nodes : List Node} {k : Nat} {nd : Node} (h : nodes[k]? = some nd) : k < nodes.length :=
  (List.getElem?_eq_some_iff.mp h).1

/-- A node that has got a parent. -/
def adopted (p : NodeIdx) (nd : Node) : Node := { nd with pv := true, parent := p }

@[simp] theorem adopt_length (p k : NodeIdx) (nodes : List Node) : (adopt p k nodes).length = nodes.length := by
  simp [adopt]

theorem adopt_getElem? (p k : NodeIdx) (nodes : List Node) (j : Nat) :
    (adopt p k nodes)[j]? = if j = k.toNat then nodes[j]?.map (adopted p) else nodes[j]? := by
  simp only [adopt, List.getElem?_modify, eq_comm (a := j)]
  split <;> simp
  rfl

@[simp] theorem join_length (f : NodeFreq) (l r : NodeIdx) (nodes : List Node) :
    (join f l r nodes).length = nodes.length + 1 := by
  simp [join]

/-- The cells of a join: the new one last, the children adopted, the others as before. -/
theorem join_getElem? (f : NodeFreq) (l r : NodeIdx) (nodes : List Node) (j : Nat) :
    (join f l r nodes)[j]? =
      if j = nodes.length then some (internalNode f l r)
      else if j = l.toNat ∨ j = r.toNat then nodes[j]?.map (adopted (idx nodes.length)) else nodes[j]? := by
  by_cases hj : j = nodes.length
  · subst hj; simp [join]
  · rw [if_neg hj]
    by_cases hlt : j < nodes.length
    · rw [join, List.getElem?_append_left (by simpa using hlt), adopt_getElem?, adopt_getElem?]
      cases nodes[j]? <;> split_ifs <;> simp_all [adopted]
    · rw [List.getElem?_eq_none (by simp; omega), List.getElem?_eq_none (l := nodes) (by omega)]
      simp

theorem append_getElem?_cases {nodes : List Node} {a nd : Node} {k : Nat} (h : (nodes ++ [a])[k]? = some nd) :
    (k < nodes.length ∧ nodes[k]? = some nd) ∨ (k = nodes.length ∧ nd = a) := by
  rcases Nat.lt_or_ge k nodes.length with hk | hk
  · exact .inl ⟨hk, by rwa [List.getElem?_append_left hk] at h⟩
  · have hk' := lt_of_getElem? h
    simp at hk'
    obtain rfl : k = nodes.length := by omega
    simp at h
    exact .inr ⟨rfl, h.symm⟩

theorem join_getElem?_cases {f : NodeFreq} {l r : NodeIdx} {nodes : List Node} {nd : Node} {k : Nat}
    (h : (join f l r nodes)[k]? = some nd) :
    (k = nodes.length ∧ nd = internalNode f l r) ∨
      (k < nodes.length ∧ ∃ nd0, nodes[k]? = some nd0 ∧
        ((k = l.toNat ∨ k = r.toNat) ∧ nd = adopted (idx nodes.length) nd0 ∨
          (k ≠ l.toNat ∧ k ≠ r.toNat) ∧ nd = nd0)) := by
  rw [join_getElem?] at h
  split_ifs at h with h1 h2
  · exact .inl ⟨h1, by simpa [eq_comm] using h⟩
  · cases h0 : nodes[k]? with
    | none => simp [h0] at h
    | some nd0 =>
      rw [h0] at h
      exact .inr ⟨lt_of_getElem? h0, nd0, rfl, .inl ⟨h2, by simpa [eq_comm] using h⟩⟩
  · exact .inr ⟨lt_of_getElem? h, nd, h, .inr ⟨not_or.mp h2, rfl⟩⟩

/-! ## Counting -/

theorem countLeaves_eq (nodes : List Node) : countLeaves nodes = (nodes.map Node.leaf).count true := by
  induction nodes with
  | nil => rfl
  | cons a l ih =>
    simp only [countLeaves] at ih ⊢
    cases h : a.leaf <;> simp [h, ih]

theorem countInternals_eq (nodes : List Node) : countInternals nodes = (nodes.map Node.leaf).count false := by
  induction nodes with
  | nil => rfl
  | cons a l ih =>
    simp only [countInternals] at ih ⊢
    cases h : a.leaf <;> simp [h, ih]

theorem countLeaves_add_countInternals (nodes : List Node) :
    countLeaves nodes + countInternals nodes = nodes.length := by
  simp only [countLeaves, countInternals]
  induction nodes with
  | nil => rfl
  | cons a l ih => cases h : a.leaf <;> simp [h] <;> omega

theorem adopt_map_leaf (p k : NodeIdx) (nodes : List Node) : (adopt p k nodes).map Node.leaf = nodes.map Node.leaf := by
  apply List.ext_getElem?
  intro j
  rw [List.getElem?_map, List.getElem?_map, adopt_getElem?]
  split <;> simp [Function.comp_def, adopted]

theorem join_countLeaves (f : NodeFreq) (l r : NodeIdx) (nodes : List Node) :
    countLeaves (join f l r nodes) = countLeaves nodes := by
  simp [countLeaves_eq, join, adopt_map_leaf, internalNode]

theorem join_countInternals (f : NodeFreq) (l r : NodeIdx) (nodes : List Node) :
    countInternals (join f l r nodes) = countInternals nodes + 1 := by
  simp [countInternals_eq, join, adopt_map_leaf, internalNode]

theorem leaf_countLeaves (v : Byte) (f : NodeFreq) (nodes : List Node) :
    countLeaves (nodes ++ [leafNode v f]) = countLeaves nodes + 1 := by
  simp [countLeaves_eq, leafNode]

theorem leaf_countInternals (v : Byte) (f : NodeFreq) (nodes : List Node) :
    countInternals (nodes ++ [leafNode v f]) = countInternals nodes := by
  simp [countInternals_eq, leafNode]

/-! ## Forests -/

theorem forest_nil : Forest [] [] where
  cap := by simp
  rootsInUse := by simp
  rootsDistinct := by simp
  rootless := by simp
  children := by simp
  parents := by simp
  count := by simp [countLeaves, countInternals]
  tidy := by simp

theorem forest_perm {nodes : List Node} {roots roots' : List NodeIdx} (h : Forest nodes roots)
    (hp : roots.Perm roots') : Forest nodes roots' where
  cap := h.cap
  rootsInUse r hr := h.rootsInUse r (hp.mem_iff.mpr hr)
  rootsDistinct := hp.nodup_iff.mp h.rootsDistinct
  rootless k nd hk := (h.rootless k nd hk).trans hp.mem_iff
  children := h.children
  parents := h.parents
  count := by rw [h.count, hp.length_eq]
  tidy := h.tidy

/-- A new leaf is one more tree. -/
theorem forest_leaf {nodes : List Node} {roots : List NodeIdx} (h : Forest nodes roots) (v : Byte) (f : NodeFreq)
    (hn : nodes.length < 511) : Forest (nodes ++ [leafNode v f]) (idx nodes.length :: roots) := by
  have hfresh : idx nodes.length ∉ roots := fun hm => by
    have := h.rootsInUse _ hm
    rw [idx_toNat (by omega)] at this
    omega
  have hold : ∀ {k : Nat} {nd : Node}, nodes[k]? = some nd → (nodes ++ [leafNode v f])[k]? = some nd := fun hk => by
    rw [List.getElem?_append_left (lt_of_getElem? hk), hk]
  refine ⟨by simp [Config.nodeCap]; omega, ?_, List.nodup_cons.mpr ⟨hfresh, h.rootsDistinct⟩, ?_, ?_, ?_, ?_, ?_⟩
  · intro r hr
    rcases List.mem_cons.mp hr with rfl | hr
    · rw [idx_toNat (by omega)]; simp
    · have := h.rootsInUse r hr; simp; omega
  · intro k nd hk
    rcases append_getElem?_cases hk with ⟨hlt, hk⟩ | ⟨rfl, rfl⟩
    · rw [h.rootless k nd hk, List.mem_cons, idx_inj (by omega) (by omega)]
      simp [Nat.ne_of_lt hlt]
    · simp [leafNode]
  · intro p nd hp hl
    rcases append_getElem?_cases hp with ⟨hlt, hp⟩ | ⟨rfl, rfl⟩
    · obtain ⟨⟨h1, n1, h2⟩, ⟨h3, n3, h4⟩, h5⟩ := h.children p nd hp hl
      exact ⟨⟨h1, n1, hold h2.1, h2.2⟩, ⟨h3, n3, hold h4.1, h4.2⟩, h5⟩
    · simp [leafNode] at hl
  · intro k nd hk hpv
    rcases append_getElem?_cases hk with ⟨hlt, hk⟩ | ⟨rfl, rfl⟩
    · obtain ⟨p, hp, hrest⟩ := h.parents k nd hk hpv
      exact ⟨p, hold hp, hrest⟩
    · simp [leafNode] at hpv
  · rw [leaf_countLeaves, leaf_countInternals, h.count]; simp; omega
  · intro k nd hk
    rcases append_getElem?_cases hk with ⟨hlt, hk⟩ | ⟨rfl, rfl⟩
    · exact h.tidy k nd hk
    · simp [leafNode]

/-- A join makes one tree of two. -/
theorem forest_join {nodes : List Node} {l r : NodeIdx} {roots : List NodeIdx} (h : Forest nodes (l :: r :: roots))
    (f : NodeFreq) (hn : nodes.length < 511) : Forest (join f l r nodes) (idx nodes.length :: roots) := by
  have hl := h.rootsInUse l (by simp)
  have hr := h.rootsInUse r (by simp)
  have hd := h.rootsDistinct
  simp only [List.nodup_cons, List.mem_cons, not_or] at hd
  obtain ⟨⟨hlr, hlroots⟩, hrroots, hnd⟩ := hd
  have hfresh : idx nodes.length ∉ roots := fun hm => by
    have := h.rootsInUse _ (List.mem_cons_of_mem _ (List.mem_cons_of_mem _ hm))
    rw [idx_toNat (by omega)] at this
    omega
  have hroot : ∀ {k : NodeIdx} {nd : Node}, k = l ∨ k = r → nodes[k.toNat]? = some nd → nd.pv = false := by
    intro k nd hk hnd
    rw [h.rootless _ nd hnd]
    rcases hk with rfl | rfl <;> simp
  have hold : ∀ {k : NodeIdx} {nd : Node}, nodes[k.toNat]? = some nd → nd.pv = true →
      (join f l r nodes)[k.toNat]? = some nd := by
    intro k nd hk hpv
    have hlt := lt_of_getElem? hk
    rw [join_getElem?, if_neg (by omega), if_neg, hk]
    rintro (h' | h')
    · rw [hroot (.inl (BitVec.eq_of_toNat_eq h')) hk] at hpv; simp at hpv
    · rw [hroot (.inr (BitVec.eq_of_toNat_eq h')) hk] at hpv; simp at hpv
  refine ⟨by simp [Config.nodeCap]; omega, ?_, List.nodup_cons.mpr ⟨hfresh, hnd⟩, ?_, ?_, ?_, ?_, ?_⟩
  · intro k hk
    rcases List.mem_cons.mp hk with rfl | hk
    · rw [idx_toNat (by omega)]; simp
    · have := h.rootsInUse k (by simp [hk]); simp; omega
  · intro k nd hk
    rcases join_getElem?_cases hk with ⟨rfl, rfl⟩ | ⟨hlt, nd0, h0, ⟨hc, rfl⟩ | ⟨hc, rfl⟩⟩
    · simp [internalNode]
    · have : idx k = l ∨ idx k = r := by
        rcases hc with rfl | rfl <;> simp
      simp only [adopted, Bool.true_eq_false, List.mem_cons, false_iff, not_or]
      refine ⟨by rw [idx_inj (by omega) (by omega)]; omega, ?_⟩
      rcases this with h' | h' <;> rw [h']
      · exact hlroots
      · exact hrroots
    · rw [h.rootless k nd h0]
      simp only [List.mem_cons]
      rw [idx_eq_iff (by omega), idx_eq_iff (by omega), idx_inj (by omega) (by omega)]
      simp [hc, Nat.ne_of_lt hlt]
  · intro p nd hp hleaf
    rcases join_getElem?_cases hp with ⟨rfl, rfl⟩ | ⟨hlt, nd0, h0, hc⟩
    · have hlink : ∀ {k : NodeIdx}, k = l ∨ k = r → k.toNat < nodes.length →
          LinkedUnder (join f l r nodes) nodes.length k := by
        intro k hk hlt
        refine ⟨hlt, adopted (idx nodes.length) nodes[k.toNat], ?_, rfl, ?_⟩
        · rw [join_getElem?, if_neg (by omega), if_pos (by rcases hk with rfl | rfl <;> simp)]
          simp [hlt]
        · simp [adopted, idx_toNat (show nodes.length < 512 by omega)]
      exact ⟨hlink (.inl rfl) hl, hlink (.inr rfl) hr, hlr⟩
    · have heq : nd.left = nd0.left ∧ nd.right = nd0.right ∧ nd.leaf = nd0.leaf := by
        rcases hc with ⟨-, rfl⟩ | ⟨-, rfl⟩ <;> simp [adopted]
      rw [heq.1, heq.2.1]
      obtain ⟨⟨h1, n1, h2, h2', h2''⟩, ⟨h3, n3, h4, h4', h4''⟩, h5⟩ := h.children p nd0 h0 (heq.2.2 ▸ hleaf)
      exact ⟨⟨h1, n1, hold h2 h2', h2', h2''⟩, ⟨h3, n3, hold h4 h4', h4', h4''⟩, h5⟩
  · intro k nd hk hpv
    rcases join_getElem?_cases hk with ⟨rfl, rfl⟩ | ⟨hlt, nd0, h0, ⟨hc, rfl⟩ | ⟨hc, rfl⟩⟩
    · simp [internalNode] at hpv
    · refine ⟨internalNode f l r, ?_, rfl, ?_⟩
      · rw [join_getElem?, if_pos]
        simp [adopted, idx_toNat (show nodes.length < 512 by omega)]
      · rcases hc with rfl | rfl <;> simp [internalNode]
    · obtain ⟨p, hp, hpl, hpc⟩ := h.parents k nd h0 hpv
      have hlt' := lt_of_getElem? hp
      rw [join_getElem?, if_neg (by omega), hp]
      split_ifs
      · exact ⟨_, rfl, hpl, hpc⟩
      · exact ⟨_, rfl, hpl, hpc⟩
  · rw [join_countLeaves, join_countInternals, h.count]; simp; omega
  · intro k nd hk
    rcases join_getElem?_cases hk with ⟨rfl, rfl⟩ | ⟨hlt, nd0, h0, ⟨hc, rfl⟩ | ⟨hc, rfl⟩⟩
    · simp [internalNode]
    · obtain ⟨t1, t2, -⟩ := h.tidy k nd0 h0
      exact ⟨t1, t2, by simp [adopted]⟩
    · exact h.tidy k nd h0

/-! ## The leaf index -/

theorem readLi_setLi (li : LeafIndex) (a b : Byte) (k : NodeIdx) :
    readLi (setLi li a k) b = if b = a then some k else readLi li b := by
  simp only [readLi, setLi, Vector.getElem_set]
  by_cases h : b = a
  · simp [h]
  · have : ¬ a.toNat = b.toNat := fun h' => h (BitVec.eq_of_toNat_eq h'.symm)
    simp [h, this]

@[simp] theorem readLi_empty (a : Byte) : readLi (Vector.replicate 256 none) a = none := by
  simp [readLi]

theorem indexed_nil : Indexed [] (Vector.replicate 256 none) where
  named := by simp
  complete := by simp

/-- A new leaf registered under its symbol. -/
theorem indexed_leaf {nodes : List Node} {li : LeafIndex} (h : Indexed nodes li) (v : Byte) (f : NodeFreq)
    (hn : nodes.length < 511) : Indexed (nodes ++ [leafNode v f]) (setLi li v (idx nodes.length)) := by
  constructor
  · intro a k hk
    rw [readLi_setLi] at hk
    split_ifs at hk with hav
    · cases hk
      exact ⟨leafNode v f, by rw [idx_toNat (by omega)]; simp, rfl, by simp [leafNode, hav]⟩
    · obtain ⟨nd, hnd, hrest⟩ := h.named a k hk
      exact ⟨nd, by rw [List.getElem?_append_left (lt_of_getElem? hnd), hnd], hrest⟩
  · intro k nd hk hl
    rw [readLi_setLi]
    rcases append_getElem?_cases hk with ⟨hlt, hk⟩ | ⟨rfl, rfl⟩
    · split_ifs
      · rfl
      · exact h.complete k nd hk hl
    · simp [leafNode]

/-- A join constructs no leaf and moves none. -/
theorem indexed_join {nodes : List Node} {li : LeafIndex} (h : Indexed nodes li) (f : NodeFreq) (l r : NodeIdx) :
    Indexed (join f l r nodes) li := by
  constructor
  · intro a k hk
    obtain ⟨nd, hnd, hl, hs⟩ := h.named a k hk
    have hlt := lt_of_getElem? hnd
    rw [join_getElem?, if_neg (by omega), hnd]
    split_ifs
    · exact ⟨_, rfl, hl, hs⟩
    · exact ⟨_, rfl, hl, hs⟩
  · intro k nd hk hl
    rcases join_getElem?_cases hk with ⟨rfl, rfl⟩ | ⟨hlt, nd0, h0, ⟨hc, rfl⟩ | ⟨hc, rfl⟩⟩
    · simp [internalNode] at hl
    · exact h.complete k nd0 h0 hl
    · exact h.complete k nd h0 hl

end Sys2Proof.Machine
end

