-- ==== Sys2Proof/Laws/HostPort.lean ====
section
/-! SUPPORT. What a step can do: with no command in progress, with one that is stalled, with one that goes on. -/

namespace Sys2Proof.Machine

theorem step_of_idle {s : State} (h : s.running = none) : step s = serveIdle s := by
  simp [step, h]

theorem step_of_stalled {s : State} {r : Running} (h : s.running = some r) (hs : s.stalled r = true) :
    step s = .next (serveBusy (s.passHold r)) := by
  simp [step, h, hs]

theorem step_of_answered {s : State} {r : Running} (h : s.running = some r) (hs : s.stalled r = false) :
    step s = resume r s := by
  simp [step, h, hs]

/-- One step of a run. -/
theorem core_run_of_next {s s' : State} (h : step s = .next s') (n : Nat) :
    Sys2Proof.core.run (n + 1) s = Sys2Proof.core.run n s' := by
  have hs : Sys2Proof.core.step s = .next s' := h
  simp only [Host.Core.run, hs]

/-- What is left of a withheld answer: the channel's script is one entry shorter, or the counter one larger. -/
theorem passHold_frame (r : Running) (s : State) : ∃ x p n, s.passHold r =
    { s with chan := { s.chan with source := x, sinkPlan := p }, choice := { s.choice with fresh := n } } := by
  unfold State.passHold
  split <;> first
    | (unfold State.passSinkHold; split <;> exact ⟨_, _, _, rfl⟩)
    | (unfold State.passSourceHold; split <;> exact ⟨_, _, _, rfl⟩)

/-- With a command stalled the host is served with nothing but its own side, and the counter, changed; or the reset
input is asserted (R32, R130). -/
theorem serveBusy_cases (s : State) :
    (∃ hst n, serveBusy s = { s with host := hst, choice := { s.choice with fresh := n } }) ∨
      (∃ l, s.host.port = .reset :: l ∧ serveBusy s = applyReset (s.setPort l)) := by
  unfold serveBusy
  split
  · exact .inl ⟨s.host, s.choice.fresh, rfl⟩
  · exact .inl ⟨_, _, rfl⟩
  · exact .inl ⟨_, s.choice.fresh, rfl⟩
  · exact .inl ⟨_, _, rfl⟩
  · next l h => exact .inr ⟨l, h, rfl⟩

/-- A host write stores at most a `FREQ` entry (R31). -/
theorem hostWrite_frame (ra : RegNum) (v : Word) (s : State) : ∃ f, hostWrite ra v s = { s with freq := f } := by
  unfold hostWrite
  split
  · exact ⟨_, rfl⟩
  · exact ⟨s.freq, rfl⟩

theorem acceptCommand_of_legal {v : Word} {i : Instr} (h : decodeCommand v = .ok i) (s : State) :
    acceptCommand v s = exec i s := by
  simp [acceptCommand, h]

theorem acceptCommand_of_illegal {v : Word} {e : DecodeError} (h : decodeCommand v = .error e) (s : State) :
    acceptCommand v s = .next (s.raise .invalidArgument) := by
  simp [acceptCommand, h]

end Sys2Proof.Machine
end

