-- ==== Sys2Proof/Laws/PerInstr.lean ====
section
/-! SUPPORT. Statements about every instruction as syntax, one lemma per constructor. -/

namespace Sys2Proof.Laws.CodeSize

open Sys2Proof.Machine

/-- The size of an instruction's code: a command word has 16 bits (R50), `TS.LEAF` 9 bits and `TS.INTERNAL` 1 bit
(R56). -/
def Statement (i : Instr) : Prop :=
  match encode i with
  | .command v => v.toNat < 2 ^ 16
  | .record es => (eventBits es).length = if i = .tsInternal then 1 else 9

theorem build : Statement .build := by
  show (commandWord 1 0).toNat < 2 ^ 16
  decide

theorem encode (sym : Byte) : Statement (.encode sym) := by
  have h : ∀ s : Byte, (commandWord 2 s).toNat < 2 ^ 16 := by decide +kernel
  exact h sym

theorem decode : Statement .decode := by
  show (commandWord 3 0).toNat < 2 ^ 16
  decide

theorem serialize : Statement .serialize := by
  show (commandWord 4 0).toNat < 2 ^ 16
  decide

theorem deserialize : Statement .deserialize := by
  show (commandWord 5 0).toNat < 2 ^ 16
  decide

theorem tsLeaf (sym : Byte) : Statement (.tsLeaf sym) := by
  unfold Statement; simp [Sys2Proof.encode, leafRecord, eventBits, byteBits]

theorem tsInternal : Statement .tsInternal := by
  show (eventBits internalRecord).length = 1
  decide

end Sys2Proof.Laws.CodeSize
end

