-- ==== Sys2Proof/Laws/Walks.lean ====
section
/-! SUPPORT. Walking the tree: paths from the root, the walk up of ENCODE, the shape, the events of SERIALIZE. -/

namespace Sys2Proof.Machine

/-! ## Paths -/

theorem followPath_nil_of_lt {nodes : List Node} {k : NodeIdx} (h : k.toNat < nodes.length) :
    followPath nodes [] k = some k := by
  simp [followPath, h]

theorem followPath_lt {nodes : List Node} {c : List Bool} {k j : NodeIdx} (h : followPath nodes c k = some j) :
    j.toNat < nodes.length := by
  induction c generalizing k with
  | nil =>
    simp only [followPath] at h
    split_ifs at h with hk
    cases h; exact hk
  | cons b c ih =>
    simp only [followPath] at h
    split at h
    · simp at h
    · split_ifs at h <;> exact ih h

/-- The first step of a path. -/
theorem followPath_cons {nodes : List Node} {b : Bool} {c : List Bool} {k j : NodeIdx} :
    followPath nodes (b :: c) k = some j ↔
      ∃ nd, nodes[k.toNat]? = some nd ∧ nd.leaf = false ∧
        followPath nodes c (if b then nd.right else nd.left) = some j := by
  simp only [followPath]
  cases hk : nodes[k.toNat]? with
  | none => simp
  | some nd => cases hl : nd.leaf <;> simp [hl]

theorem followPath_append {nodes : List Node} {c d : List Bool} {k j : NodeIdx} :
    followPath nodes (c ++ d) k = some j ↔
      ∃ i, followPath nodes c k = some i ∧ followPath nodes d i = some j := by
  induction c generalizing k with
  | nil =>
    constructor
    · intro h
      have hk : k.toNat < nodes.length := by
        cases d with
        | nil => have := followPath_lt h; simp only [List.nil_append, followPath] at h; split_ifs at h with hk; exact hk
        | cons b d =>
          obtain ⟨nd, hnd, -⟩ := followPath_cons.mp h
          exact lt_of_getElem? hnd
      exact ⟨k, followPath_nil_of_lt hk, h⟩
    · rintro ⟨i, hi, hj⟩
      simp only [followPath] at hi
      split_ifs at hi
      cases hi; exact hj
  | cons b c ih =>
    rw [List.cons_append, followPath_cons]
    constructor
    · rintro ⟨nd, h1, h2, h3⟩
      obtain ⟨i, hi, hj⟩ := ih.mp h3
      exact ⟨i, followPath_cons.mpr ⟨nd, h1, h2, hi⟩, hj⟩
    · rintro ⟨i, hi, hj⟩
      obtain ⟨nd, h1, h2, h3⟩ := followPath_cons.mp hi
      exact ⟨nd, h1, h2, ih.mpr ⟨i, h3, hj⟩⟩

/-- The last step of a path. -/
theorem followPath_concat {nodes : List Node} {c : List Bool} {b : Bool} {k j : NodeIdx} :
    followPath nodes (c ++ [b]) k = some j ↔
      ∃ i nd, followPath nodes c k = some i ∧ nodes[i.toNat]? = some nd ∧ nd.leaf = false ∧
        (if b then nd.right else nd.left) = j ∧ j.toNat < nodes.length := by
  rw [followPath_append]
  constructor
  · rintro ⟨i, hi, hj⟩
    obtain ⟨nd, h1, h2, h3⟩ := followPath_cons.mp hj
    have hlt := followPath_lt h3
    simp only [followPath] at h3
    split_ifs at h3 <;> cases h3 <;> exact ⟨i, nd, hi, h1, h2, by simp [*], hlt⟩
  · rintro ⟨i, nd, hi, h1, h2, h3, hlt⟩
    refine ⟨i, hi, followPath_cons.mpr ⟨nd, h1, h2, ?_⟩⟩
    rw [h3]; exact followPath_nil_of_lt hlt

/-! ## In a forest -/

/-- A child of an internal node, with its links. -/
theorem child_links {nodes : List Node} {roots : List NodeIdx} (h : Forest nodes roots) {p : NodeIdx} {nd : Node}
    (hp : nodes[p.toNat]? = some nd) (hl : nd.leaf = false) (b : Bool) :
    (if b then nd.right else nd.left).toNat < p.toNat ∧
      ∃ nc, nodes[(if b then nd.right else nd.left).toNat]? = some nc ∧ nc.pv = true ∧ nc.parent = p := by
  obtain ⟨⟨h1, n1, h2, h2', h2''⟩, ⟨h3, n3, h4, h4', h4''⟩, -⟩ := h.children _ nd hp hl
  cases b
  · exact ⟨h1, n1, h2, h2', BitVec.eq_of_toNat_eq h2''⟩
  · exact ⟨h3, n3, h4, h4', BitVec.eq_of_toNat_eq h4''⟩

/-- Internal cells up to and including cell `k`. -/
def internalsUpTo (nodes : List Node) (k : Nat) : Nat := countInternals (nodes.take (k + 1))

theorem internalsUpTo_mono {nodes : List Node} {j k : Nat} (h : j ≤ k) :
    internalsUpTo nodes j ≤ internalsUpTo nodes k := by
  simp only [internalsUpTo, countInternals]
  exact ((List.take_prefix_take_left (by omega)).sublist.filter _).length_le

theorem internalsUpTo_le (nodes : List Node) (k : Nat) : internalsUpTo nodes k ≤ countInternals nodes := by
  simp only [internalsUpTo, countInternals]
  exact ((List.take_sublist _ _).filter _).length_le

theorem internalsUpTo_internal {nodes : List Node} {j k : Nat} {nd : Node} (hk : nodes[k]? = some nd)
    (hl : nd.leaf = false) (hj : j < k) : internalsUpTo nodes j + 1 ≤ internalsUpTo nodes k := by
  have hlt := lt_of_getElem? hk
  obtain ⟨k, rfl⟩ : ∃ k', k = k' + 1 := ⟨k - 1, by omega⟩
  refine Nat.le_trans (Nat.succ_le_succ (internalsUpTo_mono (show j ≤ k by omega))) ?_
  simp only [internalsUpTo, countInternals]
  rw [List.take_add_one (i := k + 1), hk]
  simp [hl]

/-- A path is no longer than there are internal nodes to pass. -/
theorem followPath_length {nodes : List Node} {roots : List NodeIdx} (h : Forest nodes roots) {c : List Bool}
    {k j : NodeIdx} (hc : followPath nodes c k = some j) : c.length ≤ internalsUpTo nodes k.toNat := by
  induction c generalizing k with
  | nil => simp
  | cons b c ih =>
    obtain ⟨nd, h1, h2, h3⟩ := followPath_cons.mp hc
    have := internalsUpTo_internal h1 h2 (child_links h h1 h2 b).1
    have := ih h3
    simp only [List.length_cons]; omega

/-- In a single tree no path is longer than 255 steps (R23 item 7). -/
theorem path_length_le {nodes : List Node} {r : NodeIdx} (h : Forest nodes [r]) {c : List Bool} {k j : NodeIdx}
    (hc : followPath nodes c k = some j) : c.length ≤ 255 := by
  have h1 := followPath_length h hc
  have h2 := internalsUpTo_le nodes k.toNat
  have h3 := h.count
  have h4 := countLeaves_add_countInternals nodes
  have h5 := h.cap
  simp only [Config.nodeCap, List.length_singleton] at h3 h5
  omega

/-- ENCODE's walk up retraces a path from the root (R81, R83). -/
theorem walkUp_of_path {nodes : List Node} {r : NodeIdx} (h : Forest nodes [r]) {c : List Bool} {k : NodeIdx}
    (hc : followPath nodes c r = some k) (n : Nat) (hn : c.length < n) (acc : List Bool) :
    walkUp nodes n k acc = some (c ++ acc) := by
  induction c using List.reverseRecOn generalizing k n acc with
  | nil =>
    have hlt := followPath_lt hc
    rw [followPath] at hc
    split_ifs at hc
    cases hc
    obtain ⟨n, rfl⟩ : ∃ m, n = m + 1 := ⟨n - 1, by simp at hn; omega⟩
    have hpv := (h.rootless r.toNat nodes[r.toNat] (by simp [hlt])).mpr (by simp)
    simp [walkUp, hlt, hpv]
  | append_singleton c b ih =>
    obtain ⟨i, nd, hi, h1, h2, h3, hlt⟩ := followPath_concat.mp hc
    obtain ⟨n, rfl⟩ : ∃ m, n = m + 1 := ⟨n - 1, by simp at hn; omega⟩
    obtain ⟨-, nc, hnc, hpv, hpar⟩ := child_links h h1 h2 b
    rw [h3] at hnc
    have hne := (h.children _ nd h1 h2).2.2
    have hbit : (if nd.left = k then false else true) = b := by
      subst h3
      cases b <;> simp [hne]
    simp only [walkUp, hnc, hpv, if_true, hpar, h1, hbit]
    rw [ih hi n (by simp at hn; omega)]
    simp

/-- Every cell of a single tree has a path. -/
theorem exists_path {nodes : List Node} {r : NodeIdx} (h : Forest nodes [r]) {k : NodeIdx}
    (hk : k.toNat < nodes.length) : ∃ c, followPath nodes c r = some k := by
  have hcap := h.cap
  simp only [Config.nodeCap] at hcap
  generalize hm : nodes.length - k.toNat = m
  induction m using Nat.strong_induction_on generalizing k with
  | _ m ih =>
    obtain ⟨nd, hnd⟩ : ∃ nd, nodes[k.toNat]? = some nd := ⟨_, List.getElem?_eq_getElem hk⟩
    by_cases hpv : nd.pv = true
    · obtain ⟨p, hp, hpl, hpc⟩ := h.parents _ nd hnd hpv
      rw [idx_of_toNat] at hpc
      have hch : ∃ b : Bool, (if b then p.right else p.left) = k := by
        rcases hpc with h' | h'
        · exact ⟨false, by simpa using h'⟩
        · exact ⟨true, by simpa using h'⟩
      obtain ⟨b, hb⟩ := hch
      have hlt := (child_links h hp hpl b).1
      rw [hb] at hlt
      have hplt := lt_of_getElem? hp
      obtain ⟨c, hc⟩ := ih (nodes.length - nd.parent.toNat) (by omega) hplt rfl
      exact ⟨c ++ [b], followPath_concat.mpr ⟨nd.parent, p, hc, hp, hpl, hb, hk⟩⟩
    · have := (h.rootless _ nd hnd).mp (by simpa using hpv)
      simp only [idx_of_toNat, List.mem_singleton] at this
      subst this
      exact ⟨[], followPath_nil_of_lt hk⟩

/-- A cell of a single tree has only one path. -/
theorem path_unique {nodes : List Node} {r : NodeIdx} (h : Forest nodes [r]) {c d : List Bool} {k : NodeIdx}
    (hc : followPath nodes c r = some k) (hd : followPath nodes d r = some k) : d = c := by
  have h1 := walkUp_of_path h hc (c.length + d.length + 1) (by omega) []
  have h2 := walkUp_of_path h hd (c.length + d.length + 1) (by omega) []
  rw [h1] at h2
  simpa [eq_comm] using h2

/-! ## Shapes -/

/-- The events of SERIALIZE are those of the shape (R97). -/
theorem serEvents_eq (nodes : List Node) (n : Nat) (k : NodeIdx) :
    serEvents nodes n k = (shapeAt nodes n k).map Shape.stream := by
  induction n generalizing k with
  | zero => rfl
  | succ n ih =>
    simp only [serEvents, shapeAt]
    cases nodes[k.toNat]? with
    | none => rfl
    | some nd =>
      simp only [ih]
      split_ifs
      · rfl
      · cases shapeAt nodes n nd.left <;> cases shapeAt nodes n nd.right <;>
          simp [Shape.stream, internalRecord]

/-- The shape of a leaf, and of an internal node. -/
theorem shapeAt_succ_eq_some {nodes : List Node} {n : Nat} {k : NodeIdx} {sh : Shape} :
    shapeAt nodes (n + 1) k = some sh ↔ ∃ nd, nodes[k.toNat]? = some nd ∧
      ((nd.leaf = true ∧ sh = .leaf nd.sym) ∨
        (nd.leaf = false ∧ ∃ l r, shapeAt nodes n nd.left = some l ∧ shapeAt nodes n nd.right = some r ∧
          sh = .node l r)) := by
  simp only [shapeAt]
  cases hk : nodes[k.toNat]? with
  | none => simp
  | some nd =>
    dsimp only
    constructor
    · intro h
      split_ifs at h with hl
      · cases h; exact ⟨nd, rfl, .inl ⟨hl, rfl⟩⟩
      · split at h
        · next l r h1 h2 => cases h; exact ⟨nd, rfl, .inr ⟨by simpa using hl, l, r, h1, h2, rfl⟩⟩
        · cases h
    · rintro ⟨_, ⟨⟩, ⟨hl, rfl⟩ | ⟨hl, l, r, h1, h2, rfl⟩⟩
      · rw [if_pos hl]
      · rw [if_neg (by simp [hl]), h1, h2]

/-- Every node of a forest has a shape; any bound above its index will do. -/
theorem exists_shapeAt {nodes : List Node} {roots : List NodeIdx} (h : Forest nodes roots) {k : NodeIdx}
    (hk : k.toNat < nodes.length) : ∃ sh, ∀ n, k.toNat < n → shapeAt nodes n k = some sh := by
  generalize hm : k.toNat = m
  induction m using Nat.strong_induction_on generalizing k with
  | _ m ih =>
    obtain ⟨nd, hnd⟩ : ∃ nd, nodes[k.toNat]? = some nd := ⟨_, List.getElem?_eq_getElem hk⟩
    cases hl : nd.leaf
    · have hleft := (child_links h hnd hl false).1
      have hright := (child_links h hnd hl true).1
      simp only [Bool.false_eq_true, if_false, if_true] at hleft hright
      obtain ⟨l, hl'⟩ := ih nd.left.toNat (by omega) (by omega) rfl
      obtain ⟨r, hr'⟩ := ih nd.right.toNat (by omega) (by omega) rfl
      refine ⟨.node l r, fun n hn => ?_⟩
      obtain ⟨n, rfl⟩ : ∃ m', n = m' + 1 := ⟨n - 1, by omega⟩
      exact shapeAt_succ_eq_some.mpr
        ⟨nd, hnd, .inr ⟨hl, l, r, hl' n (by omega), hr' n (by omega), rfl⟩⟩
    · refine ⟨.leaf nd.sym, fun n hn => ?_⟩
      obtain ⟨n, rfl⟩ : ∃ m', n = m' + 1 := ⟨n - 1, by omega⟩
      exact shapeAt_succ_eq_some.mpr ⟨nd, hnd, .inl ⟨hl, rfl⟩⟩

/-- A path in the cells is a path in the shape. -/
theorem sub_shapeAt {nodes : List Node} {n : Nat} {k : NodeIdx} {sh : Shape} (h : shapeAt nodes n k = some sh)
    (c : List Bool) (u : Shape) :
    Shape.sub c sh = some u ↔
      ∃ j, followPath nodes c k = some j ∧ c.length < n ∧ shapeAt nodes (n - c.length) j = some u := by
  induction c generalizing n k sh with
  | nil =>
    cases n with
    | zero => simp [shapeAt] at h
    | succ n =>
      obtain ⟨nd, hnd, -⟩ := shapeAt_succ_eq_some.mp h
      simp [Shape.sub, followPath_nil_of_lt (lt_of_getElem? hnd), h]
  | cons b c ih =>
    cases n with
    | zero => simp [shapeAt] at h
    | succ n =>
      obtain ⟨nd, hnd, ⟨hl, rfl⟩ | ⟨hl, l, r, h1, h2, rfl⟩⟩ := shapeAt_succ_eq_some.mp h
      · simp only [Shape.sub, reduceCtorEq, false_iff, not_exists, not_and]
        intro j hj
        obtain ⟨nd', hnd', hl', -⟩ := followPath_cons.mp hj
        rw [hnd] at hnd'; cases hnd'; rw [hl] at hl'; simp at hl'
      · simp only [Shape.sub]
        rw [ih (n := n) (k := if b then nd.right else nd.left) (by cases b <;> simpa)]
        constructor
        · rintro ⟨j, hj, hlt, hs⟩
          exact ⟨j, followPath_cons.mpr ⟨nd, hnd, hl, hj⟩, by simp; omega, by simpa using hs⟩
        · rintro ⟨j, hj, hlt, hs⟩
          obtain ⟨nd', hnd', -, hj'⟩ := followPath_cons.mp hj
          rw [hnd] at hnd'; cases hnd'
          exact ⟨j, hj', by simp at hlt; omega, by simpa using hs⟩

end Sys2Proof.Machine
end

