-- ==== Sys2Proof/Laws/SymbolDecoder.lean ====
section
/-! SUPPORT. What DECODE's descent can do. -/

namespace Sys2Proof.Machine

/-- Everything the descent can do from a node in use: after source calls alone it has returned the symbol of a leaf, or
raised one of two errors, or is still in progress at a node in use. -/
theorem descendLoop_cases {s : State} {roots : List NodeIdx} (h : Forest s.tree.nodes roots) (n : Nat) {k : NodeIdx}
    (hk : k.toNat < s.tree.nodes.length) :
    ∃ u, SourceOnly s u ∧
      ((∃ v, descendLoop n k s = .next ((u.setRsym v).done)) ∨
        (∃ e, descendLoop n k s = .next (u.raise e) ∧ (e = .sourceExhausted ∨ e = .ioFailure)) ∨
        (∃ j, descendLoop n k s = .next (u.setRunning (.decode j)) ∧ j.toNat < s.tree.nodes.length)) := by
  induction n generalizing k s with
  | zero => exact ⟨s, .refl s, .inr (.inr ⟨k, rfl, hk⟩)⟩
  | succ n ih =>
    obtain ⟨nd, hnd⟩ : ∃ nd, s.tree.nodes[k.toNat]? = some nd := ⟨_, List.getElem?_eq_getElem hk⟩
    simp only [descendLoop, hnd]
    split_ifs with hl
    · exact ⟨s, .refl s, .inl ⟨nd.sym, rfl⟩⟩
    · have hso := sourceOnly_srcBit s
      generalize s.srcBit = r at hso ⊢
      obtain ⟨r, u⟩ := r
      cases r with
      | exhausted => exact ⟨u, hso, .inr (.inl ⟨_, rfl, .inl rfl⟩)⟩
      | ioFail => exact ⟨u, hso, .inr (.inl ⟨_, rfl, .inr rfl⟩)⟩
      | withheld => exact ⟨u, hso, .inr (.inr ⟨k, rfl, hk⟩)⟩
      | got b =>
        have htree : u.tree = s.tree := by obtain ⟨x, m, rfl⟩ := hso; rfl
        have hlt := (child_links h hnd (by simpa using hl) b).1
        obtain ⟨w, hw, hcase⟩ := ih (s := u) (htree ▸ h) (k := if b then nd.right else nd.left)
          (by rw [htree]; omega)
        rw [htree] at hcase
        exact ⟨w, hso.trans hw, hcase⟩

/-- A source that gives the bits of a path leads the descent to the end of the path. -/
theorem descendLoop_path {s : State} {c : List Bool} {k j : NodeIdx} {x : Source}
    (hc : followPath s.tree.nodes c k = some j) (hx : s.chan.source.gives (c.map .bit) = some x) (n : Nat) :
    descendLoop (c.length + n) k s = descendLoop n j (s.setSource x) := by
  induction c generalizing k s with
  | nil =>
    simp only [followPath] at hc
    split_ifs at hc
    cases hc
    simp only [List.map_nil, Source.gives, Option.some.injEq] at hx
    simp [← hx, State.setSource]
  | cons b c ih =>
    obtain ⟨nd, h1, h2, h3⟩ := followPath_cons.mp hc
    obtain ⟨y, hy, hx'⟩ := gives_cons.mp hx
    rw [show (b :: c).length + n = (c.length + n) + 1 by simp; omega]
    simp only [descendLoop, h1, h2, Bool.false_eq_true, if_false, srcBit_of_gives hy, onReply]
    rw [ih (s := s.setSource y) (by simpa using h3) (by simpa using hx')]
    rfl

end Sys2Proof.Machine
end

