-- ==== Sys2Proof/Laws/TreeBuilder.lean ====
section
/-! SUPPORT. The priority ordering, the queue, and BUILD's staged state. -/

namespace Sys2Proof.Machine

/-! ## The ordering (R65) -/

theorem lt_iff (x y : Node) : lt x y = true ↔ (x.freq.toNat < y.freq.toNat ∨
    (x.freq.toNat = y.freq.toNat ∧ x.leaf = true ∧ y.leaf = true ∧ x.sym.toNat < y.sym.toNat)) := by
  simp [lt, BitVec.ult, BitVec.toNat_inj, and_assoc]

/-- A number that a node before another has smaller. -/
def orderKey (x : Node) : Nat := 257 * x.freq.toNat + (if x.leaf then x.sym.toNat else 256)

theorem orderKey_lt {x y : Node} (h : lt x y = true) : orderKey x < orderKey y := by
  have hx := x.sym.isLt
  simp only [orderKey]
  rcases (lt_iff x y).mp h with h | ⟨h1, h2, h3, h4⟩
  · split <;> split <;> omega
  · simp [h1, h2, h3, h4]

/-! ## The queue (R66, R68) -/

theorem exists_least {α : Type} (f : α → Nat) (l : List α) (h : l ≠ []) : ∃ m ∈ l, ∀ x ∈ l, f m ≤ f x := by
  induction l with
  | nil => exact absurd rfl h
  | cons a l ih =>
    by_cases hl : l = []
    · subst hl; exact ⟨a, by simp, by simp⟩
    · obtain ⟨m, hm, hmin⟩ := ih hl
      rcases Nat.le_total (f a) (f m) with hle | hle
      · exact ⟨a, by simp, fun x hx => by
          rcases List.mem_cons.mp hx with rfl | hx
          · exact Nat.le_refl _
          · exact Nat.le_trans hle (hmin x hx)⟩
      · exact ⟨m, by simp [hm], fun x hx => by
          rcases List.mem_cons.mp hx with rfl | hx
          · exact hle
          · exact hmin x hx⟩

theorem mem_minimal {nodes : List Node} {q : List NodeIdx} {m : NodeIdx} :
    m ∈ minimal nodes q ↔ m ∈ q ∧ ∀ x ∈ q, before nodes x m = false := by
  simp [minimal]

/-- The set `M` is never empty when `Q` is not (R68). -/
theorem minimal_ne_nil {nodes : List Node} {q : List NodeIdx} (hq : q ≠ []) : minimal nodes q ≠ [] := by
  let key (k : NodeIdx) : Nat := match nodes[k.toNat]? with
    | some nd => orderKey nd
    | none => 0
  obtain ⟨m, hm, hmin⟩ := exists_least key q hq
  refine List.ne_nil_of_mem (mem_minimal.mpr ⟨hm, fun x hx => ?_⟩)
  have hle := hmin x hx
  by_contra hb
  simp only [Bool.not_eq_false] at hb
  unfold before at hb
  split at hb
  · next nx nm hx' hm' =>
    have := orderKey_lt hb
    simp only [key, hx', hm'] at hle
    omega
  · simp at hb

/-- `choose` returns an element of a set that is not empty, and only draws. -/
theorem choose_some {m : List NodeIdx} (hm : m ≠ []) (c : Choices) : ∃ k c', choose m c = some (k, c') ∧ k ∈ m := by
  match m, hm with
  | [x], _ => exact ⟨x, c, rfl, by simp⟩
  | x :: y :: rest, _ =>
    refine ⟨_, _, rfl, ?_⟩
    have hlt : (draw c).1 % (rest.length + 2) < (x :: y :: rest).length := Nat.mod_lt _ (by omega)
    rw [List.getD_eq_getElem _ _ hlt]
    exact List.getElem_mem hlt

theorem choose_mem {m : List NodeIdx} {c c' : Choices} {k : NodeIdx} (h : choose m c = some (k, c')) : k ∈ m := by
  have hne : m ≠ [] := by rintro rfl; simp [choose] at h
  obtain ⟨k', c'', h', hk⟩ := choose_some hne c
  rw [h] at h'
  cases h'
  exact hk

/-- Everything an extraction does. -/
theorem extractMin_some {b b' : Build} {m : NodeIdx} (h : extractMin b = some (m, b')) :
    m ∈ b.q ∧ (∀ x ∈ b.q, before b.nodes x m = false) ∧ ∃ c, b' = { b with q := b.q.erase m, choice := c } := by
  unfold extractMin at h
  split at h
  · simp at h
  · next m' c hc =>
    cases h
    have := mem_minimal.mp (choose_mem hc)
    exact ⟨this.1, this.2, c, rfl⟩

theorem extractMin_isSome {b : Build} (h : b.q ≠ []) : ∃ m b', extractMin b = some (m, b') := by
  obtain ⟨k, c, hc, -⟩ := choose_some (minimal_ne_nil (nodes := b.nodes) h) b.choice
  exact ⟨k, _, by rw [extractMin, hc]⟩

theorem extractMin_nil {b : Build} (h : b.q = []) : extractMin b = none := by
  simp [extractMin, h, minimal, choose]

/-! ## Step 2 (R70) -/

/-- One turn of step 2 on a queue of two or more: the two nodes extracted, in order, become the children of a new
node. -/
theorem mergeStep_eq {b : Build} (h : 2 ≤ b.q.length) :
    ∃ l r c, l ∈ b.q ∧ (∀ x ∈ b.q, before b.nodes x l = false) ∧
      r ∈ b.q.erase l ∧ (∀ x ∈ b.q.erase l, before b.nodes x r = false) ∧
      mergeStep b =
        { nodes := join (nodeFreq b.nodes l + nodeFreq b.nodes r) l r b.nodes
          li := b.li
          q := (b.q.erase l).erase r ++ [idx b.nodes.length]
          choice := c } := by
  obtain ⟨l, b1, h1⟩ := extractMin_isSome (b := b) (by rintro h'; rw [h'] at h; simp at h)
  obtain ⟨hl, hlm, c1, rfl⟩ := extractMin_some h1
  have hlen := List.length_erase_of_mem hl
  obtain ⟨r, b2, h2⟩ := extractMin_isSome (b := { b with q := b.q.erase l, choice := c1 })
    (by intro h'; simp only at h'; rw [h'] at hlen; simp at hlen; omega)
  obtain ⟨hr, hrm, c2, rfl⟩ := extractMin_some h2
  exact ⟨l, r, c2, hl, hlm, hr, hrm, by simp [mergeStep, h1, h2]⟩

/-- BUILD's staged state is in order: a forest whose roots are the queue. -/
structure BuildInv (b : Build) : Prop where
  forest : Forest b.nodes b.q
  indexed : Indexed b.nodes b.li
  leaves : countLeaves b.nodes ≤ 256

theorem erase_erase_perm {q : List NodeIdx} {l r : NodeIdx} (hl : l ∈ q) (hr : r ∈ q.erase l) :
    q.Perm (l :: r :: (q.erase l).erase r) :=
  (List.perm_cons_erase hl).trans ((List.perm_cons_erase hr).cons l)

theorem mergeStep_inv {b : Build} (h : BuildInv b) (hq : 2 ≤ b.q.length) :
    BuildInv (mergeStep b) ∧ (mergeStep b).q.length + 1 = b.q.length ∧
      (mergeStep b).q.getLast? = some (idx b.nodes.length) ∧
      (mergeStep b).nodes.length = b.nodes.length + 1 := by
  obtain ⟨l, r, c, hl, -, hr, -, heq⟩ := mergeStep_eq hq
  have hperm := erase_erase_perm hl hr
  have hcount := h.forest.count
  have hsum := countLeaves_add_countInternals b.nodes
  have hleaves := h.leaves
  have hlen := hperm.length_eq
  simp only [List.length_cons] at hlen
  rw [heq]
  refine ⟨⟨?_, indexed_join h.indexed _ l r, ?_⟩, ?_, ?_, ?_⟩
  · exact forest_perm (forest_join (forest_perm h.forest hperm) _ (by omega)) (List.perm_append_singleton _ _).symm
  · simp only [join_countLeaves]; exact hleaves
  · simp; omega
  · simp
  · simp

/-- Step 2 ends with one node in the queue, the last one constructed. -/
theorem mergeAll_inv (n : Nat) {b : Build} (h : BuildInv b) (hn : b.q.length ≤ n + 1) (h1 : 1 ≤ b.q.length)
    (hlast : b.q.getLast? = some (idx (b.nodes.length - 1))) :
    BuildInv (mergeAll n b) ∧ (mergeAll n b).q = [idx ((mergeAll n b).nodes.length - 1)] ∧
      (mergeAll n b).nodes.length + 1 = b.nodes.length + b.q.length := by
  have hone : ∀ b : Build, b.q.length ≤ 1 → 1 ≤ b.q.length →
      b.q.getLast? = some (idx (b.nodes.length - 1)) → b.q = [idx (b.nodes.length - 1)] := by
    intro b hle hge hl
    obtain ⟨x, hx⟩ := List.length_eq_one_iff.mp (Nat.le_antisymm hle hge)
    rw [hx] at hl ⊢
    simpa using hl
  induction n generalizing b with
  | zero => exact ⟨h, hone b hn h1 hlast, by simp only [mergeAll]; omega⟩
  | succ n ih =>
    rw [mergeAll]
    split_ifs with hle
    · exact ⟨h, hone b hle h1 hlast, by omega⟩
    · obtain ⟨hinv, hlen, hl, hnodes⟩ := mergeStep_inv h (by omega)
      obtain ⟨i1, i2, i3⟩ := ih hinv (by omega) (by omega) (by rw [hl, hnodes]; simp)
      exact ⟨i1, i2, by omega⟩

/-! ## Step 1 (R70) -/

/-- The symbols of a list that have a nonzero frequency. -/
def nonzero (f : FreqTable) (l : List Byte) : List Byte := l.filter fun a => readFreq f a != 0

/-- The staged state after step 1 over a list of symbols: a leaf for each that has a nonzero frequency, in order. -/
theorem foldl_insertSymbol (f : FreqTable) (l : List Byte) (b : Build) :
    (l.foldl (insertSymbol f) b).nodes = b.nodes ++ (nonzero f l).map (fun a => leafNode a (leafFreq f a)) ∧
    (l.foldl (insertSymbol f) b).q = b.q ++ (List.range (nonzero f l).length).map (fun j => idx (b.nodes.length + j)) ∧
    (l.foldl (insertSymbol f) b).choice = b.choice := by
  induction l generalizing b with
  | nil => simp [nonzero]
  | cons a l ih =>
    rw [List.foldl_cons]
    obtain ⟨h1, h2, h3⟩ := ih (insertSymbol f b a)
    rw [h1, h2, h3]
    by_cases ha : readFreq f a = 0
    · simp [insertSymbol, ha, nonzero]
    · simp only [insertSymbol, ha, if_false, nonzero, List.filter_cons, bne_iff_ne, ne_eq, not_false_eq_true, if_true,
        List.map_cons, List.length_cons, List.range_succ_eq_map, List.map_map, List.append_assoc, List.cons_append,
        List.nil_append, List.length_append, Nat.add_zero, List.length_nil]
      refine ⟨trivial, ?_, trivial⟩
      congr 2
      apply List.map_congr_left
      intro j _
      simp only [Function.comp_apply]
      congr 1; omega

theorem buildInv_leaves (f : FreqTable) (l : List Byte) (b : Build) (h : BuildInv b)
    (hl : b.nodes.length + l.length ≤ 256) : BuildInv (l.foldl (insertSymbol f) b) := by
  induction l generalizing b with
  | nil => exact h
  | cons a l ih =>
    simp only [List.length_cons] at hl
    rw [List.foldl_cons]
    by_cases ha : readFreq f a = 0
    · rw [show insertSymbol f b a = b by simp [insertSymbol, ha]]
      exact ih b h (by omega)
    · refine ih _ ?_ (by rw [insertSymbol, if_neg ha]; simp; omega)
      simp only [insertSymbol, ha, if_false]
      refine ⟨?_, indexed_leaf h.indexed _ _ (by omega), ?_⟩
      · exact forest_perm (forest_leaf h.forest _ _ (by omega)) (List.perm_append_singleton _ _).symm
      · have := countLeaves_add_countInternals b.nodes
        simp only [leaf_countLeaves]; omega

@[simp] theorem allSymbols_length : allSymbols.length = 256 := by simp [allSymbols]

/-- What step 1 leaves. -/
theorem buildLeaves_spec (f : FreqTable) (c : Choices) :
    (buildLeaves f c).nodes = (nonzero f allSymbols).map (fun a => leafNode a (leafFreq f a)) ∧
    (buildLeaves f c).q = (List.range (nonzero f allSymbols).length).map idx ∧
    (buildLeaves f c).choice = c ∧ BuildInv (buildLeaves f c) := by
  obtain ⟨h1, h2, h3⟩ := foldl_insertSymbol f allSymbols
    { nodes := [], li := Vector.replicate 256 none, q := [], choice := c }
  refine ⟨by simpa [buildLeaves] using h1, by simpa [buildLeaves] using h2, h3, ?_⟩
  exact buildInv_leaves f allSymbols _ ⟨forest_nil, indexed_nil, by simp [countLeaves]⟩ (by simp)

/-! ## The tree (R70, R71) -/

/-- With no symbol to code, BUILD's tree is the empty one. -/
theorem buildTree_zero {f : FreqTable} (h : nonzero f allSymbols = []) (c : Choices) :
    buildTree f c = (TreeState.empty, c) := by
  obtain ⟨-, hq, hc, -⟩ := buildLeaves_spec f c
  rw [h] at hq
  simp only [List.length_nil, List.range_zero, List.map_nil] at hq
  have hn : extractMin (buildLeaves f c) = none := extractMin_nil hq
  simp only [buildTree, hq, List.length_nil, mergeAll, hn, hc]

/-- With symbols to code, BUILD's tree is the one step 2 leaves, its root the last node. -/
theorem buildTree_nonzero {f : FreqTable} (h : nonzero f allSymbols ≠ []) (c : Choices) :
    ∃ b : Build, b = mergeAll (buildLeaves f c).q.length (buildLeaves f c) ∧ BuildInv b ∧
      b.q = [idx (b.nodes.length - 1)] ∧ b.nodes.length + 1 = 2 * (nonzero f allSymbols).length ∧
      (buildTree f c).1 =
        { nodes := b.nodes, root := some (idx (b.nodes.length - 1)), li := b.li,
          nnode := BitVec.ofNat 10 b.nodes.length } := by
  obtain ⟨hnodes, hq, -, hinv⟩ := buildLeaves_spec f c
  have hpos : 0 < (nonzero f allSymbols).length := List.length_pos_iff.mpr h
  have hql : (buildLeaves f c).q.length = (nonzero f allSymbols).length := by rw [hq]; simp
  have hnl : (buildLeaves f c).nodes.length = (nonzero f allSymbols).length := by rw [hnodes]; simp
  obtain ⟨h1, h2, h3⟩ := mergeAll_inv (buildLeaves f c).q.length hinv (by omega) (by omega) (by
    rw [hq, hnl, List.getLast?_map, List.getLast?_range, if_neg (by omega)]
    rfl)
  refine ⟨_, rfl, h1, h2, by omega, ?_⟩
  simp only [buildTree]
  obtain ⟨m, b', he⟩ := extractMin_isSome (b := mergeAll (buildLeaves f c).q.length (buildLeaves f c))
    (by rw [h2]; simp)
  obtain ⟨hm, -, c', rfl⟩ := extractMin_some he
  rw [h2, List.mem_singleton] at hm
  rw [he, hm]

/-- BUILD's tree keeps R23. -/
theorem buildTree_inv (f : FreqTable) (c : Choices) : TreeInv (buildTree f c).1 := by
  by_cases h : nonzero f allSymbols = []
  · rw [buildTree_zero h]
    exact ⟨rfl, by simp [TreeState.empty], by simp [TreeState.empty], forest_nil, indexed_nil⟩
  · obtain ⟨b, -, hb, hq, hlen, heq⟩ := buildTree_nonzero h c
    have hcap := hb.forest.cap
    simp only [Config.nodeCap] at hcap
    have hpos : 0 < (nonzero f allSymbols).length := List.length_pos_iff.mpr h
    rw [heq]
    refine ⟨?_, ?_, ?_, ?_, hb.indexed⟩
    · simp only [BitVec.toNat_ofNat]; omega
    · simp; intro h'; simp [h'] at hlen; omega
    · rintro r ⟨⟩
      simp only
      rw [idx_toNat (by omega)]; omega
    · simpa [hq] using hb.forest

end Sys2Proof.Machine
end

