-- ==== Sys2Proof/Laws/TreeDeserializer.lean ====
section
/-! SUPPORT. What reading a record does to the staged state, and what DESERIALIZE's loop can do. -/

namespace Sys2Proof.Machine

theorem openRoots_length_le (fs : List Frame) : (openRoots fs).length ≤ fs.length :=
  List.length_filterMap_le _ _

/-- What holds of the outcome of a record. -/
def AbsorbedInv (ic : Nat) : Absorbed → Prop
  | .more st => StagingInv st ∧ st.tag = false ∧ st.ic = ic
  | .whole t => TreeInv t ∧ t.root ≠ none
  | .tooLarge => False

/-- Attaching a new root under the pending records keeps the staged state in order, and ends in a tree that keeps
R23. -/
theorem attach_inv {li : LeafIndex} {ic : Nat} {fs : List Frame} {k : NodeIdx} {nodes : List Node}
    (hf : Forest nodes (k :: openRoots fs)) (hli : Indexed nodes li) (hic : ic ≤ Config.maxInternal)
    (hp : fs.length + countInternals nodes = ic) (hk : k.toNat + 1 = nodes.length) :
    AbsorbedInv ic (Staging.attach li ic fs k nodes) := by
  have hcap := hf.cap
  simp only [Config.nodeCap, Config.maxInternal] at hcap hic
  induction fs generalizing k nodes with
  | nil =>
    refine ⟨⟨?_, ?_, ?_, by simpa [openRoots] using hf, hli⟩, by simp⟩
    · simp only [BitVec.toNat_ofNat]; omega
    · simp; rintro rfl; simp at hk
    · rintro r ⟨⟩; exact hk
  | cons fr fs ih =>
    cases fr with
    | first => exact ⟨⟨by simpa [openRoots] using hf, hli, hic, by simpa using hp⟩, rfl, rfl⟩
    | second l =>
      have hf' : Forest nodes (l :: k :: openRoots fs) := by
        refine forest_perm hf ?_
        simp only [openRoots, List.filterMap_cons]
        exact List.Perm.swap _ _ _
      have hcount := hf'.count
      have hsum := countLeaves_add_countInternals nodes
      have hop := openRoots_length_le fs
      simp only [List.length_cons] at hcount hp
      have hlen : nodes.length < 511 := by omega
      refine ih (forest_join hf' 0 hlen) (indexed_join hli 0 l k) ?_ ?_ ?_
      · rw [join_countInternals]; omega
      · rw [idx_toNat (by omega)]; simp
      · simp; omega

/-- A leaf record keeps the staged state in order. -/
theorem addLeaf_inv {st : Staging} (h : StagingInv st) (v : Byte) : AbsorbedInv st.ic (st.addLeaf v) := by
  have hcount := h.forest.count
  have hsum := countLeaves_add_countInternals st.nodes
  have hop := openRoots_length_le st.stack
  have hic := h.icCap
  have hpend := h.pending
  simp only [Config.maxInternal] at hic
  have hlen : st.nodes.length < 511 := by omega
  refine attach_inv (forest_leaf h.forest v 0 hlen) (indexed_leaf h.indexed v 0 hlen) h.icCap ?_ ?_
  · rw [leaf_countInternals]; exact hpend
  · rw [idx_toNat (by omega)]; simp

/-- An internal record keeps the staged state in order, or is one too many. -/
theorem addInternal_cases {st : Staging} (h : StagingInv st) :
    (st.addInternal = .tooLarge ∧ st.ic = 255) ∨
      ∃ st', st.addInternal = .more st' ∧ StagingInv st' ∧ st'.tag = false ∧ st'.ic = st.ic + 1 := by
  have hic := h.icCap
  simp only [Config.maxInternal] at hic
  by_cases hc : st.ic = 255
  · exact .inl ⟨by simp [Staging.addInternal, hc], hc⟩
  · refine .inr ⟨_, by simp [Staging.addInternal, show ¬ 255 < st.ic + 1 by omega]; rfl, ?_, rfl, rfl⟩
    refine ⟨by simpa [openRoots] using h.forest, h.indexed, by simp [Config.maxInternal]; omega, ?_⟩
    have := h.pending
    simp; omega

theorem stagingInv_fresh : StagingInv Staging.fresh :=
  ⟨by simpa [Staging.fresh, openRoots] using forest_nil, indexed_nil, by simp [Staging.fresh],
    by simp [Staging.fresh, countInternals]⟩

/-- A tag that has been read changes nothing else. -/
theorem stagingInv_tag {st : Staging} (h : StagingInv st) (b : Bool) : StagingInv { st with tag := b } :=
  ⟨h.forest, h.indexed, h.icCap, h.pending⟩

/-- Everything DESERIALIZE's loop can do: after source calls alone it has committed a tree, or raised one of its three
errors, or is still in progress. -/
theorem desLoop_cases (n : Nat) {st : Staging} (h : StagingInv st) (s : State) :
    ∃ u, SourceOnly s u ∧
      ((∃ t, desLoop n st s = .next ((u.commit t).done) ∧ TreeInv t ∧ t.root ≠ none) ∨
        (∃ e, desLoop n st s = .next (u.raise e) ∧
          (e = .sourceExhausted ∨ e = .ioFailure ∨ e = .capacityExceeded)) ∨
        (∃ st', desLoop n st s = .next (u.setRunning (.deserialize st')) ∧ StagingInv st')) := by
  induction n generalizing st s with
  | zero => exact ⟨s, .refl s, .inr (.inr ⟨st, rfl, h⟩)⟩
  | succ n ih =>
    rw [desLoop]
    by_cases ht : st.tag = true
    · rw [if_pos ht]
      have hso := sourceOnly_srcByte s
      generalize hr : s.srcByte = r at hso
      obtain ⟨r, u⟩ := r
      cases r with
      | exhausted => exact ⟨u, hso, .inr (.inl ⟨_, rfl, .inl rfl⟩)⟩
      | ioFail => exact ⟨u, hso, .inr (.inl ⟨_, rfl, .inr (.inl rfl)⟩)⟩
      | withheld => exact ⟨u, hso, .inr (.inr ⟨st, rfl, h⟩)⟩
      | got v =>
        have hinv := addLeaf_inv h v
        simp only [onReply]
        cases ha : st.addLeaf v with
        | more st' =>
          rw [ha] at hinv
          obtain ⟨w, hw, hcase⟩ := ih hinv.1 u
          exact ⟨w, hso.trans hw, hcase⟩
        | whole t =>
          rw [ha] at hinv
          exact ⟨u, hso, .inl ⟨t, rfl, hinv.1, hinv.2⟩⟩
        | tooLarge => rw [ha] at hinv; exact hinv.elim
    · rw [if_neg ht]
      have hso := sourceOnly_srcBit s
      generalize hr : s.srcBit = r at hso
      obtain ⟨r, u⟩ := r
      cases r with
      | exhausted => exact ⟨u, hso, .inr (.inl ⟨_, rfl, .inl rfl⟩)⟩
      | ioFail => exact ⟨u, hso, .inr (.inl ⟨_, rfl, .inr (.inl rfl)⟩)⟩
      | withheld => exact ⟨u, hso, .inr (.inr ⟨st, rfl, h⟩)⟩
      | got b =>
        simp only [onReply]
        cases b with
        | true =>
          obtain ⟨w, hw, hcase⟩ := ih (stagingInv_tag h true) u
          exact ⟨w, hso.trans hw, hcase⟩
        | false =>
          rcases addInternal_cases h with ⟨ha, -⟩ | ⟨st', ha, hst', -⟩
          · simp only [ha]
            exact ⟨u, hso, .inr (.inl ⟨.capacityExceeded, rfl, .inr (.inr rfl)⟩)⟩
          · simp only [ha]
            obtain ⟨w, hw, hcase⟩ := ih hst' u
            exact ⟨w, hso.trans hw, hcase⟩

end Sys2Proof.Machine
end

