-- ==== Sys2Proof/Tests/Slice0.lean ====
section
/-! SUPPORT. The model's own tests: ill-formed terms refused, words written out from spec/, single steps with the results
of 95_test_vectors.md, and for every obligation with hypotheses a state and operands that meet them. -/

namespace Sys2Proof.Tests

open Sys2Proof.Machine

/-! ## Well-formedness: each check of R54 and R56 refuses a term that fails it alone -/

theorem test_wf_legal : (CommandFields.mk 0 0 2 0x61).wellFormed = true ∧ (CommandFields.mk 0 0 5 0).wellFormed = true := by
  decide

theorem test_wf_high : (CommandFields.mk 1 0 1 0).highOk = false ∧ (CommandFields.mk 1 0 1 0).wellFormed = false := by
  decide

theorem test_wf_rsv : (CommandFields.mk 0 1 1 0).rsvOk = false ∧ (CommandFields.mk 0 1 1 0).wellFormed = false := by
  decide

theorem test_wf_op : (∀ op ∈ [0, 6, 7], (CommandFields.mk 0 0 op 0).opOk = false ∧
    (CommandFields.mk 0 0 op 0).wellFormed = false) := by decide

theorem test_wf_sym : (∀ op ∈ [1, 3, 4, 5], (CommandFields.mk 0 0 op 1).symOk = false ∧
    (CommandFields.mk 0 0 op 1).wellFormed = false) := by decide

theorem test_wf_record : (RecordFields.mk true none).wellFormed = false ∧
    (RecordFields.mk false (some 0)).wellFormed = false ∧ decodeRecord ⟨true, none⟩ = .error .notARecord ∧
    decodeRecord ⟨false, some 0⟩ = .error .notARecord := by decide

/-! ## Decoding: words written out from R50, R51 (RSV, OP, SYM) and R56 -/

theorem test_decode_build : decodeCommand 0b00000000000000000000000100000000 = .ok .build := by decide

theorem test_decode_encode : decodeCommand 0b00000000000000000000001001100001 = .ok (.encode 0x61) := by decide

theorem test_decode_decode : decodeCommand 0b00000000000000000000001100000000 = .ok .decode := by decide

theorem test_decode_serialize : decodeCommand 0b00000000000000000000010000000000 = .ok .serialize := by decide

theorem test_decode_deserialize : decodeCommand 0b00000000000000000000010100000000 = .ok .deserialize := by decide

theorem test_decode_tsLeaf : decodeStream [.bit true, .byte 0x41, .bit false] = .ok (.tsLeaf 0x41, [.bit false]) := by
  decide

theorem test_decode_tsInternal : decodeStream [.bit false, .bit true] = .ok (.tsInternal, [.bit true]) := by decide

/-- The illegal words of 95_test_vectors B.6. -/
theorem test_decode_illegal :
    decodeCommand 0x0000 = .error .reservedOp ∧ decodeCommand 0x0600 = .error .reservedOp ∧
    decodeCommand 0x0700 = .error .reservedOp ∧ decodeCommand 0x0800 = .error .reservedBits ∧
    decodeCommand 0x0101 = .error .strayOperand ∧ decodeCommand 0x03FF = .error .strayOperand ∧
    decodeCommand 0x0401 = .error .strayOperand ∧ decodeCommand 0x0580 = .error .strayOperand ∧
    decodeCommand 0x00010100 = .error .highBits := by decide

theorem test_decode_stream_illegal : decodeStream [] = .error .notARecord ∧
    decodeStream [.bit true] = .error .notARecord ∧ decodeStream [.byte 0] = .error .notARecord := by decide

/-- A table word is run by the step after it is placed (log 8). -/
theorem test_withFetchWord :
    step (State.reset.withFetchWord 16 0x0300) = .next { State.reset with err := 3 } ∧
    step (State.reset.withFetchWord 1 0) = .next { State.reset with
      running := some (.deserialize { Staging.fresh with ic := 1, stack := [.first] }) } := ⟨rfl, rfl⟩

/-! ## States for the tests -/

/-- The tree of V2, as DESERIALIZE leaves it. -/
def leafTree : TreeState :=
  { nodes := [leafNode 0x41 0], root := some 0, li := setLi TreeState.empty.li 0x41 0, nnode := 1 }

/-- The tree of V3, as DESERIALIZE leaves it: 0x78 has the codeword 0 and 0x79 the codeword 1. -/
def pairTree : TreeState :=
  { nodes := join 0 0 1 [leafNode 0x78 0, leafNode 0x79 0], root := some 2,
    li := setLi (setLi TreeState.empty.li 0x78 0) 0x79 1, nnode := 3 }

/-- The same tree with the frequencies of V3, as BUILD leaves it. -/
def pairBuilt : TreeState :=
  { pairTree with nodes := join 2 0 1 [leafNode 0x78 1, leafNode 0x79 1] }

/-- The tree of V4, as DESERIALIZE leaves it: 0x61 has the codeword 00, 0x62 has 01, 0x63 has 1. -/
def tripleTree : TreeState :=
  { nodes := join 0 2 3 (join 0 0 1 [leafNode 0x61 0, leafNode 0x62 0] ++ [leafNode 0x63 0]), root := some 4,
    li := setLi (setLi (setLi TreeState.empty.li 0x61 0) 0x62 1) 0x63 3, nnode := 5 }

/-- The reset state with a tree and two scripts. -/
def stateOf (t : TreeState) (src : List SrcItem) (snk : List SinkItem) : State :=
  { State.reset with tree := t, chan := { source := .script src, sinkPlan := .script snk, sink := [] } }

/-- The reset state with a frequency table. -/
def stateOfFreq (l : List (Byte × Word)) : State :=
  l.foldl (fun s p => s.setFreq p.1 p.2) State.reset

def withPort (l : List HostInput) (s : State) : State := { s with host := { s.host with port := l } }

/-- The state a step or an instruction leads to. -/
def after (o : Host.Outcome State Fault Refusal) : Option State :=
  match o with
  | .next s => some s
  | .fault _ => none
  | .refused _ => none

/-- A left-leaning chain with `n` internal nodes (95_test_vectors B.5, row 8). -/
def chain : Nat → Shape
  | 0 => .leaf 0
  | n + 1 => .node (chain n) (.leaf 0)

theorem chain_internals (n : Nat) : (chain n).internals = n := by
  induction n with
  | zero => rfl
  | succ n ih => simp [chain, Shape.internals, ih]

theorem chain_stream (n : Nat) : ∃ rest, (chain n).stream = List.replicate n (.bit false) ++ rest := by
  induction n with
  | zero => exact ⟨_, rfl⟩
  | succ n ih =>
    obtain ⟨rest, h⟩ := ih
    exact ⟨rest ++ (Shape.leaf 0).stream, by simp [chain, Shape.stream, h, List.replicate_succ]⟩

theorem leafTree_inv : TreeInv leafTree where
  nnode := by decide
  absent := by simp [leafTree]
  last := by rintro r ⟨⟩; decide
  forest := forest_leaf forest_nil 0x41 0 (by decide)
  indexed := indexed_leaf indexed_nil 0x41 0 (by decide)

theorem pairTree_inv : TreeInv pairTree where
  nnode := by decide
  absent := by simp [pairTree, join]
  last := by rintro r ⟨⟩; decide
  forest := forest_join (forest_perm (forest_leaf (forest_leaf forest_nil 0x78 0 (by decide)) 0x79 0 (by decide))
    (List.Perm.swap _ _ _)) 0 (by decide)
  indexed := indexed_join (indexed_leaf (indexed_leaf indexed_nil 0x78 0 (by decide)) 0x79 0 (by decide)) 0 0 1

theorem pairBuilt_inv : TreeInv pairBuilt where
  nnode := by decide
  absent := by simp [pairBuilt, pairTree, join]
  last := by rintro r ⟨⟩; decide
  forest := forest_join (forest_perm (forest_leaf (forest_leaf forest_nil 0x78 1 (by decide)) 0x79 1 (by decide))
    (List.Perm.swap _ _ _)) 2 (by decide)
  indexed := indexed_join (indexed_leaf (indexed_leaf indexed_nil 0x78 1 (by decide)) 0x79 1 (by decide)) 2 0 1

theorem tripleTree_inv : TreeInv tripleTree where
  nnode := by decide
  absent := by simp [tripleTree, join]
  last := by rintro r ⟨⟩; decide
  forest := forest_join (forest_perm (forest_leaf (forest_join (forest_perm
    (forest_leaf (forest_leaf forest_nil 0x61 0 (by decide)) 0x62 0 (by decide)) (List.Perm.swap _ _ _)) 0 (by decide))
    0x63 0 (by decide)) (List.Perm.swap _ _ _)) 0 (by decide)
  indexed := indexed_join (indexed_leaf (indexed_join (indexed_leaf (indexed_leaf indexed_nil 0x61 0 (by decide))
    0x62 0 (by decide)) 0 0 1) 0x63 0 (by decide)) 0 2 3

theorem pairTree_state_inv (src : List SrcItem) (snk : List SinkItem) : Inv (stateOf pairTree src snk) :=
  ⟨pairTree_inv, by simp [stateOf, State.reset], by simp [stateOf, State.reset]⟩

/-! ## One step each (95_test_vectors) -/

/-- B.6: `RD 0x101`, `RD 0x100`, `RD 0x061`, `RD 0x105`, `RD 0x3FF` after reset. -/
theorem test_hostRead_reset : [0x101, 0x100, 0x061, 0x105, 0x3FF].map (fun ra => hostRead ra State.reset) =
    [2, 0, 0, 0, 0] := by decide +kernel

/-- B.6: a write to `STATUS` or to a reserved register is ignored; one to `FREQ` is stored. -/
theorem test_hostWrite : hostWrite 0x101 0xFFFF State.reset = State.reset ∧
    hostWrite 0x3FF 1 State.reset = State.reset ∧ hostWrite 0x105 1 State.reset = State.reset ∧
    hostRead 0x061 (hostWrite 0x061 5 State.reset) = 5 ∧ hostRead 0x0FF (hostWrite 0x0FF 7 State.reset) = 7 :=
  ⟨rfl, rfl, rfl, by decide +kernel⟩

/-- B.6: `WR 0x100, 0x0700` gives `ERR` = 1 and `STATUS` = 0x12. -/
theorem test_illegal_command :
    (after (step (withPort [.write 0x100 0x0700] State.reset))).map State.status = some 0x12 := by decide +kernel

/-- V1: the nodes BUILD makes from {a:5, b:9, c:12, d:13, e:16, f:45}, as (freq, left, right). -/
theorem test_build_V1 :
    (after (exec .build (stateOfFreq [(0x61, 5), (0x62, 9), (0x63, 12), (0x64, 13), (0x65, 16), (0x66, 45)]))).map
      (fun t => t.tree.nodes.map fun nd => (nd.freq.toNat, nd.left.toNat, nd.right.toNat)) =
    some [(5, 0, 0), (9, 0, 0), (12, 0, 0), (13, 0, 0), (16, 0, 0), (45, 0, 0), (14, 0, 1), (25, 2, 3), (30, 6, 4),
      (55, 7, 8), (100, 5, 9)] := by decide +kernel

/-- V3: the tree BUILD makes from {x:1, y:1}. -/
theorem test_build_V3 :
    (after (exec .build (stateOfFreq [(0x78, 1), (0x79, 1)]))).map (fun t => (t.tree.nodes, t.tree.root, t.tree.nnode)) =
      some (pairBuilt.nodes, some 2, 3) := by decide +kernel

/-- V4: `ENCODE 0x62` sends `01`. -/
theorem test_encode : (after (exec (.encode 0x62) (stateOf tripleTree [] [.ok, .ok]))).map
    (fun t => (t.chan.sink, t.clen, t.err)) = some ([.bit false, .bit true], 2, 0) := by decide +kernel

/-- B.2: the sink fails on the second bit. -/
theorem test_encode_ioFailure : (after (exec (.encode 0x61) (stateOf tripleTree [] [.ok, .ioFail]))).map
    (fun t => (t.chan.sink, t.clen, t.err)) = some ([.bit false], 0, 5) := by decide +kernel

/-- B.3: the source holds `01`. -/
theorem test_decode : (after (exec .decode (stateOf tripleTree [.bit false, .bit true] []))).map
    (fun t => (t.rsym, t.err, t.chan.source)) = some (0x62, 0, .script []) := by decide +kernel

/-- B.3: the source ends inside a codeword. -/
theorem test_decode_exhausted : (after (exec .decode (stateOf tripleTree [.bit false, .exhausted] []))).map
    (fun t => (t.rsym, t.err, t.running)) = some (0, 4, none) := by decide +kernel

/-- B.4: V3's events. -/
theorem test_serialize : (after (exec .serialize (stateOf pairTree [] [.ok, .ok, .ok, .ok, .ok]))).map
    (fun t => (t.chan.sink, t.err)) = some ([.bit false, .bit true, .byte 0x78, .bit true, .byte 0x79], 0) := by
  decide +kernel

/-- B.4: the sink refuses `Y78`. -/
theorem test_serialize_ioFailure : (after (exec .serialize (stateOf pairTree [] [.ok, .ok, .ioFail]))).map
    (fun t => (t.chan.sink, t.err)) = some ([.bit false, .bit true], 5) := by decide +kernel

/-- B.5, row 6: a repeated symbol. -/
theorem test_deserialize_repeated : (after (exec .deserialize
    (stateOf leafTree [.bit false, .bit true, .byte 0x41, .bit true, .byte 0x41] []))).map
      (fun t => (t.tree.nodes, readLi t.tree.li 0x41, t.err)) =
    some (join 0 0 1 [leafNode 0x41 0, leafNode 0x41 0], some 1, 0) := by decide +kernel

/-- B.5, row 5: the source (the reference adapter) ends inside the stream, after 11 of the 12 bits are read. -/
theorem test_deserialize_truncated : (after (exec .deserialize
    { stateOf leafTree [] [] with chan :=
      { source := .adapter [false, true, false, true, true, true, true, false, false, false, true, false],
        sinkPlan := .adapter, sink := [] } })).map
      (fun t => (t.tree.nodes, t.chan.source, t.status)) = some (leafTree.nodes, .adapter [false], 0x44) := by decide +kernel

/-- R102: the leaf record that ends V3's stream closes the internal node. -/
theorem test_tsLeaf : (after (exec (.tsLeaf 0x79) { State.reset with running := some (.deserialize
      { nodes := [leafNode 0x78 0], li := setLi TreeState.empty.li 0x78 0, ic := 1, stack := [.second 0],
        tag := false }) })).map (fun t => (t.tree.nodes, t.tree.root, readLi t.tree.li 0x79, t.err)) =
      some (pairTree.nodes, some 2, some 1, 0) := by decide +kernel

/-- R105: the 256th internal record. -/
theorem test_tsInternal : (after (exec .tsInternal { stateOf leafTree [] [] with running := some (.deserialize
      { Staging.fresh with ic := 255, stack := List.replicate 255 .first }) })).map
      (fun t => (t.tree.nodes, t.status)) = some (leafTree.nodes, 0x64) := by decide +kernel

/-- R40, V4: `ENCODE 0x62` with the sink's second answer withheld once: two steps later both bits are sent and `CLEN`
is 2. -/
theorem test_encode_resumed :
    let t := after (exec (.encode 0x62) (stateOf tripleTree [] [.ok, .hold, .ok]))
    let u := (t.bind fun t => after (step t)).bind fun t => after (step t)
    t.map (fun t => (t.chan.sink, t.clen)) = some ([.bit false], 0) ∧
      u.map (fun u => (u.chan.sink, u.clen, u.err)) = some ([.bit false, .bit true], 2, 0) := by decide +kernel

/-- R103 (c), B.5 row 3: a tag 1 and 6 bits; the failing call removes nothing. -/
theorem test_deserialize_short_symbol : (after (exec .deserialize { stateOf leafTree [] [] with chan :=
      { source := .adapter [true, false, true, false, false, false, false], sinkPlan := .adapter, sink := [] } })).map
      (fun t => (t.chan.source, t.status)) = some (.adapter [false, true, false, false, false, false], 0x44) := by
  decide +kernel

/-- R62: `CLEAR` is 256 writes, the word of `BUILD`, and the wait. -/
theorem test_clear : (HostLine.inputs .clear).length = 258 ∧
    (HostLine.inputs .clear).drop 255 = [.write 0xFF 0, .write 0x100 0x100, .wait] := by decide +kernel

/-- V2: the bits `101000001` packed are `A0 80` (R43). -/
theorem test_packBits : packBits 2 (eventBits [.bit true, .byte 0x41]) = [0xA0, 0x80] := by decide

/-! ## Witnesses: for every obligation with hypotheses, a state and operands that meet them -/

theorem witness_TreeStreamDeterminesShape :
    (chain 2).stream ++ [.bit true] = (Shape.node (chain 1) (.leaf 0)).stream ++ [.bit true] := rfl

theorem witness_SourceReadsBackWhatWasWritten :
    (stateOf leafTree [.bit true, .hold] []).chan.source = sourceWith [.bit true] (.script [.hold]) ∧
    (stateOf leafTree [.byte 3] []).chan.source = sourceWith [.byte 3] (.script []) ∧
    sourceWith [.byte 0xFF] (.adapter [false]) = .adapter (List.replicate 8 true ++ [false]) := by decide

theorem witness_StepExecutesDecodedCommand :
    (withPort [.write 0x100 0x2FF, .wait] State.reset).running = none ∧
    (withPort [.write 0x100 0x2FF, .wait] State.reset).host.port = [.write 0x100 0x2FF, .wait] ∧
    decodeCommand 0x2FF = .ok (.encode 0xFF) := by decide

theorem witness_StepExecutesDecodedRecord :
    (State.reset.withFetchWord 9 0x141).running = some (.deserialize Staging.fresh) ∧ Staging.fresh.tag = false ∧
    encode (.tsLeaf 0x41) = .record (leafRecord 0x41) ∧
    (State.reset.withFetchWord 9 0x141).chan.source = .script ((leafRecord 0x41).map eventItem ++ []) ∧
    encode .tsInternal = .record internalRecord ∧
    (State.reset.withFetchWord 1 0).chan.source = .script (internalRecord.map eventItem ++ []) :=
  ⟨rfl, rfl, rfl, rfl, rfl, rfl⟩

/-- One word for each clause of R54. -/
theorem witness_IllegalCommandWordRaisesInvalidArgument :
    (0x00010000 : Word).extractLsb' 16 16 ≠ 0 ∧ (0x0800 : Word).extractLsb' 11 5 ≠ 0 ∧
    (0x0000 : Word).extractLsb' 8 3 = 0 ∧ (0x0600 : Word).extractLsb' 8 3 = 6 ∧ (0x0700 : Word).extractLsb' 8 3 = 7 ∧
    (0x0101 : Word).extractLsb' 8 3 = 1 ∧ (0x0101 : Word).extractLsb' 0 8 ≠ 0 ∧
    (0x03FF : Word).extractLsb' 8 3 = 3 ∧ (0x03FF : Word).extractLsb' 0 8 ≠ 0 ∧
    (0x0401 : Word).extractLsb' 8 3 = 4 ∧ (0x0580 : Word).extractLsb' 8 3 = 5 := by decide

/-- The values read at the edges of the ranges of R31, and what writes there store. -/
theorem witness_HostPortAccessWhenIdle :
    (stateOf pairTree [] []).running = none ∧
    [0x000, 0x0FF, 0x100, 0x101, 0x102, 0x103, 0x104, 0x105, 0x3FF].map (fun ra =>
      (after (step (withPort [.read ra]
        { (stateOf pairTree [] []).setFreq 0 4 with err := 5, rsym := 6, clen := 7 }))).map
          fun t => t.host.replies) =
      [some [4], some [0], some [0], some [0x50], some [6], some [7], some [3], some [0], some [0]] ∧
    [0x0FF, 0x101, 0x3FF].map (fun ra =>
      (after (step (withPort [.write ra 9] State.reset))).map fun t => readFreq t.freq 0xFF) =
      [some 9, some 0, some 0] ∧
    (withPort [.wait, .read 0x102] (stateOf pairTree [] [])).host.port = .wait :: [.read 0x102] := by decide +kernel

/-- A DECODE whose source holds nothing is stalled. -/
theorem witness_HostAccessWhileBusy :
    let s := { stateOf pairTree [] [] with running := some (.decode 2) }
    s.stalled (.decode 2) = true ∧ (withPort [.write 0x61 5] s).host.port = [.write 0x61 5] ∧
      (withPort [.read 0x101] s).host.port = [.read 0x101] ∧ (withPort [.wait] s).host.port = [.wait] := by decide

theorem witness_StalledCommandKeepsBusy :
    ({ stateOf pairTree [] [.hold] with running := some (.encode [true] 1) } : State).stalled (.encode [true] 1) = true ∧
    (stateOf pairTree [] []).host.port.head? ≠ some .reset := by decide

theorem witness_CommandWaitsAtItsFirstCall :
    let s := stateOf pairTree [] []
    s.chan.source = .script [] ∧ s.chan.sinkPlan = .script [] ∧ s.tree.root = some 2 ∧
      (s.tree.node? 2).map (fun nd => nd.leaf) = some false ∧ readLi s.tree.li 0x79 = some 1 ∧
      codeword s.tree.nodes 1 = some [true] ∧
      serEvents s.tree.nodes Config.nodeCap 2 =
        some [.bit false, .bit true, .byte 0x78, .bit true, .byte 0x79] := by decide +kernel

/-- Of the first clause: each command that can wait, with `hold` entries at the start, inside and after the work, and a
busy host. Withholding nothing, each ends. -/
theorem witness_ResumedCommandEndsAsUninterrupted :
    let s := withPort [.write 0x61 5, .read 0x101, .wait] (stateOf tripleTree
      [.hold, .bit false, .hold, .hold, .bit true, .hold] [.hold, .ok, .hold, .ok, .hold])
    let d := stateOf leafTree [.bit true, .hold, .byte 3] []
    (∀ x ∈ s.host.port, x ≠ .reset) ∧ d.host.port = [] ∧
      [exec (.encode 0x62) s.unheld, exec .decode s.unheld, exec .deserialize d.unheld].map
        (fun o => (after o).map fun t => (t.running.isSome, decide (t.chan.source = .unknown))) =
      [some (false, false), some (false, false), some (false, false)] ∧
      (after (exec .serialize (stateOf leafTree [] [.ok, .hold, .ok]).unheld)).map (fun t => t.running.isSome) =
        some false := by decide +kernel

/-- Of the clauses about one step. -/
theorem witness_ResumedCommandEndsAsUninterrupted_step :
    (SinkPlan.script [.ok]).accepts [true].length = some (.script []) ∧
    (SinkPlan.adapter).accepts [Event.byte 0x79].length = some .adapter ∧ TreeInv tripleTree ∧
    followPath tripleTree.nodes [true] 2 = some 1 ∧ (tripleTree.node? 1).map (fun nd => nd.leaf) = some true ∧
    (Source.script [.bit true]).gives ([true].map .bit) = some (.script []) ∧
    ({ Staging.fresh with tag := true } : Staging).tag = true ∧
    (stateOf leafTree [.byte 3, .hold] []).chan.source = .script (.byte 3 :: [.hold]) :=
  ⟨by decide, by decide, tripleTree_inv, by decide, by decide, by decide, rfl, rfl⟩

/-- Of the last clause. -/
theorem witness_ResumedCommandEndsAsUninterrupted_decode :
    let s := stateOf tripleTree [.bit false, .hold, .bit true] []
    TreeInv s.tree ∧ s.running = none ∧ s.host.port = [] ∧ s.tree.leafAtPath ([false] ++ [true]) 0x62 ∧
      s.chan.source = .script ([false].map .bit ++ .hold :: ([true].map .bit ++ [])) :=
  ⟨tripleTree_inv, rfl, rfl, ⟨1, _, by decide, rfl, rfl, rfl⟩, rfl⟩

/-- With `BUSY` = 0, and with a command in progress. -/
theorem witness_ResetInputRestoresResetValues :
    (withPort [.reset] (stateOf pairTree [] [])).host.port = [.reset] ∧
    (withPort [.reset] (stateOf pairTree [] [])).running = none ∧
    (withPort [.reset] { stateOf pairTree [] [] with running := some (.decode 2) }).stalled (.decode 2) = true := by
  decide

theorem witness_BuildOfZeroTableGivesEmptyTree : ∀ a, readFreq (stateOf pairTree [] []).freq a = 0 := by
  decide +kernel

theorem witness_BuildOfOneSymbolGivesOneLeaf :
    readFreq (stateOfFreq [(0x41, 5)]).freq 0x41 ≠ 0 ∧
    (∀ b, b ≠ 0x41 → readFreq (stateOfFreq [(0x41, 5)]).freq b = 0) := by decide +kernel

theorem witness_BuildOfTwoEqualSymbolsOrdersThem :
    let f := (stateOfFreq [(0x78, 1), (0x79, 1)]).freq
    (0x78 : Byte) < 0x79 ∧ readFreq f 0x78 ≠ 0 ∧ readFreq f 0x78 = readFreq f 0x79 ∧
      (∀ d, d ≠ 0x78 → d ≠ 0x79 → readFreq f d = 0) := by decide +kernel

theorem witness_BuiltTreeIsAsSpecified :
    [0x78, 0x79] = ((List.range 256).map (BitVec.ofNat 8)).filter
      (fun a => readFreq (stateOfFreq [(0x78, 1), (0x79, 1)]).freq a != 0) := by decide +kernel

/-- The premises of transitivity, and of the last clause in both directions. -/
theorem witness_PriorityOrderIsStrictPartial :
    lt (leafNode 1 5) (leafNode 2 5) = true ∧ lt (leafNode 2 5) (internalNode 6 0 1) = true ∧
    lt (leafNode 1 5) (internalNode 5 0 1) = false ∧ lt (internalNode 5 0 1) (leafNode 1 5) = false := by decide

theorem witness_ExtractMinReturnsAnyMinimalElement :
    let b : Build :=
      { nodes := [leafNode 0x61 1, internalNode 1 0 0], li := TreeState.empty.li, q := [0, 1],
        choice := { draws := [], fresh := 0 } }
    (∀ k ∈ b.q, k.toNat < b.nodes.length) ∧ b.q ≠ [] ∧ (0 : NodeIdx) ∈ b.q ∧ (1 : NodeIdx) ∈ b.q ∧
      (∀ x ∈ b.q, before b.nodes x 0 = false) ∧ (∀ x ∈ b.q, before b.nodes x 1 = false) := by decide

/-- A table with two symbols, and a prefix code for it. -/
theorem witness_BuiltTreeCostIsMinimalAmongPrefixCodes :
    (∃ a, readFreq (stateOfFreq [(0x78, 1), (0x79, 1)]).freq a ≠ 0) ∧
    ∀ a b, readFreq (stateOfFreq [(0x78, 1), (0x79, 1)]).freq a ≠ 0 →
      readFreq (stateOfFreq [(0x78, 1), (0x79, 1)]).freq b ≠ 0 → a ≠ b →
      ¬ (if a = 0x78 then [false] else [true]) <+: (if b = 0x78 then [false] else [true]) := by
  have h : ∀ a, readFreq (stateOfFreq [(0x78, 1), (0x79, 1)]).freq a ≠ 0 → a = 0x78 ∨ a = 0x79 := by decide +kernel
  refine ⟨⟨0x78, by decide +kernel⟩, fun a b ha hb hab => ?_⟩
  rcases h a ha with rfl | rfl <;> rcases h b hb with rfl | rfl <;> first | exact absurd rfl hab | decide

theorem witness_BuiltTreeCostIsTheSameForEveryTieBreak :
    let f := (stateOfFreq [(0x78, 1), (0x79, 1)]).freq
    (buildTree f { draws := [], fresh := 0 }).1.shape = some (.node (.leaf 0x78) (.leaf 0x79)) ∧
    (buildTree f { draws := [1], fresh := 5 }).1.shape = some (.node (.leaf 0x78) (.leaf 0x79)) ∧
    (Shape.node (.leaf 0x79) (.leaf 0x78)).symbols.Perm (Shape.node (.leaf 0x78) (.leaf 0x79)).symbols := by
  decide +kernel

theorem witness_EveryCellHasOnePath : TreeInv pairTree ∧ (0 : NodeIdx).toNat < pairTree.nodes.length ∧
    (2 : NodeIdx).toNat < pairTree.nodes.length := ⟨pairTree_inv, by decide, by decide⟩

theorem witness_TreeHasItsShape : TreeInv leafTree ∧ leafTree.root ≠ none ∧ TreeInv tripleTree ∧
    tripleTree.root ≠ none := ⟨leafTree_inv, by decide, tripleTree_inv, by decide⟩

theorem witness_CodeIsPrefixFree : TreeInv tripleTree ∧ tripleTree.atPath [false, true] = some 1 ∧
    tripleTree.atPath [true] = some 3 ∧ (tripleTree.node? 1).map (fun nd => nd.leaf) = some true ∧
    (tripleTree.node? 3).map (fun nd => nd.leaf) = some true ∧ (1 : NodeIdx) ≠ 3 :=
  ⟨tripleTree_inv, by decide⟩

theorem witness_LongBitSequenceBeginsWithOneCodeword : TreeInv leafTree ∧ leafTree.root ≠ none ∧
    255 ≤ (List.replicate 255 true).length := ⟨leafTree_inv, by decide, by rw [List.length_replicate]⟩

/-- With a script and with the reference adapter; in the tree of one leaf the codeword is empty. -/
theorem witness_EncodeSendsTheCodeword : TreeInv tripleTree ∧ tripleTree.IsCodeword 0x62 [false, true] ∧
    (SinkPlan.script [.ok, .ok, .hold]).accepts 2 = some (.script [.hold]) ∧ SinkPlan.adapter.accepts 2 = some .adapter ∧
    TreeInv leafTree ∧ leafTree.IsCodeword 0x41 [] :=
  ⟨tripleTree_inv, ⟨1, by decide +kernel⟩, by decide, by decide, leafTree_inv, ⟨0, by decide +kernel⟩⟩

theorem witness_EncodeOfUnknownSymbolIsNotFound :
    (stateOf leafTree [] []).tree.root ≠ none ∧ readLi (stateOf leafTree [] []).tree.li 0x42 = none := by
  decide +kernel

theorem witness_CommandsOnTheEmptyTree : State.reset.tree.root = none := rfl

theorem witness_DegenerateTreeUsesNoBits : TreeInv leafTree ∧ leafTree.root = some 0 ∧
    (leafTree.node? 0).map (fun nd => nd.leaf) = some true := ⟨leafTree_inv, by decide⟩

theorem witness_DecodeReadsOneCodeword : TreeInv tripleTree ∧ tripleTree.leafAtPath [false, true] 0x62 ∧
    (Source.script [.bit false, .bit true, .exhausted]).gives ([false, true].map .bit) = some (.script [.exhausted]) ∧
    (Source.adapter [false, true, true]).gives ([false, true].map .bit) = some (.adapter [true]) :=
  ⟨tripleTree_inv, ⟨1, _, by decide, rfl, rfl, rfl⟩, by decide⟩

/-- Each kind of failure, on a script and on the reference adapter, after one bit. -/
theorem witness_DecodeReportsSourceFailure : TreeInv tripleTree ∧ tripleTree.atPath [false] = some 2 ∧
    (tripleTree.node? 2).map (fun nd => nd.leaf) = some false ∧
    (Source.script [.bit false, .ioFail]).gives ([false].map .bit) = some (.script [.ioFail]) ∧
    (Source.script [.ioFail]).fails .ioFailure = some (.script []) ∧
    (Source.script [.exhausted]).fails .sourceExhausted = some (.script []) ∧
    (Source.adapter [false]).gives ([false].map .bit) = some (.adapter []) ∧
    (Source.adapter []).fails .sourceExhausted = some (.adapter []) := ⟨tripleTree_inv, by decide⟩

theorem witness_DecodeOfEncodeGivesTheSymbol : TreeInv tripleTree ∧
    (after (exec (.encode 0x63) (stateOf tripleTree [] [.ok]))).map (fun t => (t.running, t.err)) = some (none, 0) ∧
    (Source.script [.bit true]).gives ([true].map .bit) = some (.script []) :=
  ⟨tripleTree_inv, by decide +kernel, by decide⟩

theorem witness_SerializeSendsTheTreeStream : pairTree.shape = some (.node (.leaf 0x78) (.leaf 0x79)) ∧
    (SinkPlan.script (List.replicate 5 .ok)).accepts 5 = some (.script []) ∧
    (Shape.node (.leaf 0x78) (.leaf 0x79)).stream.length = 5 := by decide +kernel

/-- The sink fails at the first call, and at the second. -/
theorem witness_SinkFailureKeepsWhatWasSent :
    (SinkPlan.script [.ioFail]).accepts 0 = some (.script [.ioFail]) ∧
    (SinkPlan.script [.ok, .ioFail]).accepts 1 = some (.script [.ioFail]) ∧
    (SinkPlan.script [.ioFail]).fails = some (.script []) ∧ TreeInv tripleTree ∧
    tripleTree.IsCodeword 0x62 [false, true] ∧ 1 < [false, true].length ∧
    tripleTree.shape = some (.node (.node (.leaf 0x61) (.leaf 0x62)) (.leaf 0x63)) :=
  ⟨by decide, by decide, by decide, tripleTree_inv, ⟨1, by decide +kernel⟩, by decide, by decide +kernel⟩

/-- A shape of one leaf, and the largest chain. -/
theorem witness_DeserializeRebuildsTheTree :
    (Shape.leaf 0x42).internals ≤ 255 ∧
    (Source.adapter (eventBits (Shape.leaf 0x42).stream)).gives (Shape.leaf 0x42).stream = some (.adapter []) ∧
    (chain 255).internals = 255 ∧
    (Source.script ((chain 255).stream.map eventItem ++ [.hold])).gives (chain 255).stream = some (.script [.hold]) :=
  ⟨by decide, by decide, chain_internals _, gives_script _ _⟩

theorem witness_DeserializedTreeKeepsInvariant :
    (chain 255).internals ≤ 255 ∧ (Shape.node (.leaf 0x41) (.leaf 0x41)).internals ≤ 255 :=
  ⟨by rw [chain_internals], by decide⟩

/-- The stream ends before anything, and between a tag and its symbol; both kinds of failure. -/
theorem witness_DeserializeOfTruncatedStreamKeepsTree :
    (chain 1).stream = [] ++ (chain 1).stream ∧ (chain 1).stream ≠ [] ∧
    (Source.adapter []).gives [] = some (.adapter []) ∧
    (chain 1).stream = [.bit false, .bit true] ++ [.byte 0, .bit true, .byte 0] ∧
    (Source.script [.bit false, .bit true, .ioFail]).gives [.bit false, .bit true] = some (.script [.ioFail]) ∧
    (Source.adapter []).fails .sourceExhausted = some (.adapter []) ∧
    (Source.script [.ioFail]).fails .ioFailure = some (.script []) := by decide

/-- Of the second clause: no bit left, and 7 bits left, where the symbol is due. -/
theorem witness_DeserializeOfTruncatedStreamKeepsTree_symbol :
    (chain 0).stream = [.bit true] ++ .byte 0 :: [] ∧
    (Source.adapter [true]).gives [.bit true] = some (.adapter []) ∧ ([] : List Bool).length < 8 ∧
    (Source.adapter (true :: List.replicate 7 false)).gives [.bit true] = some (.adapter (List.replicate 7 false)) ∧
    (List.replicate 7 false).length < 8 := by decide

/-- 256 internal records. -/
theorem witness_DeserializeCapacityExceeded :
    (∃ rest, (chain 256).stream = List.replicate 255 (.bit false) ++ .bit false :: rest) ∧
    (List.replicate 255 (Event.bit false)).count (.bit false) = 255 ∧
    (Source.adapter (List.replicate 300 false)).gives (List.replicate 255 (.bit false) ++ [.bit false]) =
      some (.adapter (List.replicate 44 false)) := by
  obtain ⟨rest, h⟩ := chain_stream 256
  refine ⟨⟨rest, ?_⟩, List.count_replicate_self, by decide +kernel⟩
  rw [h, List.replicate_succ' (n := 255), List.append_assoc, List.singleton_append]

/-- With no record pending, with a first subtree due, and with a second subtree due. -/
theorem witness_LeafRecordConstructsALeaf :
    (State.reset.withFetchWord 1 0).running = some (.deserialize Staging.fresh) ∧ Staging.fresh.stack = [] ∧
    ({ Staging.fresh with ic := 1, stack := [.first] } : Staging).stack = .first :: [] := ⟨rfl, rfl, rfl⟩

theorem witness_LeafRecordClosesAnInternalNode :
    let st : Staging := { Staging.fresh with nodes := [leafNode 0x78 0], ic := 1, stack := [.second 0] }
    ({ State.reset with running := some (.deserialize st) } : State).running = some (.deserialize st) ∧
      st.stack = [.second 0] ∧ st.nodes[(0 : NodeIdx).toNat]? = some (leafNode 0x78 0) ∧ st.nodes.length + 1 < 511 :=
  ⟨rfl, rfl, rfl, by decide⟩

/-- Both clauses, at the boundary. -/
theorem witness_InternalRecordOpensANode :
    ({ Staging.fresh with ic := 254 } : Staging).ic < 255 ∧ 255 ≤ ({ Staging.fresh with ic := 255 } : Staging).ic := by
  decide

theorem witness_RecordsFrame :
    (∀ st, State.reset.running ≠ some (.deserialize st)) ∧ (exec (.tsLeaf 0) State.reset = .next State.reset) ∧
    exec .tsInternal State.reset = .next State.reset :=
  ⟨fun _ => by simp [State.reset], rfl, rfl⟩

/-- A built tree and a deserialized one, serialized to the end. -/
theorem witness_DeserializeOfSerializeGivesTheTree :
    (Shape.node (.leaf 0x78) (.leaf 0x79)).internals ≤ 255 ∧
    [(buildTree (stateOfFreq [(0x78, 1), (0x79, 1)]).freq { draws := [], fresh := 0 }).1,
      (Shape.node (.leaf 0x78) (.leaf 0x79)).toTree].map (fun t =>
        (t.root, (after (exec .serialize (stateOf t [] (List.replicate 5 .ok)))).map fun t => (t.running.isSome, t.err))) =
      [(some 2, some (false, 0)), (some 2, some (false, 0))] := by decide +kernel

/-- Runs of each command to a next state: to the end, to an error, and to a wait. -/
theorem witness_EncodeAndSerializeFrame :
    [exec (.encode 0x62) (stateOf tripleTree [] [.ok, .ok]), exec (.encode 0x62) (stateOf tripleTree [] [.ok]),
      exec .serialize (stateOf tripleTree [] []), exec .serialize (stateOf tripleTree [] [.ioFail])].map
      (fun o => (after o).map fun t => (t.err, t.running.isSome)) =
    [some (0, false), some (0, true), some (0, true), some (5, false)] := by decide +kernel

/-- The same of ENCODE and SERIALIZE after a wait; the expected length is that of the whole codeword (R81). -/
theorem witness_EncodeAndSerializeFrame_resumed :
    [resume (.encode [true] 2) (stateOf tripleTree [] [.ok]), resume (.encode [true] 2) (stateOf tripleTree [] [.ioFail]),
      resume (.serialize [.byte 3]) (stateOf leafTree [] [.ok]), resume (.serialize [.byte 3]) (stateOf leafTree [] [])].map
      (fun o => (after o).map fun t => (t.err, t.running.isSome, t.clen)) =
    [some (0, false, 2), some (5, false, 0), some (0, false, 0), some (0, true, 0)] := by decide +kernel

theorem witness_DecodeAndDeserializeFrame :
    [exec .decode (stateOf tripleTree [.bit true] []), exec .decode (stateOf tripleTree [] []),
      exec .deserialize (stateOf tripleTree [.bit true, .byte 3] []),
      exec .deserialize (stateOf tripleTree [.exhausted] [])].map
      (fun o => (after o).map fun t => (t.err, t.running.isSome)) =
    [some (0, false), some (0, true), some (0, false), some (4, false)] := by decide +kernel

/-- The same of DECODE and DESERIALIZE after a wait. -/
theorem witness_DecodeAndDeserializeFrame_resumed :
    [resume (.decode 2) (stateOf tripleTree [.bit true] []), resume (.decode 2) (stateOf tripleTree [.exhausted] []),
      resume (.deserialize { Staging.fresh with tag := true }) (stateOf leafTree [.byte 3] []),
      resume (.deserialize Staging.fresh) (stateOf leafTree [.ioFail] [])].map
      (fun o => (after o).map fun t => (t.err, t.running.isSome, t.rsym, t.tree.nodes)) =
    [some (0, false, 0x62, tripleTree.nodes), some (4, false, 0, tripleTree.nodes), some (0, false, 0, [leafNode 3 0]),
      some (5, false, 0, leafTree.nodes)] := by decide +kernel

/-- A legal and an illegal command that end; the ends after a wait stand in the two witnesses of the frames. -/
theorem witness_CommandsEndWithTheirOwnCodes :
    decodeCommand 0x700 = .error .reservedOp ∧
    (after (acceptCommand 0x700 State.reset)).map (fun t => (t.err, t.running)) = some (1, none) ∧
    (after (exec .build State.reset)).map (fun t => (t.err, t.running)) = some (0, none) ∧
    (after (exec (.encode 1) State.reset)).map (fun t => (t.err, t.running)) = some (3, none) ∧
    (after (exec .decode State.reset)).map (fun t => (t.err, t.running)) = some (3, none) ∧
    (after (exec .serialize State.reset)).map (fun t => (t.err, t.running)) = some (0, none) ∧
    (after (exec .deserialize (stateOf leafTree [.ioFail] []))).map (fun t => (t.err, t.running)) =
      some (5, none) := by decide +kernel

theorem witness_FailedCommandChangesOnlyErr :
    (after (exec (.encode 0x42) (stateOf leafTree [] []))).map (fun t => (t.err, t.running)) = some (2, none) := by
  decide +kernel

theorem witness_ErrIsNotSticky :
    exec .serialize { State.reset with err := 5 } = .next State.reset ∧ State.reset.running = none ∧
    (after (resume (.encode [true] 1) (stateOf leafTree [] [.ok]))).map (fun t => t.running) = some none :=
  ⟨rfl, rfl, by decide +kernel⟩

/-- The built and the deserialized tree of V3: same shape, same codewords, other frequencies. -/
theorem witness_SameShapeAndCodewordsAreIndistinguishable :
    let s := stateOf pairBuilt [] []
    let t := stateOf pairTree [] []
    TreeInv s.tree ∧ TreeInv t.tree ∧ s.tree.shape = t.tree.shape ∧
      (∀ b c, s.tree.IsCodeword b c ↔ t.tree.IsCodeword b c) ∧ t = { s with tree := t.tree } ∧
      s.tree.nodes ≠ t.tree.nodes := by
  have hn : ∀ n < 3, (pairBuilt.nodes[n]?).map (fun nd => (nd.leaf, nd.left, nd.right)) =
      (pairTree.nodes[n]?).map (fun nd => (nd.leaf, nd.left, nd.right)) := by decide
  have hp : ∀ (c : List Bool) (k : NodeIdx), followPath pairBuilt.nodes c k = followPath pairTree.nodes c k := by
    intro c
    induction c with
    | nil => intro k; rfl
    | cons b c ih =>
      intro k
      have h : (pairBuilt.nodes[k.toNat]?).map (fun nd => (nd.leaf, nd.left, nd.right)) =
          (pairTree.nodes[k.toNat]?).map (fun nd => (nd.leaf, nd.left, nd.right)) := by
        by_cases hk : k.toNat < 3
        · exact hn _ hk
        · rw [List.getElem?_eq_none (by show 3 ≤ k.toNat; omega), List.getElem?_eq_none (by show 3 ≤ k.toNat; omega)]
      simp only [followPath]
      cases h1 : pairBuilt.nodes[k.toNat]? <;> cases h2 : pairTree.nodes[k.toNat]? <;> simp_all
  refine ⟨pairBuilt_inv, pairTree_inv, by decide +kernel, fun b c => ?_, rfl, by decide⟩
  show (∃ k, readLi pairTree.li b = some k ∧ followPath pairBuilt.nodes c 2 = some k) ↔
    ∃ k, readLi pairTree.li b = some k ∧ followPath pairTree.nodes c 2 = some k
  rw [hp]

/-- A state with a tree, and its next state. -/
theorem witness_EveryStepKeepsInvariant :
    Inv (stateOf pairTree [.bit true] []) ∧
    step (stateOf pairTree [.bit true] []) = .next (stateOf pairTree [.bit true] []) :=
  ⟨pairTree_state_inv _ _, rfl⟩

end Sys2Proof.Tests
end

section
/-! PROOFS. What the host reads: the fields of `STATUS` (R17), the frequency table (R16), the reset values (R27). -/

namespace Sys2Proof.Machine

theorem flagWord_getLsbD (b : Bool) (i : Nat) : (State.flagWord b).getLsbD i = (decide (i = 0) && b) := by
  cases b <;> simp [State.flagWord]

/-- Bit `i` of `STATUS`, field by field (R17). -/
theorem status_getLsbD (s : State) (i : Nat) : s.status.getLsbD i =
    (decide (4 ≤ i) && s.err.getLsbD (i - 4) || decide (i = 2) && s.degenFlag ||
      decide (i = 1) && s.emptyFlag || decide (i = 0) && s.busy) := by
  simp only [State.status, BitVec.getLsbD_or, BitVec.getLsbD_shiftLeft, BitVec.getLsbD_setWidth, flagWord_getLsbD]
  by_cases h : i < 7
  · interval_cases i <;> simp
  · have : s.err.getLsbD (i - 4) = false := BitVec.getLsbD_of_ge _ _ (by omega)
    simp [this, show i ≠ 0 by omega, show i ≠ 1 by omega, show i ≠ 2 by omega,
      show ¬ i - 1 = 0 by omega, show ¬ i - 2 = 0 by omega]

theorem degenFlag_iff (s : State) : s.degenFlag = true ↔
    ∃ r nd, s.tree.root = some r ∧ s.tree.node? r = some nd ∧ nd.leaf = true := by
  unfold State.degenFlag TreeState.node?
  cases s.tree.root with
  | none => simp
  | some r => cases hn : s.tree.nodes[r.toNat]? <;> simp [hn]

theorem emptyFlag_iff (s : State) : s.emptyFlag = true ↔ s.tree.root = none := by
  simp [State.emptyFlag, State.rootv]

/-- Bits from 4 on hold `ERR` and nothing else (R17). -/
theorem status_getLsbD_err (s : State) (i : Nat) : s.status.getLsbD (4 + i) = s.err.getLsbD i := by
  rw [status_getLsbD]
  simp [show 4 + i ≠ 2 by omega, show 4 + i ≠ 1 by omega]

/-- Settles O11: each field is read off the bits of `STATUS`. -/
theorem statusFieldsReadTheirMeaning : Obligations.StatusFieldsReadTheirMeaning := by
  intro s
  have hbit := status_getLsbD s
  refine ⟨by rw [hbit]; simp [State.busy], ?_, ?_, by rw [hbit]; simp, ?_, ?_⟩
  · rw [← emptyFlag_iff, hbit]; simp
  · rw [← degenFlag_iff, hbit]; simp
  · refine BitVec.eq_of_getLsbD_eq fun i hi => ?_
    rw [BitVec.getLsbD_extractLsb', status_getLsbD_err]
    simp [hi]
  · refine BitVec.eq_of_getLsbD_eq fun i _ => ?_
    have herr : s.err.getLsbD (3 + i) = false := BitVec.getLsbD_of_ge _ _ (by omega)
    rw [BitVec.getLsbD_extractLsb', show 7 + i = 4 + (3 + i) by omega, status_getLsbD_err, herr]
    simp

/-- Settles O17: the reset state is a closed term. -/
theorem resetStateIsAsSpecified : Obligations.ResetStateIsAsSpecified := by
  refine ⟨rfl, rfl, readLi_empty, fun a => ?_, rfl, rfl, rfl, rfl, rfl⟩
  simp [State.reset, readFreq]

theorem readFreq_set (f : FreqTable) (a b : Byte) (v : Word) :
    readFreq (f.set a.toNat v a.isLt) b = if a = b then v else readFreq f b := by
  simp only [readFreq, Vector.getElem_set, BitVec.toNat_inj]

/-- The register number of a symbol is in the range of `FREQ`, and names the entry of the symbol (R30, R31). -/
theorem freqReg (a : Byte) : a.setWidth 10 ≤ (0x0FF : RegNum) ∧ (a.setWidth 10).setWidth 8 = a := by
  constructor
  · have := a.isLt
    simp [BitVec.le_def]; omega
  · simp

theorem hostRead_freqReg (a : Byte) (s : State) : hostRead (a.setWidth 10) s = readFreq s.freq a := by
  rw [hostRead, if_pos (freqReg a).1, (freqReg a).2]

theorem hostWrite_freqReg (a : Byte) (v : Word) (s : State) : hostWrite (a.setWidth 10) v s = s.setFreq a v := by
  rw [hostWrite, if_pos (freqReg a).1, (freqReg a).2]

/-- Settles O12: a host access to a symbol's register is an access to its `FREQ` entry. -/
theorem freqReadsWhatWasLastWritten : Obligations.FreqReadsWhatWasLastWritten := by
  intro s a b v
  simp only [hostRead_freqReg, hostWrite_freqReg, State.setFreq_freq, readFreq_set]
  exact ⟨trivial, rfl⟩

end Sys2Proof.Machine
end

section
/-! PROOFS. A tree that keeps R23 as a shape: one path for each cell, and a shape with a node for each path (R26). -/

namespace Sys2Proof.Machine

theorem TreeState.atPath_eq {t : TreeState} {r : NodeIdx} (hr : t.root = some r) (c : List Bool) :
    t.atPath c = followPath t.nodes c r := by
  simp [TreeState.atPath, hr]

theorem TreeState.shape_eq {t : TreeState} {r : NodeIdx} (hr : t.root = some r) :
    t.shape = shapeAt t.nodes Config.nodeCap r := by
  simp [TreeState.shape, hr]

/-- The root of a tree is the last cell in use, and the only root of its forest. -/
theorem TreeInv.root_spec {t : TreeState} (h : TreeInv t) {r : NodeIdx} (hr : t.root = some r) :
    r.toNat + 1 = t.nodes.length ∧ Forest t.nodes [r] := by
  refine ⟨h.last r hr, ?_⟩
  simpa [hr] using h.forest

/-- The root of a tree has a shape. -/
theorem TreeInv.shapeAt_root {t : TreeState} (h : TreeInv t) {r : NodeIdx} (hr : t.root = some r) :
    ∃ sh, shapeAt t.nodes Config.nodeCap r = some sh := by
  obtain ⟨hlast, hf⟩ := h.root_spec hr
  have hcap := hf.cap
  obtain ⟨sh, hsh⟩ := exists_shapeAt hf (k := r) (by omega)
  exact ⟨sh, hsh _ (by omega)⟩

/-- Settles O29: `exists_path`, `path_length_le` and `path_unique` from the root. -/
theorem everyCellHasOnePath : Obligations.EveryCellHasOnePath := by
  intro t h k hk
  cases hr : t.root with
  | none => simp [h.absent.mp hr] at hk
  | some r =>
    obtain ⟨-, hf⟩ := h.root_spec hr
    obtain ⟨c, hc⟩ := exists_path hf hk
    simp only [t.atPath_eq hr]
    exact ⟨c, hc, path_length_le hf hc, fun d hd => path_unique hf hc hd⟩

/-! ## The paths of a shape -/

namespace Shape

theorem symbols_length (t : Shape) : t.symbols.length = t.internals + 1 := by
  induction t with
  | leaf v => rfl
  | node l r ihl ihr => simp only [symbols, internals, List.length_append]; omega

theorem size_eq (t : Shape) : t.size = 2 * t.internals + 1 := by
  induction t with
  | leaf v => rfl
  | node l r ihl ihr => simp only [size, internals]; omega

/-- The paths to the nodes of a shape, in preorder. -/
def paths : Shape → List (List Bool)
  | .leaf _ => [[]]
  | .node l r => [] :: (l.paths.map (List.cons false) ++ r.paths.map (List.cons true))

theorem paths_length (t : Shape) : t.paths.length = t.size := by
  induction t with
  | leaf v => rfl
  | node l r ihl ihr => simp [paths, size, ihl, ihr]

theorem mem_paths {t : Shape} {c : List Bool} : c ∈ t.paths ↔ ∃ u, t.sub c = some u := by
  induction t generalizing c with
  | leaf v => cases c <;> simp [paths, sub]
  | node l r ihl ihr =>
    cases c with
    | nil => simp [paths, sub]
    | cons b c => cases b <;> simp [paths, sub, ihl, ihr]

theorem paths_nodup (t : Shape) : t.paths.Nodup := by
  induction t with
  | leaf v => simp [paths]
  | node l r ihl ihr =>
    have hinj : ∀ b : Bool, Function.Injective (List.cons b) := fun b _ _ h => (List.cons.inj h).2
    refine List.nodup_cons.mpr ⟨by simp, List.Nodup.append (ihl.map (hinj _)) (ihr.map (hinj _)) ?_⟩
    simp [List.disjoint_left]

end Shape

/-! ## The paths of a tree are those of its shape -/

/-- Each step of a path leads to a cell of a smaller index (R23 item 3). -/
theorem followPath_add_length_le {nodes : List Node} {roots : List NodeIdx} (h : Forest nodes roots) {c : List Bool}
    {k j : NodeIdx} (hc : followPath nodes c k = some j) : j.toNat + c.length ≤ k.toNat := by
  induction c generalizing k with
  | nil =>
    simp only [followPath] at hc
    split_ifs at hc
    cases hc; simp
  | cons b c ih =>
    obtain ⟨nd, h1, h2, h3⟩ := followPath_cons.mp hc
    have hlt := (child_links h h1 h2 b).1
    have hle := ih h3
    simp only [List.length_cons]; omega

/-- A path leads to a cell of a single tree exactly when it leads to the shape of that cell in the shape of the tree. -/
theorem sub_eq_some_iff {nodes : List Node} {roots : List NodeIdx} (h : Forest nodes roots) {r : NodeIdx} {sh : Shape}
    (hsh : shapeAt nodes Config.nodeCap r = some sh) (c : List Bool) (u : Shape) :
    sh.sub c = some u ↔ ∃ j, followPath nodes c r = some j ∧ shapeAt nodes Config.nodeCap j = some u := by
  obtain ⟨nd, hnd, -⟩ := shapeAt_succ_eq_some.mp hsh
  have hr := lt_of_getElem? hnd
  have hcap := h.cap
  rw [sub_shapeAt hsh]
  refine exists_congr fun j => and_congr_right fun hj => ?_
  have hle := followPath_add_length_le h hj
  obtain ⟨v, hv⟩ := exists_shapeAt h (followPath_lt hj)
  rw [hv _ (by omega), hv _ (by omega)]
  exact and_iff_right (by omega)

theorem mem_paths_iff {nodes : List Node} {roots : List NodeIdx} (h : Forest nodes roots) {r : NodeIdx} {sh : Shape}
    (hsh : shapeAt nodes Config.nodeCap r = some sh) (c : List Bool) :
    c ∈ sh.paths ↔ ∃ j, followPath nodes c r = some j := by
  rw [Shape.mem_paths]
  constructor
  · rintro ⟨u, hu⟩
    obtain ⟨j, hj, -⟩ := (sub_eq_some_iff h hsh c u).mp hu
    exact ⟨j, hj⟩
  · rintro ⟨j, hj⟩
    obtain ⟨u, hu⟩ := exists_shapeAt h (followPath_lt hj)
    have hlt := followPath_lt hj
    have hcap := h.cap
    exact ⟨u, (sub_eq_some_iff h hsh c u).mpr ⟨j, hj, hu _ (by omega)⟩⟩

/-- A single tree has as many cells as its shape has nodes: its paths are a bijection between them. -/
theorem shape_size_eq_length {nodes : List Node} {r : NodeIdx} (h : Forest nodes [r]) {sh : Shape}
    (hsh : shapeAt nodes Config.nodeCap r = some sh) : sh.size = nodes.length := by
  have hcap := h.cap
  simp only [Config.nodeCap] at hcap
  have hpaths : (sh.paths.map fun c => followPath nodes c r).Nodup := by
    refine List.Nodup.map_on (fun c hc d hd heq => ?_) sh.paths_nodup
    obtain ⟨j, hj⟩ := (mem_paths_iff h hsh c).mp hc
    exact path_unique h (heq ▸ hj) hj
  have hcells : ((List.range nodes.length).map fun n => some (idx n)).Nodup := by
    refine List.Nodup.map_on (fun m hm n hn heq => ?_) List.nodup_range
    rw [List.mem_range] at hm hn
    exact (idx_inj (by omega) (by omega)).mp (Option.some.inj heq)
  have hperm := (List.perm_ext_iff_of_nodup hpaths hcells).mpr fun o => by
    simp only [List.mem_map, List.mem_range]
    constructor
    · rintro ⟨c, hc, rfl⟩
      obtain ⟨j, hj⟩ := (mem_paths_iff h hsh c).mp hc
      exact ⟨j.toNat, followPath_lt hj, by rw [hj, idx_of_toNat]⟩
    · rintro ⟨n, hn, rfl⟩
      obtain ⟨c, hc⟩ := exists_path h (k := idx n) (by rwa [idx_toNat (by omega)])
      exact ⟨c, (mem_paths_iff h hsh c).mpr ⟨_, hc⟩, hc⟩
  simpa [Shape.paths_length] using hperm.length_eq

theorem shapeAt_eq_leaf {nodes : List Node} {n : Nat} {k : NodeIdx} {v : Byte} :
    shapeAt nodes (n + 1) k = some (.leaf v) ↔ ∃ nd, nodes[k.toNat]? = some nd ∧ nd.leaf = true ∧ nd.sym = v := by
  simp only [shapeAt_succ_eq_some, Shape.leaf.injEq, reduceCtorEq, and_false, exists_false, or_false, eq_comm (a := v)]

/-- Settles O30: the shape of the root, counted by its paths. -/
theorem treeHasItsShape : Obligations.TreeHasItsShape := by
  intro t h hroot
  obtain ⟨r, hr⟩ := Option.ne_none_iff_exists'.mp hroot
  obtain ⟨hlast, hf⟩ := h.root_spec hr
  obtain ⟨sh, hsh⟩ := h.shapeAt_root hr
  have hsize := shape_size_eq_length hf hsh
  have hint := sh.size_eq
  have hsym := sh.symbols_length
  have hcap := hf.cap
  simp only [Config.nodeCap] at hcap
  refine ⟨sh, (t.shape_eq hr).trans hsh, hsize.trans h.nnode.symm, by omega, by omega, fun c v => ?_⟩
  rw [sub_eq_some_iff hf hsh]
  simp only [TreeState.leafAtPath, t.atPath_eq hr, TreeState.node?, shapeAt_eq_leaf, exists_and_left]

/-! ## Codewords and streams of a tree -/

/-- A symbol with a leaf has a codeword (R58). -/
theorem TreeInv.exists_isCodeword {t : TreeState} (h : TreeInv t) (hroot : t.root ≠ none) {a : Byte} {k : NodeIdx}
    (hk : readLi t.li a = some k) : ∃ c, t.IsCodeword a c := by
  obtain ⟨nd, hnd, -⟩ := h.indexed.named a k hk
  obtain ⟨r, hr⟩ := Option.ne_none_iff_exists'.mp hroot
  obtain ⟨c, hc⟩ := exists_path (h.root_spec hr).2 (lt_of_getElem? hnd)
  exact ⟨c, k, hk, (t.atPath_eq hr c).trans hc⟩

/-- ENCODE's walk finds the codeword of a symbol (R58, R81). -/
theorem TreeInv.codeword_of_isCodeword {t : TreeState} (h : TreeInv t) {a : Byte} {c : List Bool}
    (hc : t.IsCodeword a c) : t.root ≠ none ∧ ∃ k, readLi t.li a = some k ∧ codeword t.nodes k = some c := by
  obtain ⟨k, hk, hpath⟩ := hc
  cases hr : t.root with
  | none => simp [TreeState.atPath, hr] at hpath
  | some r =>
    obtain ⟨-, hf⟩ := h.root_spec hr
    rw [t.atPath_eq hr] at hpath
    have hlen := path_length_le hf hpath
    refine ⟨by simp, k, hk, ?_⟩
    rw [codeword, walkUp_of_path hf hpath _ (by simp only [Config.nodeCap]; omega), List.append_nil]

theorem execEncode_of_empty {s : State} (h : s.tree.root = none) (a : Byte) :
    execEncode a s = .next (s.raise .emptyTree) := by
  rw [execEncode, if_pos h]

theorem execEncode_of_unregistered {s : State} (h : s.tree.root ≠ none) {a : Byte} (hk : readLi s.tree.li a = none) :
    execEncode a s = .next (s.raise .notFound) := by
  rw [execEncode, if_neg h, hk]

theorem execEncode_of_isCodeword {s : State} (h : TreeInv s.tree) {a : Byte} {c : List Bool}
    (hc : s.tree.IsCodeword a c) : execEncode a s = .next (sendCodeword (BitVec.ofNat 8 c.length) c s) := by
  obtain ⟨hroot, k, hk, hword⟩ := h.codeword_of_isCodeword hc
  simp only [execEncode, if_neg hroot, hk, hword]

theorem execSerialize_of_empty {s : State} (h : s.tree.root = none) : execSerialize s = .next s.done := by
  simp only [execSerialize, h]

theorem execSerialize_of_shapeAt {s : State} {r : NodeIdx} {sh : Shape} (hr : s.tree.root = some r)
    (hsh : shapeAt s.tree.nodes Config.nodeCap r = some sh) : execSerialize s = .next (sendEvents sh.stream s) := by
  simp only [execSerialize, hr, serEvents_eq, hsh, Option.map_some]

end Sys2Proof.Machine
end

section
/-! PROOFS. The tree DESERIALIZE leaves for a shape (R102, R106, R108): its cells are built as a forest, leaf by leaf and
join by join. -/

namespace Sys2Proof.Machine

/-! ## The cells of a shape -/

namespace Shape

@[simp] theorem cells_length (t : Shape) (base : Nat) (parent : Option NodeIdx) :
    (t.cells base parent).length = t.size := by
  induction t generalizing base parent with
  | leaf v => rfl
  | node l r ihl ihr => simp only [cells, size, List.length_append, List.length_singleton, ihl, ihr]; omega

theorem freq_of_mem_cells {t : Shape} {base : Nat} {parent : Option NodeIdx} {nd : Node}
    (h : nd ∈ t.cells base parent) : nd.freq = 0 := by
  induction t generalizing base parent with
  | leaf v => simp only [cells, List.mem_singleton] at h; rw [h]
  | node l r ihl ihr =>
    simp only [cells, List.mem_append, List.mem_singleton] at h
    rcases h with h | h | rfl
    · exact ihl h
    · exact ihr h
    · rfl

/-- Only the last of the cells, the subtree's root, depends on the parent. -/
theorem cells_eq_concat (t : Shape) (base : Nat) : ∃ front root,
    t.cells base none = front ++ [root] ∧ ∀ p, t.cells base (some p) = front ++ [adopted p root] := by
  cases t with
  | leaf v => exact ⟨[], _, rfl, fun _ => rfl⟩
  | node l r =>
    exact ⟨_, _, (List.append_assoc _ _ _).symm, fun _ => (List.append_assoc _ _ _).symm⟩

end Shape

theorem adopt_append_cons (p k : NodeIdx) {front : List Node} (hk : k.toNat = front.length) (nd : Node)
    (rest : List Node) : adopt p k (front ++ nd :: rest) = front ++ adopted p nd :: rest := by
  rw [adopt, hk]
  clear hk
  induction front with
  | nil => rfl
  | cons a front ih => exact congrArg (a :: ·) ih

/-- Adopting the root of a subtree gives the cells of the subtree below that parent. -/
theorem adopt_cells (p : NodeIdx) (pre post : List Node) (t : Shape) (h : pre.length + t.size ≤ 511) :
    adopt p (idx (pre.length + t.size - 1)) (pre ++ t.cells pre.length none ++ post) =
      pre ++ t.cells pre.length (some p) ++ post := by
  obtain ⟨front, root, hnone, hsome⟩ := t.cells_eq_concat pre.length
  have hsize := t.cells_length pre.length none
  rw [hnone, List.length_append, List.length_singleton] at hsize
  have hk : (idx (pre.length + t.size - 1)).toNat = (pre ++ front).length := by
    rw [idx_toNat (by omega), List.length_append]; omega
  have := adopt_append_cons p _ hk root post
  rw [hnone, hsome]
  simpa using this

/-- Joining the roots of two subtrees gives the cells of the node over them (R102). -/
theorem join_cells (nodes : List Node) (l r : Shape) (h : nodes.length + l.size + r.size ≤ 510) :
    join 0 (idx (nodes.length + l.size - 1)) (idx (nodes.length + l.size + r.size - 1))
        (nodes ++ l.cells nodes.length none ++ r.cells (nodes.length + l.size) none) =
      nodes ++ (Shape.node l r).cells nodes.length none := by
  have hl := fun p => adopt_cells p nodes (r.cells (nodes.length + l.size) none) l (by omega)
  have hr := fun p => adopt_cells p (nodes ++ l.cells nodes.length (some p)) [] r
    (by simp only [List.length_append, Shape.cells_length]; omega)
  simp only [List.length_append, Shape.cells_length, List.append_nil] at hr
  have hlen : (nodes ++ l.cells nodes.length none ++ r.cells (nodes.length + l.size) none).length =
      nodes.length + l.size + r.size := by simp only [List.length_append, Shape.cells_length]
  rw [join, hlen, hl, hr]
  simp [Shape.cells, internalNode]

/-- Appended to a forest, the cells of a shape are one more tree, with its leaves registered (R102, R108). -/
theorem forest_cells (t : Shape) {nodes : List Node} {roots : List NodeIdx} {li : LeafIndex} (hf : Forest nodes roots)
    (hli : Indexed nodes li) (hsize : nodes.length + t.size ≤ 511) :
    Forest (nodes ++ t.cells nodes.length none) (idx (nodes.length + t.size - 1) :: roots) ∧
      Indexed (nodes ++ t.cells nodes.length none) (t.register nodes.length li) := by
  induction t generalizing nodes roots li with
  | leaf v =>
    simp only [Shape.size] at hsize
    exact ⟨forest_leaf hf v 0 (by omega), indexed_leaf hli v 0 (by omega)⟩
  | node l r ihl ihr =>
    simp only [Shape.size] at hsize
    obtain ⟨hfl, hlil⟩ := ihl hf hli (by omega)
    obtain ⟨hfr, hlir⟩ := ihr hfl hlil (by simp; omega)
    simp only [List.length_append, Shape.cells_length] at hfr hlir
    rw [← join_cells nodes l r (by omega)]
    refine ⟨?_, indexed_join hlir 0 _ _⟩
    have hjoin := forest_join (forest_perm hfr (List.Perm.swap _ _ _)) 0 (by simp; omega)
    have hlen : (nodes ++ l.cells nodes.length none ++ r.cells (nodes.length + l.size) none).length =
        nodes.length + (l.node r).size - 1 := by
      simp only [List.length_append, Shape.cells_length, Shape.size]; omega
    rwa [hlen] at hjoin

theorem treeInv_toTree {t : Shape} (h : t.internals ≤ Config.maxInternal) : TreeInv t.toTree := by
  have hsize := t.size_eq
  simp only [Config.maxInternal] at h
  obtain ⟨hf, hli⟩ := forest_cells t forest_nil indexed_nil (by simp; omega)
  simp only [List.nil_append, List.length_nil, Nat.zero_add] at hf hli
  refine ⟨?_, ?_, ?_, hf, hli⟩
  · simp [Shape.toTree]; omega
  · have hne : t.cells 0 none ≠ [] := List.ne_nil_of_length_pos (by simp; omega)
    simp [Shape.toTree, hne]
  · rintro r ⟨⟩
    simp only [Shape.toTree, Shape.cells_length]
    rw [idx_toNat (by omega)]; omega

/-- Settles O43: `treeInv_toTree`, with the cells counted by `cells_length`. -/
theorem deserializedTreeKeepsInvariant : Obligations.DeserializedTreeKeepsInvariant := by
  intro sh h
  have hsize := sh.size_eq
  have hsym := sh.symbols_length
  refine ⟨treeInv_toTree h, ?_, fun k nd hk => Shape.freq_of_mem_cells (List.mem_of_getElem? hk)⟩
  simp only [Shape.toTree, Shape.cells_length]; omega

end Sys2Proof.Machine
end

section
/-! PROOFS. The invariant: every step from a state that satisfies it leads to a next state that satisfies it (R23, R19,
R110, R52). -/

namespace Sys2Proof.Machine

/-! ## What each way a command can leave the state needs to keep the invariant -/

theorem errKind_code_ne_reserved (e : ErrKind) : e.code ≠ 7 := by
  cases e <;> decide

/-- The invariant speaks of the tree state, `ERR` and the command in progress alone. -/
theorem inv_of_same {s t : State} (h : Inv s) (htree : t.tree = s.tree) (herr : t.err = s.err)
    (hrun : t.running = s.running) : Inv t :=
  ⟨htree ▸ h.tree, herr ▸ h.err, fun r hr => htree ▸ h.running r (hrun ▸ hr)⟩

theorem inv_of_idle {s : State} (htree : TreeInv s.tree) (herr : s.err ≠ 7) (hrun : s.running = none) : Inv s :=
  ⟨htree, herr, by simp [hrun]⟩

theorem inv_raise {s : State} (h : TreeInv s.tree) (e : ErrKind) : Inv (s.raise e) :=
  inv_of_idle h (errKind_code_ne_reserved e) rfl

theorem inv_done {s : State} (h : TreeInv s.tree) : Inv s.done :=
  inv_of_idle h (by simp) rfl

theorem inv_setRunning {s : State} (h : Inv s) {r : Running} (hr : RunningInv s.tree r) : Inv (s.setRunning r) :=
  ⟨h.tree, h.err, by rintro _ ⟨⟩; exact hr⟩

theorem inv_of_sourceOnly {s u : State} (h : Inv s) (hu : SourceOnly s u) : Inv u := by
  obtain ⟨x, n, rfl⟩ := hu
  exact inv_of_same h rfl rfl rfl

theorem treeInv_empty : TreeInv TreeState.empty :=
  ⟨rfl, by simp [TreeState.empty], by simp [TreeState.empty], forest_nil, indexed_nil⟩

theorem inv_applyReset (s : State) : Inv (applyReset s) :=
  inv_of_idle treeInv_empty (by simp [applyReset, State.reset]) rfl

theorem inv_emit {α : Type} {ev : α → Event} {wait : List α → Running} {fin : State → State} {s : State} (h : Inv s)
    (hwait : ∀ rest, RunningInv s.tree (wait rest)) (hfin : ∀ u, Inv u → Inv (fin u)) (l : List α) :
    Inv (emit ev wait fin l s) := by
  obtain ⟨sent, rest, p, -, hcase⟩ := emit_cases ev wait fin l s
  have htook : Inv (s.sinkTook (sent.map ev) p) := inv_of_same h rfl rfl rfl
  rcases hcase with ⟨-, heq⟩ | ⟨-, heq⟩ | ⟨-, heq⟩ <;> rw [heq]
  · exact hfin _ htook
  · exact inv_raise htook.tree _
  · exact inv_setRunning htook (hwait rest)

/-- A record that has been read keeps the invariant. -/
theorem inv_settle {s : State} (h : Inv s) {a : Absorbed} (hmore : ∀ st, a = .more st → StagingInv st)
    (hwhole : ∀ t, a = .whole t → TreeInv t) : Inv (settle a s) := by
  cases a with
  | more st => exact inv_setRunning h (hmore st rfl)
  | whole t => exact inv_done (hwhole t rfl)
  | tooLarge => exact inv_raise h.tree _

/-! ## The commands answer a next state that keeps the invariant -/

/-- The outcome is a next state that satisfies the invariant. -/
def AnswersInv (o : Host.Outcome State Fault Refusal) : Prop := ∃ t, o = .next t ∧ Inv t

theorem answersInv_next {t : State} (h : Inv t) : AnswersInv (.next t) := ⟨t, rfl, h⟩

theorem inv_sendCodeword {s : State} (h : Inv s) (len : Byte) (bits : List Bool) : Inv (sendCodeword len bits s) :=
  inv_emit (wait := fun rest => .encode rest len) h (fun _ => trivial)
    (fun u hu => inv_done (s := u.setClen len) hu.tree) bits

theorem inv_sendEvents {s : State} (h : Inv s) (es : List Event) : Inv (sendEvents es s) :=
  inv_emit (wait := .serialize) h (fun _ => trivial) (fun _ hu => inv_done hu.tree) es

theorem descendLoop_answersInv {s : State} (h : Inv s) (n : Nat) {k : NodeIdx} (hk : k.toNat < s.tree.nodes.length) :
    AnswersInv (descendLoop n k s) := by
  obtain ⟨u, hu, hcase⟩ := descendLoop_cases h.tree.forest n hk
  have hinv := inv_of_sourceOnly h hu
  rcases hcase with ⟨v, heq⟩ | ⟨e, heq, -⟩ | ⟨j, heq, hj⟩ <;> rw [heq]
  · exact answersInv_next (inv_done (s := u.setRsym v) hinv.tree)
  · exact answersInv_next (inv_raise hinv.tree e)
  · refine answersInv_next (inv_setRunning hinv ?_)
    obtain ⟨x, m, rfl⟩ := hu
    simpa [RunningInv, TreeState.node?] using hj

theorem desLoop_answersInv {s : State} (h : Inv s) (n : Nat) {st : Staging} (hst : StagingInv st) :
    AnswersInv (desLoop n st s) := by
  obtain ⟨u, hu, hcase⟩ := desLoop_cases n hst s
  have hinv := inv_of_sourceOnly h hu
  rcases hcase with ⟨t, heq, ht, -⟩ | ⟨e, heq, -⟩ | ⟨st', heq, hst'⟩ <;> rw [heq]
  · exact answersInv_next (inv_done (s := u.commit t) ht)
  · exact answersInv_next (inv_raise hinv.tree e)
  · exact answersInv_next (inv_setRunning hinv hst')

theorem execEncode_answersInv {s : State} (h : Inv s) (a : Byte) : AnswersInv (execEncode a s) := by
  by_cases hroot : s.tree.root = none
  · rw [execEncode_of_empty hroot]
    exact answersInv_next (inv_raise h.tree _)
  · cases hk : readLi s.tree.li a with
    | none =>
      rw [execEncode_of_unregistered hroot hk]
      exact answersInv_next (inv_raise h.tree _)
    | some k =>
      obtain ⟨c, hc⟩ := h.tree.exists_isCodeword hroot hk
      rw [execEncode_of_isCodeword h.tree hc]
      exact answersInv_next (inv_sendCodeword h _ c)

theorem execDecode_answersInv {s : State} (h : Inv s) : AnswersInv (execDecode s) := by
  unfold execDecode
  cases hr : s.tree.root with
  | none => exact answersInv_next (inv_raise h.tree _)
  | some r =>
    have hlast := h.tree.last r hr
    exact descendLoop_answersInv h _ (by omega)

theorem execSerialize_answersInv {s : State} (h : Inv s) : AnswersInv (execSerialize s) := by
  cases hr : s.tree.root with
  | none =>
    rw [execSerialize_of_empty hr]
    exact answersInv_next (inv_done h.tree)
  | some r =>
    obtain ⟨sh, hsh⟩ := h.tree.shapeAt_root hr
    rw [execSerialize_of_shapeAt hr hsh]
    exact answersInv_next (inv_sendEvents h _)

theorem inv_readLeaf {s : State} (h : Inv s) (v : Byte) : Inv (readLeaf v s) := by
  unfold readLeaf
  split
  · next st hrun =>
    have hinv := addLeaf_inv (h.running _ hrun) v
    refine inv_settle h (fun st' heq => ?_) (fun t heq => ?_) <;> rw [heq] at hinv <;> exact hinv.1
  · exact h

theorem inv_readInternal {s : State} (h : Inv s) : Inv (readInternal s) := by
  unfold readInternal
  split
  · next st hrun =>
    rcases addInternal_cases (h.running _ hrun) with ⟨heq, -⟩ | ⟨st', heq, hst', -⟩ <;> rw [heq]
    · exact inv_raise h.tree _
    · exact inv_setRunning h hst'
  · exact h

/-- Every instruction answers a next state that keeps the invariant. -/
theorem exec_answersInv {s : State} (h : Inv s) (i : Instr) : AnswersInv (exec i s) := by
  cases i with
  | build => exact answersInv_next (inv_done (buildTree_inv s.freq s.choice))
  | encode a => exact execEncode_answersInv h a
  | decode => exact execDecode_answersInv h
  | serialize => exact execSerialize_answersInv h
  | deserialize => exact desLoop_answersInv h _ stagingInv_fresh
  | tsLeaf v => exact answersInv_next (inv_readLeaf h v)
  | tsInternal => exact answersInv_next (inv_readInternal h)

/-! ## The step -/

theorem resume_answersInv {s : State} (h : Inv s) {r : Running} (hr : RunningInv s.tree r) :
    AnswersInv (resume r s) := by
  cases r with
  | encode rest len => exact answersInv_next (inv_sendCodeword h len rest)
  | decode k => exact descendLoop_answersInv h _ (by simpa [RunningInv, TreeState.node?] using hr)
  | serialize rest => exact answersInv_next (inv_sendEvents h rest)
  | deserialize st => exact desLoop_answersInv h _ hr

theorem acceptCommand_answersInv {s : State} (h : Inv s) (v : Word) : AnswersInv (acceptCommand v s) := by
  cases hd : decodeCommand v with
  | ok i => rw [acceptCommand_of_legal hd]; exact exec_answersInv h i
  | error e => rw [acceptCommand_of_illegal hd]; exact answersInv_next (inv_raise h.tree _)

theorem inv_setPort {s : State} (h : Inv s) (l : List HostInput) : Inv (s.setPort l) := inv_of_same h rfl rfl rfl

theorem inv_hostWrite {s : State} (h : Inv s) (ra : RegNum) (v : Word) : Inv (hostWrite ra v s) := by
  obtain ⟨f, heq⟩ := hostWrite_frame ra v s
  rw [heq]
  exact inv_of_same h rfl rfl rfl

theorem serveIdle_answersInv {s : State} (h : Inv s) : AnswersInv (serveIdle s) := by
  unfold serveIdle
  split
  · exact answersInv_next h
  · exact answersInv_next (inv_of_same h rfl rfl rfl)
  · split_ifs
    · exact acceptCommand_answersInv (inv_setPort h _) _
    · exact answersInv_next (inv_hostWrite (inv_setPort h _) _ _)
  · exact answersInv_next (inv_of_same h rfl rfl rfl)
  · exact answersInv_next (inv_applyReset _)

theorem inv_passHold {s : State} (h : Inv s) (r : Running) : Inv (s.passHold r) := by
  obtain ⟨x, p, n, heq⟩ := passHold_frame r s
  rw [heq]
  exact inv_of_same h rfl rfl rfl

theorem inv_serveBusy {s : State} (h : Inv s) : Inv (serveBusy s) := by
  rcases serveBusy_cases s with ⟨hst, n, heq⟩ | ⟨l, -, heq⟩ <;> rw [heq]
  · exact inv_of_same h rfl rfl rfl
  · exact inv_applyReset _

/-- A step from a state that keeps the invariant answers a next state that keeps it: the host is served with no command
in progress, or beside a stalled one, or the command in progress goes on. -/
theorem step_answersInv {s : State} (h : Inv s) : AnswersInv (step s) := by
  cases hrun : s.running with
  | none => rw [step_of_idle hrun]; exact serveIdle_answersInv h
  | some r =>
    cases hst : s.stalled r with
    | true => rw [step_of_stalled hrun hst]; exact answersInv_next (inv_serveBusy (inv_passHold h r))
    | false => rw [step_of_answered hrun hst]; exact resume_answersInv h (h.running r hrun)

/-- Settles O59: `step_answersInv` at the next state the step leads to. -/
theorem everyStepKeepsInvariant : Obligations.EveryStepKeepsInvariant := by
  intro s t h hst
  obtain ⟨u, hu, hinv⟩ := step_answersInv h
  rw [hst] at hu
  cases hu
  exact hinv

/-- Settles O60: the next state of `step_answersInv`. -/
theorem everyStepFromInvariantAnswersNext : Obligations.EveryStepFromInvariantAnswersNext := by
  intro s h
  obtain ⟨t, ht, -⟩ := step_answersInv h
  exact ⟨t, ht⟩

/-- Settles O58: the empty tree keeps R23, and nothing is in progress. -/
theorem resetKeepsInvariant : Obligations.ResetKeepsInvariant :=
  inv_of_idle treeInv_empty (by simp [State.reset]) rfl

/-- Settles O46: the three ends of DESERIALIZE's loop are the three cases. -/
theorem deserializeCommitsOrKeepsTree : Obligations.DeserializeCommitsOrKeepsTree := by
  intro s
  obtain ⟨u, ⟨x, n, rfl⟩, hcase⟩ := desLoop_cases desTurns stagingInv_fresh s
  rcases hcase with ⟨t, heq, ht, hroot⟩ | ⟨e, heq, he⟩ | ⟨st, heq, -⟩
  · exact ⟨_, heq, .inl ⟨rfl, rfl, ht, hroot⟩⟩
  · refine ⟨_, heq, .inr (.inl ⟨rfl, rfl, ?_⟩)⟩
    rcases he with rfl | rfl | rfl <;> simp [ErrKind.code]
  · exact ⟨_, heq, .inr (.inr ⟨rfl, rfl, st, rfl⟩)⟩

end Sys2Proof.Machine
end

section
/-! PROOFS. Two tree states of the same shape and the same codewords cannot be told apart (R26): a simulation of each
command on the one tree by the same command on the other. -/

namespace Sys2Proof.Machine

/-! ## The two states -/

/-- `t` is `s` but for the tree state and for what a command in progress still has to do. -/
def SameBut (s t : State) : Prop :=
  ∃ r : Option Running, t = { s with tree := t.tree, running := r } ∧ r.isSome = s.running.isSome

/-- Two tree states as R26 relates them. -/
structure Alike (t u : TreeState) : Prop where
  left : TreeInv t
  right : TreeInv u
  shape : t.shape = u.shape
  codewords : ∀ a c, t.IsCodeword a c ↔ u.IsCodeword a c

theorem sameBut_commit (s : State) (u : TreeState) : SameBut s (s.commit u) := ⟨s.running, rfl, rfl⟩

/-! ## What the host reads depends on the shape alone -/

theorem TreeInv.exists_shape {t : TreeState} (h : TreeInv t) {r : NodeIdx} (hr : t.root = some r) :
    ∃ sh, t.shape = some sh := by
  obtain ⟨sh, hsh⟩ := h.shapeAt_root hr
  exact ⟨sh, (t.shape_eq hr).trans hsh⟩

theorem TreeInv.shape_eq_none_iff {t : TreeState} (h : TreeInv t) : t.shape = none ↔ t.root = none := by
  cases hr : t.root with
  | none => simp [TreeState.shape, hr]
  | some r =>
    obtain ⟨sh, hsh⟩ := h.exists_shape hr
    simp [hsh]

/-- `NNODE` is the number of nodes of the shape. -/
theorem TreeInv.nnode_eq_size {t : TreeState} (h : TreeInv t) : t.nnode.toNat = (t.shape.map Shape.size).getD 0 := by
  rw [h.nnode]
  cases hr : t.root with
  | none => simp [TreeState.shape, hr, h.absent.mp hr]
  | some r =>
    obtain ⟨sh, hsh⟩ := h.shapeAt_root hr
    rw [t.shape_eq hr, hsh, Option.map_some, Option.getD_some, shape_size_eq_length (h.root_spec hr).2 hsh]

/-- `STATUS.DEGEN` says that the shape is one leaf. -/
theorem degenFlag_iff_shape (s : State) : s.degenFlag = true ↔ ∃ v, s.tree.shape = some (.leaf v) := by
  rw [degenFlag_iff]
  cases hr : s.tree.root with
  | none => simp [TreeState.shape, hr]
  | some r => simp [TreeState.shape_eq hr, shapeAt_eq_leaf, TreeState.node?]

theorem hostRead_eq_of_sameBut {s t : State} (h : SameBut s t) (ha : Alike s.tree t.tree) (ra : RegNum) :
    hostRead ra s = hostRead ra t := by
  have hnnode : s.tree.nnode = t.tree.nnode :=
    BitVec.eq_of_toNat_eq (by rw [ha.left.nnode_eq_size, ha.right.nnode_eq_size, ha.shape])
  have hempty : s.emptyFlag = t.emptyFlag := by
    rw [Bool.eq_iff_iff, emptyFlag_iff, emptyFlag_iff, ← ha.left.shape_eq_none_iff, ← ha.right.shape_eq_none_iff,
      ha.shape]
  have hdegen : s.degenFlag = t.degenFlag := by
    rw [Bool.eq_iff_iff, degenFlag_iff_shape, degenFlag_iff_shape, ha.shape]
  obtain ⟨r, heq, hbusy⟩ := h
  have hfreq : s.freq = t.freq := by rw [heq]
  have hrsym : s.rsym = t.rsym := by rw [heq]
  have hclen : s.clen = t.clen := by rw [heq]
  have hstatus : s.status = t.status := by
    rw [State.status, State.status, hempty, hdegen, State.busy, State.busy, ← hbusy, heq]
  simp only [hostRead, hnnode, hfreq, hrsym, hclen, hstatus]

/-! ## The channels do not see the tree -/

theorem srcBit_commit (s : State) (u : TreeState) : (s.commit u).srcBit = (s.srcBit.1, s.srcBit.2.commit u) := by
  simp only [State.srcBit, State.commit_chan]
  split <;> rfl

theorem sinkCall_commit (e : Event) (s : State) (u : TreeState) :
    (s.commit u).sinkCall e = ((s.sinkCall e).1, (s.sinkCall e).2.commit u) := by
  simp only [State.sinkCall, State.commit_chan]
  split <;> rfl

theorem emit_commit {α : Type} (ev : α → Event) (wait : List α → Running) {fin : State → State} {u : TreeState}
    (hfin : ∀ s, fin (s.commit u) = (fin s).commit u) (l : List α) (s : State) :
    emit ev wait fin l (s.commit u) = (emit ev wait fin l s).commit u := by
  induction l generalizing s with
  | nil => exact hfin s
  | cons a l ih =>
    simp only [emit, sinkCall_commit]
    generalize s.sinkCall (ev a) = r
    obtain ⟨item, t⟩ := r
    cases item with
    | ok => exact ih t
    | ioFail => rfl
    | hold => rfl

theorem sendCodeword_commit (len : Byte) (bits : List Bool) (s : State) (u : TreeState) :
    sendCodeword len bits (s.commit u) = (sendCodeword len bits s).commit u := by
  unfold sendCodeword
  refine emit_commit _ _ (fun _ => ?_) bits s
  rfl

theorem sendEvents_commit (es : List Event) (s : State) (u : TreeState) :
    sendEvents es (s.commit u) = (sendEvents es s).commit u := by
  unfold sendEvents
  refine emit_commit _ _ (fun _ => ?_) es s
  rfl

theorem emit_tree {α : Type} (ev : α → Event) (wait : List α → Running) {fin : State → State}
    (hfin : ∀ s, (fin s).tree = s.tree) (l : List α) (s : State) : (emit ev wait fin l s).tree = s.tree := by
  obtain ⟨sent, rest, p, -, ⟨-, heq⟩ | ⟨-, heq⟩ | ⟨-, heq⟩⟩ := emit_cases ev wait fin l s <;> simp [heq, hfin]

@[simp] theorem sendCodeword_tree (len : Byte) (bits : List Bool) (s : State) :
    (sendCodeword len bits s).tree = s.tree := by
  unfold sendCodeword
  refine emit_tree _ _ (fun _ => ?_) bits s
  rfl

@[simp] theorem sendEvents_tree (es : List Event) (s : State) : (sendEvents es s).tree = s.tree := by
  unfold sendEvents
  refine emit_tree _ _ (fun _ => ?_) es s
  rfl

/-! ## The commands -/

/-- Both outcomes are next states, the same but for the tree states `t` and `u` and what is left to do. -/
def EndAlike (t u : TreeState) (o o' : Host.Outcome State Fault Refusal) : Prop :=
  ∃ s s', o = .next s ∧ o' = .next s' ∧ s.tree = t ∧ s'.tree = u ∧ SameBut s s'

theorem endAlike_of_commit {s : State} {t u : TreeState} (h : s.tree = t) :
    EndAlike t u (.next s) (.next (s.commit u)) :=
  ⟨s, s.commit u, rfl, rfl, h, rfl, sameBut_commit s u⟩

/-- From two nodes of the same shape the same source leads DECODE to the same end. -/
theorem descendLoop_endAlike (n : Nat) {m : Nat} {s : State} {u : TreeState} {k j : NodeIdx} {sh : Shape}
    (hk : shapeAt s.tree.nodes m k = some sh) (hj : shapeAt u.nodes m j = some sh) :
    EndAlike s.tree u (descendLoop n k s) (descendLoop n j (s.commit u)) := by
  induction n generalizing m s k j sh with
  | zero => exact ⟨_, _, rfl, rfl, rfl, rfl, some (.decode j), rfl, rfl⟩
  | succ n ih =>
    cases m with
    | zero => simp [shapeAt] at hk
    | succ m =>
      obtain ⟨nk, hnk, hkcase⟩ := shapeAt_succ_eq_some.mp hk
      obtain ⟨nj, hnj, hjcase⟩ := shapeAt_succ_eq_some.mp hj
      cases sh with
      | leaf v =>
        obtain ⟨hlk, hsk⟩ : nk.leaf = true ∧ v = nk.sym := by simpa using hkcase
        obtain ⟨hlj, hsj⟩ : nj.leaf = true ∧ v = nj.sym := by simpa using hjcase
        simp only [descendLoop, State.commit_tree, hnk, hnj, hlk, hlj, ← hsk, ← hsj, if_true]
        exact endAlike_of_commit rfl
      | node l r =>
        obtain ⟨hlk, hkl, hkr⟩ : nk.leaf = false ∧ shapeAt s.tree.nodes m nk.left = some l ∧
          shapeAt s.tree.nodes m nk.right = some r := by simpa using hkcase
        obtain ⟨hlj, hjl, hjr⟩ : nj.leaf = false ∧ shapeAt u.nodes m nj.left = some l ∧
          shapeAt u.nodes m nj.right = some r := by simpa using hjcase
        simp only [descendLoop, State.commit_tree, hnk, hnj, hlk, hlj, Bool.false_eq_true, if_false, srcBit_commit]
        obtain ⟨x, c, hsrc⟩ := srcBit_frame s
        have htree : s.srcBit.2.tree = s.tree := by rw [hsrc]
        rw [← htree] at hkl hkr ⊢
        generalize s.srcBit = reply at hkl hkr ⊢
        obtain ⟨reply, w⟩ := reply
        cases reply with
        | got b =>
          cases b with
          | false => exact ih hkl hjl
          | true => exact ih hkr hjr
        | exhausted => exact endAlike_of_commit rfl
        | ioFail => exact endAlike_of_commit rfl
        | withheld => exact ⟨_, _, rfl, rfl, rfl, rfl, some (.decode j), rfl, rfl⟩

section

variable {s : State} {u : TreeState} (h : Alike s.tree u)
include h

theorem Alike.root_eq_none_iff : s.tree.root = none ↔ u.root = none := by
  rw [← h.left.shape_eq_none_iff, ← h.right.shape_eq_none_iff, h.shape]

theorem Alike.encode (a : Byte) : EndAlike s.tree u (execEncode a s) (execEncode a (s.commit u)) := by
  by_cases hroot : s.tree.root = none
  · rw [execEncode_of_empty hroot, execEncode_of_empty (s := s.commit u) (h.root_eq_none_iff.mp hroot)]
    exact endAlike_of_commit rfl
  · have hroot' : u.root ≠ none := mt h.root_eq_none_iff.mpr hroot
    by_cases hc : ∃ c, s.tree.IsCodeword a c
    · obtain ⟨c, hc⟩ := hc
      rw [execEncode_of_isCodeword h.left hc,
        execEncode_of_isCodeword (s := s.commit u) h.right ((h.codewords a c).mp hc), sendCodeword_commit]
      exact endAlike_of_commit (by simp)
    · have hk : readLi s.tree.li a = none := Option.eq_none_iff_forall_ne_some.mpr fun k hk =>
        hc (h.left.exists_isCodeword hroot hk)
      have hk' : readLi u.li a = none := Option.eq_none_iff_forall_ne_some.mpr fun k hk =>
        hc ((h.right.exists_isCodeword hroot' hk).imp fun c => (h.codewords a c).mpr)
      rw [execEncode_of_unregistered hroot hk, execEncode_of_unregistered (s := s.commit u) hroot' hk']
      exact endAlike_of_commit rfl

/-- Both trees are empty, or both have roots, of one shape. -/
theorem Alike.roots : (s.tree.root = none ∧ u.root = none) ∨
    ∃ r q sh, s.tree.root = some r ∧ u.root = some q ∧
      shapeAt s.tree.nodes Config.nodeCap r = some sh ∧ shapeAt u.nodes Config.nodeCap q = some sh := by
  cases hr : s.tree.root with
  | none => exact .inl ⟨rfl, h.root_eq_none_iff.mp hr⟩
  | some r =>
    obtain ⟨q, hq⟩ := Option.ne_none_iff_exists'.mp (mt h.root_eq_none_iff.mpr (by simp [hr]))
    obtain ⟨sh, hsh⟩ := h.left.shapeAt_root hr
    refine .inr ⟨r, q, sh, rfl, hq, hsh, ?_⟩
    rw [← TreeState.shape_eq hq, ← h.shape, TreeState.shape_eq hr, hsh]

theorem Alike.decode : EndAlike s.tree u (execDecode s) (execDecode (s.commit u)) := by
  obtain ⟨hr, hq⟩ | ⟨r, q, sh, hr, hq, hsh, hsh'⟩ := h.roots
  · simp only [execDecode, State.commit_tree, hr, hq]
    exact endAlike_of_commit rfl
  · simp only [execDecode, State.commit_tree, hr, hq]
    exact descendLoop_endAlike _ hsh hsh'

theorem Alike.serialize : EndAlike s.tree u (execSerialize s) (execSerialize (s.commit u)) := by
  obtain ⟨hr, hq⟩ | ⟨r, q, sh, hr, hq, hsh, hsh'⟩ := h.roots
  · rw [execSerialize_of_empty hr, execSerialize_of_empty (s := s.commit u) hq]
    exact endAlike_of_commit rfl
  · rw [execSerialize_of_shapeAt hr hsh, execSerialize_of_shapeAt (s := s.commit u) hq hsh', sendEvents_commit]
    exact endAlike_of_commit (by simp)

end

/-- Settles O57: each command ends alike on both trees, and states that are the same but for alike trees read the
same. -/
theorem sameShapeAndCodewordsAreIndistinguishable : Obligations.SameShapeAndCodewordsAreIndistinguishable := by
  intro s t i a hs ht hshape hcode heq hi
  have halike : Alike s.tree t.tree := ⟨hs, ht, hshape, hcode⟩
  have hcommit : t = s.commit t.tree := heq
  have hend : EndAlike s.tree t.tree (exec i s) (exec i (s.commit t.tree)) := by
    rcases hi with rfl | rfl | rfl
    · exact halike.encode a
    · exact halike.decode
    · exact halike.serialize
  rw [← hcommit] at hend
  obtain ⟨s', t', hs', ht', hstree, httree, hsame⟩ := hend
  have hreads := hostRead_eq_of_sameBut hsame (hstree ▸ httree ▸ halike)
  refine ⟨hostRead_eq_of_sameBut (hcommit ▸ sameBut_commit s t.tree) halike, s', t', hs', ht', ?_⟩
  obtain ⟨r, heq', hbusy⟩ := hsame
  refine ⟨by rw [heq'], by rw [heq'], by rw [heq'], by rw [heq'], ?_, hreads⟩
  rw [State.busy, State.busy, ← hbusy, heq']

end Sys2Proof.Machine
end

section
/-! PROOFS. The host port beside an idle block and beside a stalled command (R31, R32, R40, R62). -/

namespace Sys2Proof.Machine

/-! ## With `BUSY` = 0 (R31) -/

/-- A register number up to 0x0FF is the number of a symbol (R30). -/
theorem regNum_of_le {ra : RegNum} (h : ra.toNat ≤ 0x0FF) :
    ra ≤ (0x0FF : RegNum) ∧ (ra.setWidth 8).toNat = ra.toNat := by
  refine ⟨h, ?_⟩
  rw [BitVec.toNat_setWidth, Nat.mod_eq_of_lt (by omega)]

theorem hostRead_freq (s : State) {ra : RegNum} (h : ra.toNat ≤ 0x0FF) :
    hostRead ra s = s.freq[ra.toNat]'(by omega) := by
  obtain ⟨hle, hra⟩ := regNum_of_le h
  rw [hostRead, if_pos hle, readFreq]
  simp only [hra]

theorem hostWrite_freq (s : State) {ra : RegNum} (h : ra.toNat ≤ 0x0FF) (v : Word) :
    hostWrite ra v s = { s with freq := s.freq.set ra.toNat v (by omega) } := by
  obtain ⟨hle, hra⟩ := regNum_of_le h
  rw [hostWrite, if_pos hle, State.setFreq]
  simp only [hra]

theorem hostWrite_other (s : State) {ra : RegNum} (h : 0x0FF < ra.toNat) (v : Word) : hostWrite ra v s = s := by
  have hgt : ¬ ra ≤ (0x0FF : RegNum) := Nat.not_le_of_lt h
  rw [hostWrite, if_neg hgt]

/-- `STATUS` as read with no command in progress (R17, R31). -/
theorem status_of_idle {s : State} (h : s.running = none) : s.status =
    (s.err.setWidth 32 <<< 4) ||| ((if s.degenFlag then 1 else 0) <<< 2) |||
      ((if s.tree.root = none then 1 else 0) <<< 1) := by
  have hbusy : s.busy = false := by rw [State.busy, h]; rfl
  simp only [State.status, State.flagWord, hbusy, emptyFlag_iff, Bool.false_eq_true, if_false]
  split_ifs <;> simp

/-- A register from `CMD` on reads as the fields of R31. -/
theorem hostRead_other {s : State} (hidle : s.running = none) {ra : RegNum} (h : 0x0FF < ra.toNat) :
    hostRead ra s =
      if ra.toNat = 0x101 then
        (s.err.setWidth 32 <<< 4) ||| ((if s.degenFlag then 1 else 0) <<< 2) |||
          ((if s.tree.root = none then 1 else 0) <<< 1)
      else if ra.toNat = 0x102 then s.rsym.setWidth 32
      else if ra.toNat = 0x103 then s.clen.setWidth 32
      else if ra.toNat = 0x104 then s.tree.nnode.setWidth 32
      else 0 := by
  have hgt : ¬ ra ≤ (0x0FF : RegNum) := Nat.not_le_of_lt h
  have hreg : ∀ n : RegNum, ra = n ↔ ra.toNat = n.toNat := fun _ => BitVec.toNat_inj.symm
  rw [hostRead, if_neg hgt, status_of_idle hidle]
  simp only [hreg, regCmd, regStatus, regRsym, regClen, regNnode, BitVec.reduceToNat]
  by_cases hcmd : ra.toNat = 0x100
  · simp [hcmd]
  · rw [if_neg hcmd]

theorem step_of_read {s : State} (hidle : s.running = none) {ra : RegNum} {l : List HostInput}
    (hport : s.host.port = .read ra :: l) : step s = .next ((s.setPort l).pushReply (hostRead ra s)) := by
  rw [step_of_idle hidle]
  simp only [serveIdle, hport]

theorem step_of_write {s : State} (hidle : s.running = none) {ra : RegNum} {v : Word} {l : List HostInput}
    (hport : s.host.port = .write ra v :: l) :
    step s = if ra = regCmd then acceptCommand v (s.setPort l) else .next (hostWrite ra v (s.setPort l)) := by
  rw [step_of_idle hidle]
  simp only [serveIdle, hport]

theorem step_of_wait {s : State} (hidle : s.running = none) {l : List HostInput} (hport : s.host.port = .wait :: l) :
    step s = .next ((s.setPort l).pushReply (hostRead regStatus s)) := by
  rw [step_of_idle hidle]
  simp only [serveIdle, hport]

/-- Settles O10: one step serves the input at the head of the port, whose value or effect is that of its register's
range. -/
theorem hostPortAccessWhenIdle : Obligations.HostPortAccessWhenIdle := by
  intro s ra l hidle
  have hcmd : ra = regCmd ↔ ra.toNat = 0x100 := BitVec.toNat_inj.symm
  refine ⟨fun hport => ?_, fun v hport => ⟨fun h => ?_, fun h => ?_, fun h => ?_⟩, fun hport => ⟨?_, ?_, ?_⟩⟩
  · rw [step_of_read hidle hport]
    by_cases h : ra.toNat ≤ 0x0FF
    · rw [dif_pos h, hostRead_freq s h]; rfl
    · rw [dif_neg h, hostRead_other hidle (by omega)]; rfl
  · rw [step_of_write hidle hport, if_neg (mt hcmd.mp (by omega)), hostWrite_freq _ h]; rfl
  · rw [step_of_write hidle hport, if_pos (hcmd.mpr h)]; rfl
  · rw [step_of_write hidle hport, if_neg (mt hcmd.mp (by omega)), hostWrite_other _ (by omega)]; rfl
  · exact step_of_wait hidle hport
  · rw [step_of_wait hidle hport]
    exact (step_of_read (s := s.setPort (.read regStatus :: l)) hidle rfl).symm
  · show s.status.getLsbD 0 = false
    rw [status_getLsbD]
    simp [State.busy, hidle]

/-! ## With a command stalled, `BUSY` = 1 (R32, R40) -/

/-- A step of a stalled command and its host moves nothing of the block: no register, not the tree, nothing sent, and
the command stands where it stood. -/
def Unmoved (s t : State) : Prop :=
  t.running = s.running ∧ t.freq = s.freq ∧ t.tree = s.tree ∧ t.err = s.err ∧ t.rsym = s.rsym ∧ t.clen = s.clen ∧
    t.chan.sink = s.chan.sink

theorem unmoved_passHold (r : Running) (s : State) : Unmoved s (s.passHold r) := by
  obtain ⟨x, p, n, heq⟩ := passHold_frame r s
  rw [heq]
  exact ⟨rfl, rfl, rfl, rfl, rfl, rfl, rfl⟩

theorem passHold_host (r : Running) (s : State) : (s.passHold r).host = s.host := by
  obtain ⟨x, p, n, heq⟩ := passHold_frame r s
  rw [heq]

theorem serveBusy_of_write {s : State} {ra : RegNum} {v : Word} {l : List HostInput}
    (hport : s.host.port = .write ra v :: l) : serveBusy s = s.setPort l := by
  simp only [serveBusy, hport]

theorem serveBusy_of_read {s : State} {ra : RegNum} {l : List HostInput} (hport : s.host.port = .read ra :: l) :
    serveBusy s = ((s.setPort l).pushReply (busyReadValue ra s)).tick := by
  simp only [serveBusy, hport]

theorem serveBusy_of_wait {s : State} {l : List HostInput} (hport : s.host.port = .wait :: l) :
    serveBusy s = (s.pushReply (busyReadValue regStatus s)).tick := by
  simp only [serveBusy, hport]

/-- `STATUS` reads `BUSY` = 1 (R32). -/
theorem busyReadValue_status (s : State) : (busyReadValue regStatus s).getLsbD 0 = true := by
  simp [busyReadValue]

/-- Settles O13: the host is served on the state in which one withheld answer has passed. -/
theorem hostAccessWhileBusy : Obligations.HostAccessWhileBusy := by
  intro s r ra l hrun hst
  have hstep := step_of_stalled hrun hst
  have hhost := passHold_host r s
  have hsame : Unmoved s (s.passHold r) := unmoved_passHold r s
  refine ⟨fun v hport => ?_, fun hport => ?_, fun hport => ?_⟩ <;> rw [← hhost] at hport ⊢
  · rw [serveBusy_of_write hport] at hstep
    exact ⟨_, hstep, rfl, hsame⟩
  · rw [serveBusy_of_read hport] at hstep
    refine ⟨_, _, hstep, rfl, ?_, hsame⟩
    rintro rfl
    exact busyReadValue_status _
  · rw [serveBusy_of_wait hport] at hstep
    refine ⟨_, [_], hstep, rfl, by simp, ?_, hsame⟩
    simpa using busyReadValue_status _

/-- A step of a stalled command short of reset serves the host and moves nothing else. -/
theorem step_of_stalled_unmoved {s : State} {r : Running} (hrun : s.running = some r) (hst : s.stalled r = true)
    (hreset : s.host.port.head? ≠ some .reset) : ∃ t, step s = .next t ∧ Unmoved s t := by
  refine ⟨_, step_of_stalled hrun hst, ?_⟩
  rcases serveBusy_cases (s.passHold r) with ⟨hst, n, heq⟩ | ⟨l, hport, -⟩
  · rw [heq]
    exact unmoved_passHold r s
  · rw [passHold_host] at hport
    simp [hport] at hreset

/-- Settles O14: nothing is moved, so the command in progress is the same. -/
theorem stalledCommandKeepsBusy : Obligations.StalledCommandKeepsBusy := by
  intro s r hrun hst hreset
  obtain ⟨t, hstep, hsame, hrest⟩ := step_of_stalled_unmoved hrun hst hreset
  exact ⟨t, hstep, hsame.trans hrun, hrest⟩

end Sys2Proof.Machine
end

section
/-! PROOFS. The channels: what a source reads back (R39, R43), a sink that fails (R38, R41), a call without an answer
(R40). -/

namespace Sys2Proof.Machine

/-! ## Reading back (R39) -/

/-- The bits of a byte are the byte again (R43). -/
theorem byteOfBits_byteBits : ∀ v : Byte, byteOfBits (byteBits v) = v := by
  decide +kernel

/-- A source that holds one event first gives it (R39, R43). -/
theorem gives1_sourceWith (e : Event) {x : Source} (hx : x ≠ .unknown) : (sourceWith [e] x).gives1 e = some x := by
  cases x with
  | script l => cases e <;> simp [sourceWith, eventItem, Source.gives1]
  | adapter l =>
    cases e with
    | bit b => simp [sourceWith, eventBits, Source.gives1]
    | byte v =>
      have hlen : (byteBits v).length = 8 := by simp [byteBits]
      simp [sourceWith, eventBits, Source.gives1, List.take_left' hlen, List.drop_left' hlen, byteOfBits_byteBits, hlen]
  | unknown => exact absurd rfl hx

/-- Settles O6: the source gives the event, so the matching call answers with it. -/
theorem sourceReadsBackWhatWasWritten : Obligations.SourceReadsBackWhatWasWritten := by
  intro s e x hx hsrc
  have hgives : s.chan.source.gives1 e = some x := hsrc ▸ gives1_sourceWith e hx
  cases e with
  | bit b => exact srcBit_of_gives hgives
  | byte v => exact srcByte_of_gives hgives

/-! ## A sink that fails (R38, R41) -/

/-- Settles O41: both commands send a list, and `emit_of_fails` says how that ends. -/
theorem sinkFailureKeepsWhatWasSent : Obligations.SinkFailureKeepsWhatWasSent := by
  intro s j p p' haccepts hfails
  refine ⟨fun a c htree hc hj => ?_, fun sh hsh hj => ?_⟩
  · rw [exec, execEncode_of_isCodeword htree hc, sendCodeword, emit_of_fails _ _ _ _ s j p p' hj haccepts hfails]
    rfl
  · cases hr : s.tree.root with
    | none => simp [TreeState.shape, hr] at hsh
    | some r =>
      rw [TreeState.shape_eq hr] at hsh
      rw [exec, execSerialize_of_shapeAt hr hsh, sendEvents, emit_of_fails _ _ _ _ s j p p' hj haccepts hfails,
        List.map_id]
      rfl

/-! ## A call without an answer (R40) -/

theorem sinkCall_of_withholds {s : State} (h : s.chan.sinkPlan.withholds = true) (e : Event) :
    s.sinkCall e = (.hold, s) := by
  unfold State.sinkCall
  split <;> simp_all [SinkPlan.withholds]

theorem emit_of_withholds {α : Type} (ev : α → Event) (wait : List α → Running) (fin : State → State) {l : List α}
    (hl : l ≠ []) {s : State} (h : s.chan.sinkPlan.withholds = true) :
    emit ev wait fin l s = s.setRunning (wait l) := by
  cases l with
  | nil => exact absurd rfl hl
  | cons a l => simp only [emit, sinkCall_of_withholds h]

theorem srcBit_of_withholds {s : State} (h : s.chan.source.withholds s.choice.fresh false = true)
    (hx : s.chan.source ≠ .unknown) : s.srcBit = (.withheld, s) := by
  unfold State.srcBit
  split <;> simp_all [Source.withholds]

theorem srcByte_of_withholds {s : State} (h : s.chan.source.withholds s.choice.fresh true = true)
    (hx : s.chan.source ≠ .unknown) : s.srcByte = (.withheld, s) := by
  unfold State.srcByte
  split <;> simp_all [Source.withholds]

theorem descendLoop_leaf {s : State} {k : NodeIdx} {nd : Node} (hk : s.tree.nodes[k.toNat]? = some nd)
    (hl : nd.leaf = true) (n : Nat) : descendLoop (n + 1) k s = .next ((s.setRsym nd.sym).done) := by
  simp only [descendLoop, hk, hl, if_true]

theorem descendLoop_internal {s : State} {k : NodeIdx} {nd : Node} (hk : s.tree.nodes[k.toNat]? = some nd)
    (hl : nd.leaf = false) (n : Nat) : descendLoop (n + 1) k s =
      onReply s.srcBit (.decode k) fun b s' => descendLoop n (if b then nd.right else nd.left) s' := by
  simp only [descendLoop, hk, hl, Bool.false_eq_true, if_false]

theorem desLoop_of_withholds {s : State} {st : Staging} (h : s.chan.source.withholds s.choice.fresh st.tag = true)
    (hx : s.chan.source ≠ .unknown) (n : Nat) : desLoop n st s = .next (s.setRunning (.deserialize st)) := by
  cases n with
  | zero => rfl
  | succ n =>
    rw [desLoop]
    cases ht : st.tag <;> rw [ht] at h
    · simp only [srcBit_of_withholds h hx]; rfl
    · simp only [srcByte_of_withholds h hx]; rfl

/-- The command in progress waits on a call of the source, and not of the sink. -/
def AsksSource : Running → Prop
  | .encode _ _ => False
  | .decode _ => True
  | .serialize _ => False
  | .deserialize _ => True

/-- The command in progress stands before a channel call, and not at its end. -/
def AtCall (t : TreeState) : Running → Prop
  | .encode rest _ => rest ≠ []
  | .decode k => ∃ nd, t.node? k = some nd ∧ nd.leaf = false
  | .serialize rest => rest ≠ []
  | .deserialize _ => True

/-- A command whose next call is not answered does nothing (R40). -/
theorem resume_of_stalled {s : State} {r : Running} (hcall : AtCall s.tree r) (hst : s.stalled r = true)
    (hx : AsksSource r → s.chan.source ≠ .unknown) : resume r s = .next (s.setRunning r) := by
  cases r with
  | encode rest len => exact congrArg _ (emit_of_withholds _ _ _ hcall hst)
  | decode k =>
    obtain ⟨nd, hk, hl⟩ := hcall
    rw [resume, descendLoop_internal hk hl, srcBit_of_withholds hst (hx trivial)]
    rfl
  | serialize rest => exact congrArg _ (emit_of_withholds _ _ _ hcall hst)
  | deserialize st => exact desLoop_of_withholds hst (hx trivial) _

theorem execDecode_of_root {s : State} {r : NodeIdx} (hr : s.tree.root = some r) :
    execDecode s = resume (.decode r) s := by
  simp only [execDecode, hr, resume]

theorem execEncode_of_codeword {s : State} (hroot : s.tree.root ≠ none) {a : Byte} {k : NodeIdx} {c : List Bool}
    (hk : readLi s.tree.li a = some k) (hc : codeword s.tree.nodes k = some c) :
    execEncode a s = resume (.encode c (BitVec.ofNat 8 c.length)) s := by
  simp only [execEncode, if_neg hroot, hk, hc, resume]

theorem execSerialize_of_serEvents {s : State} {r : NodeIdx} {es : List Event} (hr : s.tree.root = some r)
    (hes : serEvents s.tree.nodes Config.nodeCap r = some es) : execSerialize s = resume (.serialize es) s := by
  simp only [execSerialize, hr, hes, resume]

theorem Shape.stream_ne_nil (t : Shape) : t.stream ≠ [] := by
  cases t <;> simp [Shape.stream]

theorem serEvents_ne_nil {nodes : List Node} {n : Nat} {k : NodeIdx} {es : List Event}
    (h : serEvents nodes n k = some es) : es ≠ [] := by
  rw [serEvents_eq, Option.map_eq_some_iff] at h
  obtain ⟨sh, -, rfl⟩ := h
  exact sh.stream_ne_nil

/-- Settles O15: each command stands at its first call with all its work before it, and `resume_of_stalled` applies. -/
theorem commandWaitsAtItsFirstCall : Obligations.CommandWaitsAtItsFirstCall := by
  intro s hsrc hsnk
  have hsource : ∀ byte, s.chan.source.withholds s.choice.fresh byte = true := fun _ => by rw [hsrc]; rfl
  have hsink : s.chan.sinkPlan.withholds = true := by rw [hsnk]; rfl
  have hx : s.chan.source ≠ .unknown := by simp [hsrc]
  refine ⟨?_, fun r nd hr hnd hl => ?_, fun a k c hroot hk hc hne => ?_, fun r es hr hes => ?_⟩
  · exact resume_of_stalled (r := .deserialize Staging.fresh) trivial (hsource _) fun _ => hx
  · exact (execDecode_of_root hr).trans (resume_of_stalled ⟨nd, hnd, hl⟩ (hsource _) fun _ => hx)
  · exact (execEncode_of_codeword hroot hk hc).trans (resume_of_stalled hne hsink nofun)
  · exact (execSerialize_of_serEvents hr hes).trans (resume_of_stalled (serEvents_ne_nil hes) hsink nofun)

end Sys2Proof.Machine
end

section
/-! PROOFS. The step of a command in progress whose answer has come (R40, R52). -/

namespace Sys2Proof.Machine

theorem withholds_of_accepts {p q : SinkPlan} {n : Nat} (hn : n ≠ 0) (h : p.accepts n = some q) :
    p.withholds = false := by
  obtain ⟨n, rfl⟩ := Nat.exists_eq_succ_of_ne_zero hn
  unfold SinkPlan.withholds
  split <;> simp_all [SinkPlan.accepts]

theorem withholds_of_gives_bit {x y : Source} {b : Bool} {es : List Event} (h : x.gives (.bit b :: es) = some y)
    (fresh : Nat) (byte : Bool) : x.withholds fresh byte = false := by
  obtain ⟨z, hz, -⟩ := gives_cons.mp h
  unfold Source.gives1 at hz
  split at hz <;> simp_all [Source.withholds]

/-- ENCODE with bits left, and a sink that accepts them. -/
theorem step_encode_of_accepts {s : State} {rest : List Bool} {len : Byte} {p : SinkPlan}
    (hrun : s.running = some (.encode rest len)) (hrest : rest ≠ [])
    (hp : s.chan.sinkPlan.accepts rest.length = some p) :
    step s = .next (((s.sinkTook (rest.map .bit) p).setClen len).done) := by
  have hst : s.stalled (.encode rest len) = false :=
    withholds_of_accepts (mt List.length_eq_zero_iff.mp hrest) hp
  rw [step_of_answered hrun hst, resume, sendCodeword, emit_of_accepts _ _ _ _ _ _ hp]

/-- SERIALIZE with events left, and a sink that accepts them. -/
theorem step_serialize_of_accepts {s : State} {rest : List Event} {p : SinkPlan}
    (hrun : s.running = some (.serialize rest)) (hrest : rest ≠ [])
    (hp : s.chan.sinkPlan.accepts rest.length = some p) :
    step s = .next ((s.sinkTook rest p).done) := by
  have hst : s.stalled (.serialize rest) = false :=
    withholds_of_accepts (mt List.length_eq_zero_iff.mp hrest) hp
  rw [step_of_answered hrun hst, resume, sendEvents, emit_of_accepts _ _ _ _ _ _ hp, List.map_id]

/-- No path in a tree is longer than 255 steps, wherever it starts (R23 item 7). -/
theorem TreeInv.followPath_length_le {t : TreeState} (h : TreeInv t) {d : List Bool} {k j : NodeIdx}
    (hd : followPath t.nodes d k = some j) : d.length ≤ 255 := by
  cases hr : t.root with
  | none =>
    have hlt := followPath_lt hd
    simp [h.absent.mp hr] at hlt
  | some r => exact path_length_le (h.root_spec hr).2 hd

/-- The descent to the end of a path, with turns to spare. -/
theorem resume_decode_of_path {s : State} {k j : NodeIdx} {d : List Bool} {x : Source} (htree : TreeInv s.tree)
    (hpath : followPath s.tree.nodes d k = some j) (hx : s.chan.source.gives (d.map .bit) = some x) :
    ∃ n, resume (.decode k) s = descendLoop (n + 1) j (s.setSource x) := by
  have hlen := htree.followPath_length_le hpath
  refine ⟨510 - d.length, ?_⟩
  rw [← descendLoop_path hpath hx, show d.length + (510 - d.length + 1) = Config.nodeCap by
    simp only [Config.nodeCap]; omega, resume]

/-- DECODE with bits left to a leaf, and a source that gives them. -/
theorem step_decode_of_path {s : State} {k j : NodeIdx} {nd : Node} {d : List Bool} {x : Source}
    (htree : TreeInv s.tree) (hrun : s.running = some (.decode k)) (hd : d ≠ [])
    (hpath : followPath s.tree.nodes d k = some j) (hj : s.tree.node? j = some nd)
    (hl : nd.leaf = true) (hx : s.chan.source.gives (d.map .bit) = some x) :
    step s = .next (((s.setSource x).setRsym nd.sym).done) := by
  have hst : s.stalled (.decode k) = false := by
    obtain ⟨b, d, rfl⟩ := List.exists_cons_of_ne_nil hd
    exact withholds_of_gives_bit hx _ _
  obtain ⟨n, hn⟩ := resume_decode_of_path htree hpath hx
  rw [step_of_answered hrun hst, hn]
  exact descendLoop_leaf (s := s.setSource x) hj hl n

/-- A script that has no answer for now. -/
theorem script_withholds {l : List SrcItem} (hl : l = [] ∨ ∃ l', l = .hold :: l') (fresh : Nat) (byte : Bool) :
    (Source.script l).withholds fresh byte = true := by
  rcases hl with rfl | ⟨l', rfl⟩ <;> rfl

/-- DESERIALIZE with a tag read, and a source that gives the symbol and no more: the symbol is taken as a leaf
record. -/
theorem desLoop_of_symbol {s : State} {st : Staging} {v : Byte} {l : List SrcItem} (htag : st.tag = true)
    (hsrc : s.chan.source = .script (.byte v :: l)) (hl : l = [] ∨ ∃ l', l = .hold :: l') (n : Nat) :
    desLoop (n + 1) st s = .next (settle (st.addLeaf v) (s.setSource (.script l))) := by
  have hcall : s.srcByte = (.got v, s.setSource (.script l)) :=
    srcByte_of_gives (by simp [hsrc, Source.gives1])
  rw [desLoop, if_pos htag, hcall]
  cases ha : st.addLeaf v with
  | more st' =>
    simp only [onReply, ha]
    exact desLoop_of_withholds (s := s.setSource (.script l)) (script_withholds hl _ _) (by simp) n
  | whole t => simp only [onReply, ha]
  | tooLarge => simp only [onReply, ha]

theorem step_deserialize_of_symbol {s : State} {st : Staging} {v : Byte} {l : List SrcItem}
    (hrun : s.running = some (.deserialize st)) (htag : st.tag = true) (hsrc : s.chan.source = .script (.byte v :: l))
    (hl : l = [] ∨ ∃ l', l = .hold :: l') :
    step s = exec (.tsLeaf v) (s.setSource (.script l)) := by
  have hst : s.stalled (.deserialize st) = false := by simp only [State.stalled, hsrc, Source.withholds]
  have hread : readLeaf v (s.setSource (.script l)) = settle (st.addLeaf v) (s.setSource (.script l)) := by
    simp only [readLeaf, State.setSource_running, hrun]
  rw [step_of_answered hrun hst, exec, execTsLeaf, hread]
  exact desLoop_of_symbol htag hsrc hl 1023

/-- DECODE with a bit left to read, beside a silent host: a `hold` entry of the script passes with the step (log 5). -/
theorem step_decode_of_hold {s : State} {k : NodeIdx} {l : List SrcItem} (hrun : s.running = some (.decode k))
    (hsrc : s.chan.source = .script (.hold :: l)) (hport : s.host.port = []) :
    step s = .next (s.setSource (.script l)) := by
  have hst : s.stalled (.decode k) = true := by rw [State.stalled, hsrc]; rfl
  have hpass : s.passHold (.decode k) = s.setSource (.script l) := by
    simp only [State.passHold, State.passSourceHold, hsrc]
  rw [step_of_stalled hrun hst, hpass]
  simp only [serveBusy, State.setSource_host, hport]

theorem script_gives_bits (c : List Bool) (l : List SrcItem) :
    (Source.script (c.map .bit ++ l)).gives (c.map .bit) = some (.script l) := by
  have h := gives_script (c.map .bit) l
  rwa [List.map_map] at h

/-- A DECODE on whose path the source withholds an answer stops at the node before it. -/
theorem exec_decode_of_hold {s : State} {r k : NodeIdx} {nk : Node} {c : List Bool} {l : List SrcItem}
    (htree : TreeInv s.tree) (hr : s.tree.root = some r) (hk : followPath s.tree.nodes c r = some k)
    (hnk : s.tree.node? k = some nk) (hl : nk.leaf = false)
    (hsrc : s.chan.source = .script (c.map .bit ++ .hold :: l)) :
    exec .decode s = .next ((s.setSource (.script (.hold :: l))).setRunning (.decode k)) := by
  have hx : s.chan.source.gives (c.map .bit) = some (.script (.hold :: l)) := hsrc ▸ script_gives_bits c _
  obtain ⟨n, hn⟩ := resume_decode_of_path htree hk hx
  have hcall := descendLoop_internal (s := s.setSource (.script (.hold :: l))) hnk hl n
  rw [exec, execDecode_of_root hr, hn, hcall, srcBit_of_withholds rfl (by simp)]
  rfl

/-- A DECODE with one `hold` entry on its path, beside a silent host, stops before it, waits one step, and ends at the
second (log 5, log 11). -/
theorem decode_with_one_hold {s : State} {c d : List Bool} {v : Byte} {l : List SrcItem} (htree : TreeInv s.tree)
    (hport : s.host.port = []) (hd : d ≠ []) (hleaf : s.tree.leafAtPath (c ++ d) v)
    (hsrc : s.chan.source = .script (c.map .bit ++ .hold :: (d.map .bit ++ l))) :
    ∃ k t, t = (s.setSource (.script (.hold :: (d.map .bit ++ l)))).setRunning (.decode k) ∧
      exec .decode s = .next t ∧ step t = .next (t.setSource (.script (d.map .bit ++ l))) ∧
      step (t.setSource (.script (d.map .bit ++ l))) = .next (((s.setSource (.script l)).setRsym v).done) := by
  obtain ⟨j, nd, hpath, hj, hl, rfl⟩ := hleaf
  cases hr : s.tree.root with
  | none => simp [TreeState.atPath, hr] at hpath
  | some r =>
    rw [TreeState.atPath_eq hr] at hpath
    obtain ⟨k, hk, hkj⟩ := followPath_append.mp hpath
    obtain ⟨nk, hnk, hlk⟩ : ∃ nk, s.tree.node? k = some nk ∧ nk.leaf = false := by
      obtain ⟨b, d, rfl⟩ := List.exists_cons_of_ne_nil hd
      obtain ⟨nk, hnk, hlk, -⟩ := followPath_cons.mp hkj
      exact ⟨nk, hnk, hlk⟩
    exact ⟨k, _, rfl, exec_decode_of_hold htree hr hk hnk hlk hsrc, step_decode_of_hold rfl rfl hport,
      step_decode_of_path htree rfl hd hkj hj hl (script_gives_bits d l)⟩

end Sys2Proof.Machine
end

section
/-! PROOFS. A state whose collaborator withholds answers beside the one in which none is withheld (R40): the two states,
their channel calls, and the loops that make them. -/

namespace Sys2Proof.Machine

/-! ## The two states -/

/-- The entries a script still has; the adapter and an unknown source have none. -/
def Source.entries : Source → Nat
  | .script l => l.length
  | .adapter _ => 0
  | .unknown => 0

def SinkPlan.entries : SinkPlan → Nat
  | .script l => l.length
  | .adapter => 0

/-- `v` is `s` with no answer withheld, but for the host side, the counter of the free values and the command in
progress. The scripts of `s` have at most `m` entries, and its host does not reset. -/
structure Lags (m : Nat) (s v : State) : Prop where
  entries : s.chan.source.entries + s.chan.sinkPlan.entries ≤ m
  noReset : ∀ x ∈ s.host.port, x ≠ .reset
  same : ∃ h n r, v = { s.unheld with host := h, choice := { s.choice with fresh := n }, running := r }

theorem lags_unheld {s : State} (h : ∀ x ∈ s.host.port, x ≠ .reset) :
    Lags (s.chan.source.entries + s.chan.sinkPlan.entries) s s.unheld :=
  ⟨Nat.le_refl _, h, s.host, s.choice.fresh, s.running, rfl⟩

section

variable {m : Nat} {s v : State} (h : Lags m s v)
include h

theorem Lags.tree : v.tree = s.tree := by
  obtain ⟨_, _, _, rfl⟩ := h.same
  rfl

/-- Both commands have ended: the states differ in the host side and the counter alone. -/
theorem Lags.eq_of_idle (hs : s.running = none) (hv : v.running = none) :
    s.unheld = { v with host := s.host, choice := { v.choice with fresh := s.choice.fresh } } := by
  obtain ⟨_, _, r, rfl⟩ := h.same
  obtain rfl : r = none := hv
  simp only [State.unheld, hs]

theorem Lags.done : Lags m s.done v.done := by
  obtain ⟨he, hr, _, _, _, rfl⟩ := h
  exact ⟨he, hr, _, _, _, rfl⟩

theorem Lags.raise (e : ErrKind) : Lags m (s.raise e) (v.raise e) := by
  obtain ⟨he, hr, _, _, _, rfl⟩ := h
  exact ⟨he, hr, _, _, _, rfl⟩

theorem Lags.setRsym (a : Byte) : Lags m (s.setRsym a) (v.setRsym a) := by
  obtain ⟨he, hr, _, _, _, rfl⟩ := h
  exact ⟨he, hr, _, _, _, rfl⟩

theorem Lags.setClen (n : Byte) : Lags m (s.setClen n) (v.setClen n) := by
  obtain ⟨he, hr, _, _, _, rfl⟩ := h
  exact ⟨he, hr, _, _, _, rfl⟩

theorem Lags.commit (t : TreeState) : Lags m (s.commit t) (v.commit t) := by
  obtain ⟨he, hr, _, _, _, rfl⟩ := h
  exact ⟨he, hr, _, _, _, rfl⟩

/-- What is in progress makes no difference. -/
theorem Lags.setRunning (r : Running) : Lags m (s.setRunning r) v := by
  obtain ⟨he, hr, _, _, _, rfl⟩ := h
  exact ⟨he, hr, _, _, _, rfl⟩

/-- Beside a stalled command the host is served and nothing else. -/
theorem Lags.serveBusy : Lags m (serveBusy s) v := by
  obtain ⟨he, hr, _, _, _, rfl⟩ := h
  unfold Machine.serveBusy
  split
  · exact ⟨he, hr, _, _, _, rfl⟩
  · next hport => exact ⟨he, fun x hx => hr x (hport ▸ List.mem_cons_of_mem _ hx), _, _, _, rfl⟩
  · next hport => exact ⟨he, fun x hx => hr x (hport ▸ List.mem_cons_of_mem _ hx), _, _, _, rfl⟩
  · exact ⟨he, hr, _, _, _, rfl⟩
  · next hport => exact absurd rfl (hr .reset (hport ▸ List.mem_cons_self))

end

/-! ## The channels of the two states -/

/-- A sink call is answered alike on both, or withheld on the one. -/
theorem Lags.sinkCall {m : Nat} {s v : State} (h : Lags m s v) (e : Event) :
    (∃ s' v', s.sinkCall e = (.ok, s') ∧ v.sinkCall e = (.ok, v') ∧ Lags m s' v') ∨
      (∃ s' v', s.sinkCall e = (.ioFail, s') ∧ v.sinkCall e = (.ioFail, v') ∧ Lags m s' v') ∨
      s.chan.sinkPlan.withholds = true := by
  obtain ⟨he, hr, _, _, _, rfl⟩ := h
  obtain ⟨_, _, _, _, _, _, _, ⟨src, plan, sink⟩, _⟩ := s
  cases plan with
  | adapter => exact .inl ⟨_, _, rfl, rfl, he, hr, _, _, _, rfl⟩
  | script l =>
    match l with
    | [] => exact .inr (.inr rfl)
    | .hold :: l => exact .inr (.inr rfl)
    | .ok :: l => exact .inl ⟨_, _, rfl, rfl, Nat.le_of_succ_le he, hr, _, _, _, rfl⟩
    | .ioFail :: l => exact .inr (.inl ⟨_, _, rfl, rfl, Nat.le_of_succ_le he, hr, _, _, _, rfl⟩)

/-- What can come of a source call on both states: the same answer; or none on the one, which stays as it was (`byte`
says which call); or on the other a free value. -/
def Replied {α : Type} (m : Nat) (s : State) (byte : Bool) (p q : Reply α × State) : Prop :=
  (p.1 = q.1 ∧ p.1 ≠ .withheld ∧ Lags m p.2 q.2) ∨
    (s.chan.source.withholds s.choice.fresh byte = true ∧ p = (.withheld, s)) ∨ q.2.chan.source = .unknown

theorem Lags.srcBit {m : Nat} {s v : State} (h : Lags m s v) : Replied m s false s.srcBit v.srcBit := by
  obtain ⟨_, _, _, _, _, _, _, ⟨src, plan, sink⟩, _⟩ := s
  obtain ⟨he, hr, _, _, _, rfl⟩ := h
  cases src with
  | unknown => exact .inr (.inr rfl)
  | adapter l =>
    cases l with
    | nil => exact .inl ⟨rfl, nofun, he, hr, _, _, _, rfl⟩
    | cons b l => exact .inl ⟨rfl, nofun, he, hr, _, _, _, rfl⟩
  | script l =>
    have hle : (Source.script l.tail).entries + plan.entries ≤ m :=
      Nat.le_trans (Nat.add_le_add_right (by simp [Source.entries]) _) he
    match l with
    | [] => exact .inr (.inl ⟨rfl, rfl⟩)
    | .hold :: l => exact .inr (.inl ⟨rfl, rfl⟩)
    | .byte _ :: l => exact .inr (.inr rfl)
    | .bit b :: l => exact .inl ⟨rfl, nofun, hle, hr, _, _, _, rfl⟩
    | .exhausted :: l => exact .inl ⟨rfl, nofun, hle, hr, _, _, _, rfl⟩
    | .ioFail :: l => exact .inl ⟨rfl, nofun, hle, hr, _, _, _, rfl⟩

theorem Lags.srcByte {m : Nat} {s v : State} (h : Lags m s v) : Replied m s true s.srcByte v.srcByte := by
  obtain ⟨_, _, _, _, _, _, _, ⟨src, plan, sink⟩, _⟩ := s
  obtain ⟨he, hr, _, _, _, rfl⟩ := h
  cases src with
  | unknown => exact .inr (.inr rfl)
  | adapter l =>
    refine .inl ?_
    simp only [State.srcByte, State.unheld, Source.unheld]
    split_ifs
    · exact ⟨rfl, nofun, he, hr, _, _, _, rfl⟩
    · exact ⟨rfl, nofun, he, hr, _, _, _, rfl⟩
  | script l =>
    have hle : (Source.script l.tail).entries + plan.entries ≤ m :=
      Nat.le_trans (Nat.add_le_add_right (by simp [Source.entries]) _) he
    match l with
    | [] => exact .inr (.inl ⟨rfl, rfl⟩)
    | .hold :: l => exact .inr (.inl ⟨rfl, rfl⟩)
    | .bit _ :: l => exact .inr (.inr rfl)
    | .byte v :: l => exact .inl ⟨rfl, nofun, hle, hr, _, _, _, rfl⟩
    | .exhausted :: l => exact .inl ⟨rfl, nofun, hle, hr, _, _, _, rfl⟩
    | .ioFail :: l => exact .inl ⟨rfl, nofun, hle, hr, _, _, _, rfl⟩

/-! ## DESERIALIZE's loop, call by call -/

/-- DESERIALIZE after a call: it reads on while there is more to read, and ends as `settle` says. -/
def goOn (n : Nat) (a : Absorbed) (s : State) : Host.Outcome State Fault Refusal :=
  match a with
  | .more st => desLoop n st s
  | .whole t => .next (settle (.whole t) s)
  | .tooLarge => .next (settle .tooLarge s)

/-- What a tag leaves to be read: the symbol after tag 1, a subtree after tag 0. -/
def readTag (st : Staging) (b : Bool) : Absorbed := if b then .more { st with tag := true } else st.addInternal

theorem desLoop_at_symbol {st : Staging} (h : st.tag = true) (n : Nat) (s : State) :
    desLoop (n + 1) st s = onReply s.srcByte (.deserialize st) fun v => goOn n (st.addLeaf v) := by
  rw [desLoop, if_pos h]
  congr
  funext v s'
  cases st.addLeaf v <;> rfl

theorem desLoop_at_tag {st : Staging} (h : st.tag = false) (n : Nat) (s : State) :
    desLoop (n + 1) st s = onReply s.srcBit (.deserialize st) fun b => goOn n (readTag st b) := by
  rw [desLoop, if_neg (by simp [h])]
  congr
  funext b s'
  cases b with
  | true => rfl
  | false => unfold readTag; cases st.addInternal <;> rfl

/-! ## A source of which nothing is known stays one -/

theorem onReply_unknown {α : Type} {p : Reply α × State} {wait : Running}
    {go : α → State → Host.Outcome State Fault Refusal} {u : State} (hp : p.2.chan.source = .unknown)
    (hgo : ∀ a s, s.chan.source = .unknown → go a s = .next u → u.chan.source = .unknown)
    (h : onReply p wait go = .next u) : u.chan.source = .unknown := by
  obtain ⟨a, -, heq⟩ | ⟨-, heq⟩ | ⟨-, heq⟩ | ⟨-, heq⟩ := onReply_cases h
  · exact hgo a _ hp heq.symm
  all_goals
    cases heq
    exact hp

theorem srcBit_unknown {s : State} (h : s.chan.source = .unknown) : s.srcBit.2.chan.source = .unknown := by
  simp only [State.srcBit, h, State.tick_chan]

theorem srcByte_unknown {s : State} (h : s.chan.source = .unknown) : s.srcByte.2.chan.source = .unknown := by
  simp only [State.srcByte, h, State.tick_chan]

theorem descendLoop_unknown {n : Nat} {k : NodeIdx} {s u : State} (hs : s.chan.source = .unknown)
    (h : descendLoop n k s = .next u) : u.chan.source = .unknown := by
  induction n generalizing k s with
  | zero =>
    cases h
    exact hs
  | succ n ih =>
    cases hk : s.tree.nodes[k.toNat]? with
    | none => simp [descendLoop, hk] at h
    | some nd =>
      cases hl : nd.leaf with
      | true =>
        rw [descendLoop_leaf hk hl] at h
        cases h
        exact hs
      | false =>
        rw [descendLoop_internal hk hl] at h
        exact onReply_unknown (srcBit_unknown hs) (fun _ _ hs' h' => ih hs' h') h

theorem goOn_unknown_of {n : Nat} {a : Absorbed} {s u : State} (hs : s.chan.source = .unknown)
    (hmore : ∀ st, desLoop n st s = .next u → u.chan.source = .unknown) (h : goOn n a s = .next u) :
    u.chan.source = .unknown := by
  cases a with
  | more st => exact hmore st h
  | whole t =>
    cases h
    exact hs
  | tooLarge =>
    cases h
    exact hs

theorem desLoop_unknown {n : Nat} {st : Staging} {s u : State} (hs : s.chan.source = .unknown)
    (h : desLoop n st s = .next u) : u.chan.source = .unknown := by
  induction n generalizing st s with
  | zero =>
    cases h
    exact hs
  | succ n ih =>
    cases ht : st.tag with
    | true =>
      rw [desLoop_at_symbol ht] at h
      exact onReply_unknown (srcByte_unknown hs) (fun _ _ hs' => goOn_unknown_of hs' fun _ => ih hs') h
    | false =>
      rw [desLoop_at_tag ht] at h
      exact onReply_unknown (srcBit_unknown hs) (fun _ _ hs' => goOn_unknown_of hs' fun _ => ih hs') h

theorem goOn_unknown {n : Nat} {a : Absorbed} {s u : State} (hs : s.chan.source = .unknown)
    (h : goOn n a s = .next u) : u.chan.source = .unknown :=
  goOn_unknown_of hs (fun _ => desLoop_unknown hs) h

theorem resume_unknown {r : Running} (hr : AsksSource r) {s u : State} (hs : s.chan.source = .unknown)
    (h : resume r s = .next u) : u.chan.source = .unknown := by
  cases r with
  | encode rest len => exact hr.elim
  | decode k => exact descendLoop_unknown hs h
  | serialize rest => exact hr.elim
  | deserialize st => exact desLoop_unknown hs h

/-! ## More turns lead to the same end -/

/-- Going on otherwise after the reply makes no difference if it leads to the same next state. -/
theorem onReply_mono {α : Type} {p : Reply α × State} {wait : Running}
    {go go' : α → State → Host.Outcome State Fault Refusal} {u : State}
    (hgo : ∀ a s, go a s = .next u → go' a s = .next u) (h : onReply p wait go = .next u) :
    onReply p wait go' = .next u := by
  obtain ⟨reply, s⟩ := p
  cases reply with
  | got a => exact hgo a s h
  | exhausted => exact h
  | ioFail => exact h
  | withheld => exact h

theorem descendLoop_mono {n m : Nat} (hnm : n ≤ m) {k : NodeIdx} {s u : State} (hu : u.running = none)
    (h : descendLoop n k s = .next u) : descendLoop m k s = .next u := by
  induction n generalizing m k s with
  | zero =>
    cases h
    cases hu
  | succ n ih =>
    obtain ⟨m, rfl⟩ : ∃ m', m = m' + 1 := ⟨m - 1, by omega⟩
    cases hk : s.tree.nodes[k.toNat]? with
    | none => simp [descendLoop, hk] at h
    | some nd =>
      cases hl : nd.leaf with
      | true =>
        rw [descendLoop_leaf hk hl] at h ⊢
        exact h
      | false =>
        rw [descendLoop_internal hk hl] at h ⊢
        exact onReply_mono (fun _ _ => ih (Nat.le_of_succ_le_succ hnm)) h

theorem desLoop_mono {n m : Nat} (hnm : n ≤ m) {st : Staging} {s u : State} (hu : u.running = none)
    (h : desLoop n st s = .next u) : desLoop m st s = .next u := by
  induction n generalizing m st s with
  | zero =>
    cases h
    cases hu
  | succ n ih =>
    obtain ⟨m, rfl⟩ : ∃ m', m = m' + 1 := ⟨m - 1, by omega⟩
    have hgo : ∀ {a s}, goOn n a s = .next u → goOn m a s = .next u := by
      intro a s h
      cases a with
      | more st => exact ih (Nat.le_of_succ_le_succ hnm) h
      | whole t => exact h
      | tooLarge => exact h
    cases ht : st.tag with
    | true =>
      rw [desLoop_at_symbol ht] at h ⊢
      exact onReply_mono (fun _ _ => hgo) h
    | false =>
      rw [desLoop_at_tag ht] at h ⊢
      exact onReply_mono (fun _ _ => hgo) h

end Sys2Proof.Machine
end

section
/-! PROOFS. A command that had to wait for answers ends as if it had not (R40, R52): the run in which answers are
withheld is followed beside the one in which none is. -/

namespace Sys2Proof.Machine

/-! ## A command catches up with the one no answer is withheld from -/

/-- From `v` the command `r` ends in `u`, and asks no source for what it does not hold. -/
structure Ends (r : Running) (v u : State) : Prop where
  resumed : resume r v = .next u
  idle : u.running = none
  known : AsksSource r → u.chan.source ≠ .unknown

/-- The command `r` is in progress in `t`, stands before a call that has no answer yet, and would end in `u` if none
were withheld. -/
def Waits (m : Nat) (r : Running) (t u : State) : Prop :=
  t.running = some r ∧ AtCall t.tree r ∧ t.stalled r = true ∧ ∃ v, Lags m t v ∧ Ends r v u

/-- A command that would end in `u` if no answer were withheld has ended there, or waits. -/
def CatchesUp (m : Nat) (u : State) (o : Host.Outcome State Fault Refusal) : Prop :=
  ∃ t, o = .next t ∧ ((t.running = none ∧ Lags m t u) ∨ ∃ r, Waits m r t u)

theorem catchesUp_of_idle {m : Nat} {t u : State} (ht : t.running = none) (h : Lags m t u) :
    CatchesUp m u (.next t) := ⟨t, rfl, .inl ⟨ht, h⟩⟩

theorem catchesUp_of_waits {m : Nat} {r : Running} {s v u : State} (hcall : AtCall s.tree r)
    (hst : s.stalled r = true) (h : Lags m s v) (hend : Ends r v u) : CatchesUp m u (.next (s.setRunning r)) :=
  ⟨_, rfl, .inr ⟨r, rfl, hcall, by cases r <;> exact hst, v, h.setRunning r, hend⟩⟩

theorem emit_catchesUp {α : Type} {ev : α → Event} {wait : List α → Running} {fin : State → State} {m : Nat}
    {s v u : State} {l : List α} (h : Lags m s v) (hfin : ∀ {s v}, Lags m s v → Lags m (fin s) (fin v))
    (hidle : ∀ s, (fin s).running = none)
    (hwait : ∀ {a l s v}, s.chan.sinkPlan.withholds = true → Lags m s v → emit ev wait fin (a :: l) v = u →
      CatchesUp m u (.next (s.setRunning (wait (a :: l)))))
    (hu : emit ev wait fin l v = u) : CatchesUp m u (.next (emit ev wait fin l s)) := by
  induction l generalizing s v with
  | nil =>
    subst hu
    exact catchesUp_of_idle (hidle s) (hfin h)
  | cons a l ih =>
    obtain ⟨s', v', hs, hv, h'⟩ | ⟨s', v', hs, hv, h'⟩ | hw := h.sinkCall (ev a)
    · simp only [emit, hs, hv] at hu ⊢
      exact ih h' hu
    · simp only [emit, hs, hv] at hu ⊢
      subst hu
      exact catchesUp_of_idle rfl (h'.raise _)
    · simp only [emit_of_withholds ev wait fin (l := a :: l) (by simp) hw]
      exact hwait hw h hu

theorem onReply_catchesUp {α : Type} {m : Nat} {s u : State} {byte : Bool} {p q : Reply α × State} {wait : Running}
    {go go' : α → State → Host.Outcome State Fault Refusal} (hreply : Replied m s byte p q)
    (hwait : s.chan.source.withholds s.choice.fresh byte = true → CatchesUp m u (.next (s.setRunning wait)))
    (hunknown : q.2.chan.source ≠ .unknown)
    (hgo : ∀ a s' v', Lags m s' v' → go' a v' = .next u → CatchesUp m u (go a s'))
    (hend : onReply q wait go' = .next u) : CatchesUp m u (onReply p wait go) := by
  obtain ⟨reply, s'⟩ := p
  obtain ⟨reply', v'⟩ := q
  obtain ⟨heq, hne, h⟩ | ⟨hw, heq⟩ | hx := hreply
  · obtain rfl : reply = reply' := heq
    cases reply with
    | got a => exact hgo a s' v' h hend
    | exhausted =>
      cases hend
      exact catchesUp_of_idle rfl (h.raise _)
    | ioFail =>
      cases hend
      exact catchesUp_of_idle rfl (h.raise _)
    | withheld => exact absurd rfl hne
  · rw [heq]
    exact hwait hw
  · exact absurd hx hunknown

theorem descendLoop_catchesUp {m n : Nat} (hn : n ≤ Config.nodeCap) {k : NodeIdx} {s v u : State} (h : Lags m s v)
    (hidle : u.running = none) (hknown : u.chan.source ≠ .unknown) (hend : descendLoop n k v = .next u) :
    CatchesUp m u (descendLoop n k s) := by
  induction n generalizing k s v with
  | zero =>
    cases hend
    cases hidle
  | succ n ih =>
    have htree := h.tree
    cases hk : s.tree.nodes[k.toNat]? with
    | none => simp [descendLoop, htree, hk] at hend
    | some nd =>
      have hk' : v.tree.nodes[k.toNat]? = some nd := by rw [htree, hk]
      cases hl : nd.leaf with
      | true =>
        rw [descendLoop_leaf hk' hl] at hend
        cases hend
        rw [descendLoop_leaf hk hl]
        exact catchesUp_of_idle rfl (h.setRsym nd.sym).done
      | false =>
        have hends : Ends (.decode k) v u := ⟨descendLoop_mono hn hidle hend, hidle, fun _ => hknown⟩
        rw [descendLoop_internal hk' hl] at hend
        rw [descendLoop_internal hk hl]
        refine onReply_catchesUp h.srcBit (fun hw => catchesUp_of_waits ⟨nd, hk, hl⟩ hw h hends) (fun hx => ?_)
          (fun b s' v' h' => ih (by omega) h') hend
        exact hknown (onReply_unknown hx (fun _ _ => descendLoop_unknown) hend)

theorem desLoop_catchesUp {m n : Nat} (hn : n ≤ desTurns) {st : Staging} {s v u : State} (h : Lags m s v)
    (hidle : u.running = none) (hknown : u.chan.source ≠ .unknown) (hend : desLoop n st v = .next u) :
    CatchesUp m u (desLoop n st s) := by
  induction n generalizing st s v with
  | zero =>
    cases hend
    cases hidle
  | succ n ih =>
    have hends : Ends (.deserialize st) v u := ⟨desLoop_mono hn hidle hend, hidle, fun _ => hknown⟩
    have hwait : s.chan.source.withholds s.choice.fresh st.tag = true →
        CatchesUp m u (.next (s.setRunning (.deserialize st))) := fun hw => catchesUp_of_waits trivial hw h hends
    have hgo : ∀ a s' v', Lags m s' v' → goOn n a v' = .next u → CatchesUp m u (goOn n a s') := by
      intro a s' v' h' hend'
      cases a with
      | more st' => exact ih (by omega) h' hend'
      | whole t =>
        cases hend'
        exact catchesUp_of_idle rfl (h'.commit t).done
      | tooLarge =>
        cases hend'
        exact catchesUp_of_idle rfl (h'.raise _)
    cases ht : st.tag with
    | true =>
      rw [desLoop_at_symbol ht] at hend ⊢
      refine onReply_catchesUp h.srcByte (fun hw => hwait (ht ▸ hw)) (fun hx => ?_) (fun _ => hgo _) hend
      exact hknown (onReply_unknown hx (fun _ _ => goOn_unknown) hend)
    | false =>
      rw [desLoop_at_tag ht] at hend ⊢
      refine onReply_catchesUp h.srcBit (fun hw => hwait (ht.symm ▸ hw)) (fun hx => ?_) (fun _ => hgo _) hend
      exact hknown (onReply_unknown hx (fun _ _ => goOn_unknown) hend)

/-- A command that goes on from where it stood ends, or waits, as the one no answer is withheld from. -/
theorem resume_catchesUp {m : Nat} {r : Running} {s v u : State} (h : Lags m s v) (hend : Ends r v u) :
    CatchesUp m u (resume r s) := by
  obtain ⟨hresumed, hidle, hknown⟩ := hend
  cases r with
  | encode rest len =>
    refine emit_catchesUp h (fun h' => (h'.setClen len).done) (fun _ => rfl) (fun hw h' hu => ?_)
      (Host.Outcome.next.inj hresumed)
    exact catchesUp_of_waits (r := .encode _ len) (List.cons_ne_nil _ _) hw h' ⟨congrArg _ hu, hidle, nofun⟩
  | decode k => exact descendLoop_catchesUp (Nat.le_refl _) h hidle (hknown trivial) hresumed
  | serialize rest =>
    refine emit_catchesUp h Lags.done (fun _ => rfl) (fun hw h' hu => ?_) (Host.Outcome.next.inj hresumed)
    exact catchesUp_of_waits (r := .serialize _) (List.cons_ne_nil _ _) hw h' ⟨congrArg _ hu, hidle, nofun⟩
  | deserialize st => exact desLoop_catchesUp (Nat.le_refl _) h hidle (hknown trivial) hresumed

/-! ## The steps of a command that waits -/

/-- A sink that withholds its answer has an entry for that, or withholds it from both. -/
theorem Lags.passSinkHold {m : Nat} {s v : State} (h : Lags m s v) (hw : s.chan.sinkPlan.withholds = true) :
    v.chan.sinkPlan.withholds = true ∨ ∃ k < m, Lags k s.passSinkHold v := by
  obtain ⟨_, _, _, _, _, _, _, ⟨src, plan, sink⟩, _⟩ := s
  obtain ⟨he, hr, _, _, _, rfl⟩ := h
  cases plan with
  | adapter => cases hw
  | script l =>
    match l with
    | [] => exact .inl rfl
    | .hold :: l => exact .inr ⟨_, he, Nat.le_refl _, hr, _, _, _, rfl⟩
    | .ok :: l => cases hw
    | .ioFail :: l => cases hw

/-- A known source that withholds its answer has an entry for that, or withholds it from both. -/
theorem Lags.passSourceHold {m : Nat} {s v : State} {byte : Bool} (h : Lags m s v)
    (hw : s.chan.source.withholds s.choice.fresh byte = true) (hx : v.chan.source ≠ .unknown) :
    v.chan.source.withholds v.choice.fresh byte = true ∨ ∃ k < m, Lags k s.passSourceHold v := by
  obtain ⟨_, _, _, _, _, _, _, ⟨src, plan, sink⟩, _⟩ := s
  obtain ⟨he, hr, _, _, _, rfl⟩ := h
  cases src with
  | unknown => exact absurd rfl hx
  | adapter l => cases hw
  | script l =>
    match l with
    | [] => exact .inl rfl
    | .hold :: l =>
      refine .inr ⟨(Source.script l).entries + plan.entries, ?_, Nat.le_refl _, hr, _, _, _, rfl⟩
      exact Nat.lt_of_lt_of_le (Nat.add_lt_add_right (Nat.lt_succ_self _) _) he
    | .bit _ :: l => cases hw
    | .byte _ :: l => cases hw
    | .exhausted :: l => cases hw
    | .ioFail :: l => cases hw

/-- The channel `r` waits on has withheld its answer for one step, which is one entry fewer of its script: for good it
withholds none, since `r` ends. -/
theorem Lags.passHold {m : Nat} {r : Running} {s v u : State} (h : Lags m s v) (hcall : AtCall s.tree r)
    (hst : s.stalled r = true) (hend : Ends r v u) : ∃ k < m, Lags k (s.passHold r) v := by
  have hknown : AsksSource r → v.chan.source ≠ .unknown := fun hr hx =>
    hend.known hr (resume_unknown hr hx hend.resumed)
  have hpass : v.stalled r = true ∨ ∃ k < m, Lags k (s.passHold r) v := by
    cases r with
    | encode rest len => exact h.passSinkHold hst
    | decode k => exact h.passSourceHold hst (hknown trivial)
    | serialize rest => exact h.passSinkHold hst
    | deserialize st => exact h.passSourceHold hst (hknown trivial)
  refine hpass.resolve_left fun hv => ?_
  have hresumed := hend.resumed
  rw [resume_of_stalled (h.tree.symm ▸ hcall) hv hknown] at hresumed
  cases hresumed
  cases hend.idle

/-- A step of a command that waits leaves it where it stood, with fewer entries before it. -/
theorem step_of_waits {m : Nat} {r : Running} {t u : State} (h : Waits m r t u) :
    ∃ k < m, ∃ t' v, step t = .next t' ∧ t'.running = some r ∧ AtCall t'.tree r ∧ Lags k t' v ∧ Ends r v u := by
  obtain ⟨hrun, hcall, hst, v, hv, hend⟩ := h
  obtain ⟨k, hk, hpass⟩ := hv.passHold hcall hst hend
  have hreset : t.host.port.head? ≠ some .reset := fun hh => hv.noReset _ (List.mem_of_mem_head? hh) rfl
  obtain ⟨t', hstep, hrun', -, htree, -⟩ := step_of_stalled_unmoved hrun hst hreset
  obtain rfl : serveBusy (t.passHold r) = t' := Host.Outcome.next.inj ((step_of_stalled hrun hst).symm.trans hstep)
  exact ⟨k, hk, _, v, hstep, hrun'.trans hrun, htree.symm ▸ hcall, hpass.serveBusy, hend⟩

/-- `t` ends after some steps in the state `u`, but for the host side and the counter of the free values. -/
def RunsTo (t u : State) : Prop :=
  ∃ n w, Sys2Proof.core.run n t = .next w ∧
    w.unheld = { u with host := w.host, choice := { u.choice with fresh := w.choice.fresh } }

theorem RunsTo.of_step {t t' u : State} (hstep : step t = .next t') (h : RunsTo t' u) : RunsTo t u := by
  obtain ⟨n, w, hrun, hw⟩ := h
  exact ⟨n + 1, w, by rw [core_run_of_next hstep, hrun], hw⟩

theorem runsTo_of_idle {m : Nat} {t u : State} (ht : t.running = none) (hu : u.running = none) (h : Lags m t u) :
    RunsTo t u := ⟨0, t, rfl, h.eq_of_idle ht hu⟩

/-- A command that waits ends: every step of it uses up an entry of a script. -/
theorem runsTo_of_waits {m : Nat} {r : Running} {t u : State} (h : Waits m r t u) : RunsTo t u := by
  induction m using Nat.strong_induction_on generalizing r t with
  | _ m ih =>
    obtain ⟨k, hk, t', v, hstep, hrun, hcall, hv, hend⟩ := step_of_waits h
    refine .of_step hstep ?_
    cases hst : t'.stalled r with
    | true => exact ih k hk ⟨hrun, hcall, hst, v, hv, hend⟩
    | false =>
      obtain ⟨w, hresumed, hw⟩ := resume_catchesUp hv hend
      refine .of_step ((step_of_answered hrun hst).trans hresumed) ?_
      obtain ⟨hidle, hw⟩ | ⟨r', hw⟩ := hw
      · exact runsTo_of_idle hidle hend.idle hw
      · exact ih k hk hw

/-! ## The instructions -/

theorem execDecode_of_empty {s : State} (h : s.tree.root = none) : execDecode s = .next (s.raise .emptyTree) := by
  simp only [execDecode, h]

theorem settle_unheld (a : Absorbed) (s : State) : settle a s.unheld = (settle a s).unheld := by
  cases a <;> rfl

theorem readLeaf_unheld (v : Byte) (s : State) : readLeaf v s.unheld = (readLeaf v s).unheld := by
  unfold readLeaf
  rw [show s.unheld.running = s.running from rfl]
  split
  · exact settle_unheld _ s
  · rfl

theorem readInternal_unheld (s : State) : readInternal s.unheld = (readInternal s).unheld := by
  unfold readInternal
  rw [show s.unheld.running = s.running from rfl]
  split
  · exact settle_unheld _ s
  · rfl

/-- How an instruction begins, whether answers are withheld or not: a command with channel calls goes on from its start;
any other instruction is over at once; or the tree breaks R23. -/
theorem exec_unheld_cases (s : State) (i : Instr) :
    (∃ r, exec i s = resume r s ∧ exec i s.unheld = resume r s.unheld ∧
        (AsksSource r → i = .decode ∨ i = .deserialize)) ∨
      (∃ t, exec i s = .next t ∧ exec i s.unheld = .next t.unheld) ∨ exec i s.unheld = .fault .brokenTree := by
  cases i with
  | build => exact .inr (.inl ⟨_, rfl, rfl⟩)
  | encode a =>
    by_cases hroot : s.tree.root = none
    · exact .inr (.inl ⟨_, execEncode_of_empty hroot a, execEncode_of_empty (s := s.unheld) hroot a⟩)
    cases hk : readLi s.tree.li a with
    | none =>
      exact .inr (.inl ⟨_, execEncode_of_unregistered hroot hk, execEncode_of_unregistered (s := s.unheld) hroot hk⟩)
    | some k =>
      cases hc : codeword s.tree.nodes k with
      | none => exact .inr (.inr (by simp only [exec, execEncode, State.unheld, if_neg hroot, hk, hc]))
      | some c =>
        exact .inl ⟨_, execEncode_of_codeword hroot hk hc, execEncode_of_codeword (s := s.unheld) hroot hk hc, nofun⟩
  | decode =>
    cases hr : s.tree.root with
    | none => exact .inr (.inl ⟨_, execDecode_of_empty hr, execDecode_of_empty (s := s.unheld) hr⟩)
    | some r => exact .inl ⟨_, execDecode_of_root hr, execDecode_of_root (s := s.unheld) hr, fun _ => .inl rfl⟩
  | serialize =>
    cases hr : s.tree.root with
    | none => exact .inr (.inl ⟨_, execSerialize_of_empty hr, execSerialize_of_empty (s := s.unheld) hr⟩)
    | some r =>
      cases hes : serEvents s.tree.nodes Config.nodeCap r with
      | none => exact .inr (.inr (by simp only [exec, execSerialize, State.unheld, hr, hes]))
      | some es =>
        exact .inl ⟨_, execSerialize_of_serEvents hr hes, execSerialize_of_serEvents (s := s.unheld) hr hes, nofun⟩
  | deserialize => exact .inl ⟨.deserialize Staging.fresh, rfl, rfl, fun _ => .inr rfl⟩
  | tsLeaf v => exact .inr (.inl ⟨_, rfl, congrArg _ (readLeaf_unheld v s)⟩)
  | tsInternal => exact .inr (.inl ⟨_, rfl, congrArg _ (readInternal_unheld s)⟩)

/-- An instruction that ends if no answer is withheld ends in the same state where some are. -/
theorem exec_runsTo {s u : State} {i : Instr} (hreset : ∀ x ∈ s.host.port, x ≠ .reset)
    (hexec : exec i s.unheld = .next u) (hidle : u.running = none)
    (hknown : i = .decode ∨ i = .deserialize → u.chan.source ≠ .unknown) :
    ∃ t, exec i s = .next t ∧ RunsTo t u := by
  obtain ⟨r, hs, hv, hasks⟩ | ⟨t, hs, hv⟩ | hv := exec_unheld_cases s i <;> rw [hv] at hexec
  · obtain ⟨t, ht, hcase⟩ := resume_catchesUp (lags_unheld hreset) ⟨hexec, hidle, fun hr => hknown (hasks hr)⟩
    refine ⟨t, hs.trans ht, ?_⟩
    obtain ⟨ht', h⟩ | ⟨r', h⟩ := hcase
    · exact runsTo_of_idle ht' hidle h
    · exact runsTo_of_waits h
  · cases hexec
    exact ⟨t, hs, 0, t, rfl, rfl⟩
  · cases hexec

/-- Settles O16: `exec_runsTo`, then the step of each command, then the one `hold` entry. -/
theorem resumedCommandEndsAsUninterrupted : Obligations.ResumedCommandEndsAsUninterrupted := by
  refine ⟨fun s u i hreset hexec hidle hknown => ?_, fun s rest len p hrun hrest hp => ?_,
    fun s rest p hrun hrest hp => ?_, fun s k j nd d x htree hrun hd hpath hj hl hx => ?_,
    fun s st v l hrun htag hsrc hl => ?_, fun s c d v l htree hrun hport hd hleaf hsrc => ?_⟩
  · obtain ⟨t, ht, n, w, hw⟩ := exec_runsTo hreset hexec hidle hknown
    exact ⟨n, t, w, ht, hw⟩
  · exact step_encode_of_accepts hrun hrest hp
  · exact step_serialize_of_accepts hrun hrest hp
  · exact step_decode_of_path htree hrun hd hpath hj hl hx
  · exact step_deserialize_of_symbol hrun htag hsrc hl
  · obtain ⟨k, t, rfl, ht, hu, hend⟩ := decode_with_one_hold htree hport hd hleaf hsrc
    refine ⟨_, _, ht, rfl, rfl, hu, ?_⟩
    rw [hend, hrun]
    rfl

end Sys2Proof.Machine
end

section
/-! PROOFS. The encodings (R50 to R57): which words are commands, which code is which instruction's, and how long the
stream of a tree is. -/

namespace Sys2Proof

/-! ## The checks of R54 and the operation map of R51 -/

/-- The legal command words, field by field (R54). -/
theorem CommandFields.wellFormed_iff (f : CommandFields) : f.wellFormed = true ↔
    f.high = 0 ∧ f.rsv = 0 ∧ (f.op ≠ 0 ∧ f.op ≠ 6 ∧ f.op ≠ 7) ∧ (f.op = 2 ∨ f.sym = 0) := by
  simp [wellFormed, highOk, rsvOk, opOk, symOk, and_assoc]

/-- A value decodes exactly when its fields pass every check, and then as the operation map says. -/
theorem decodeCommand_eq_ok_iff {v : Word} {i : Instr} :
    decodeCommand v = .ok i ↔ (commandFields v).wellFormed = true ∧ decodeOp (commandFields v) = .ok i := by
  simp only [decodeCommand, CommandFields.wellFormed]
  split_ifs <;> simp_all

theorem decodeCommand_of_not_wellFormed {v : Word} (h : (commandFields v).wellFormed ≠ true) :
    ∃ e, decodeCommand v = .error e := by
  cases hd : decodeCommand v with
  | error e => exact ⟨e, rfl⟩
  | ok i => exact absurd (decodeCommand_eq_ok_iff.mp hd).1 h

/-- A command word whose operation and operand pass the checks decodes as the operation map says. -/
theorem decodeCommand_commandWord (op : BitVec 3) (sym : Byte) {i : Instr}
    (hwf : (CommandFields.mk 0 0 op sym).wellFormed = true) (hop : decodeOp (CommandFields.mk 0 0 op sym) = .ok i) :
    decodeCommand (commandWord op sym) = .ok i := by
  rw [decodeCommand_eq_ok_iff, commandFields_commandWord]
  exact ⟨hwf, hop⟩

/-- The operation map read backwards: legal fields are those of the instruction's own word. -/
theorem encode_of_decodeOp {f : CommandFields} {i : Instr} (hsym : f.op = 2 ∨ f.sym = 0) (h : decodeOp f = .ok i) :
    encode i = .command (commandWord f.op f.sym) := by
  have hword : ∀ op : BitVec 3, op ≠ 2 → f.op.toNat = op.toNat → commandWord f.op f.sym = commandWord op 0 := by
    intro op hop hn
    have hf := BitVec.eq_of_toNat_eq hn
    rw [hf, hsym.resolve_left (hf ▸ hop)]
  unfold decodeOp at h
  split at h <;> cases h
  next hn => rw [hword 1 (by decide) hn]; rfl
  next hn => rw [BitVec.eq_of_toNat_eq (y := 2) hn]; rfl
  next hn => rw [hword 3 (by decide) hn]; rfl
  next hn => rw [hword 4 (by decide) hn]; rfl
  next hn => rw [hword 5 (by decide) hn]; rfl

/-! ## Decode of encode, and encode of decode -/

theorem instr_wellFormed (i : Instr) : i.wellFormed = true := by
  cases i <;> simp only [Instr.wellFormed, commandFields_commandWord] <;> rfl

theorem decodeCode_encode (i : Instr) : decodeCode (encode i) = .ok i := by
  cases i with
  | build => exact decodeCommand_commandWord 1 0 rfl rfl
  | encode s => exact decodeCommand_commandWord 2 s rfl rfl
  | decode => exact decodeCommand_commandWord 3 0 rfl rfl
  | serialize => exact decodeCommand_commandWord 4 0 rfl rfl
  | deserialize => exact decodeCommand_commandWord 5 0 rfl rfl
  | tsLeaf v => rfl
  | tsInternal => rfl

/-- Settles O1: constructor by constructor, a command by the fields of its word and a record by its events. -/
theorem decodeOfEncodeIsIdentity : Obligations.DecodeOfEncodeIsIdentity :=
  fun i => ⟨instr_wellFormed i, decodeCode_encode i⟩

theorem decodeCommand_eq_ok_iff_encode {v : Word} {i : Instr} : decodeCommand v = .ok i ↔ encode i = .command v := by
  constructor
  · intro h
    obtain ⟨hwf, hop⟩ := decodeCommand_eq_ok_iff.mp h
    obtain ⟨hhigh, hrsv, -, hsym⟩ := (CommandFields.wellFormed_iff _).mp hwf
    rw [encode_of_decodeOp hsym hop, ← commandWord_of_fields v hhigh hrsv]
  · intro h
    have hcode := decodeCode_encode i
    rwa [h] at hcode

/-! ## The 260 legal words (R55) -/

theorem commandWord_toNat (op : BitVec 3) (sym : Byte) : (commandWord op sym).toNat = 256 * op.toNat + sym.toNat := by
  rw [commandWord, BitVec.toNat_append, ← Nat.shiftLeft_add_eq_or_of_lt sym.isLt, Nat.shiftLeft_eq,
    BitVec.toNat_append]
  simp [Nat.mul_comm]

/-- The words of ENCODE are those of its range. -/
theorem exists_commandWord_encode_iff {v : Word} :
    (∃ s, commandWord 2 s = v) ↔ 0x200 ≤ v ∧ v ≤ 0x2FF := by
  simp only [← BitVec.toNat_inj, commandWord_toNat, BitVec.le_def, BitVec.reduceToNat]
  constructor
  · rintro ⟨s, hs⟩
    have := s.isLt
    omega
  · rintro ⟨hlow, hhigh⟩
    refine ⟨v.setWidth 8, ?_⟩
    rw [BitVec.toNat_setWidth]
    omega

/-- Settles O2: a word that decodes is the encoding of what it decodes to, and the encodings are the rows of R51. -/
theorem legalCommandWordsAreTheTables : Obligations.LegalCommandWordsAreTheTables := by
  refine ⟨fun v i => decodeCommand_eq_ok_iff_encode, fun v => ?_⟩
  simp only [decodeCommand_eq_ok_iff_encode, ← exists_commandWord_encode_iff]
  constructor
  · rintro ⟨i, hi⟩
    cases i with
    | build => cases hi; exact .inl rfl
    | encode s => cases hi; exact .inr (.inl ⟨s, rfl⟩)
    | decode => cases hi; exact .inr (.inr (.inl rfl))
    | serialize => cases hi; exact .inr (.inr (.inr (.inl rfl)))
    | deserialize => cases hi; exact .inr (.inr (.inr (.inr rfl)))
    | tsLeaf v => cases hi
    | tsInternal => cases hi
  · rintro (rfl | ⟨s, rfl⟩ | rfl | rfl | rfl)
    · exact ⟨.build, rfl⟩
    · exact ⟨.encode s, rfl⟩
    · exact ⟨.decode, rfl⟩
    · exact ⟨.serialize, rfl⟩
    · exact ⟨.deserialize, rfl⟩

/-- Settles O3: each word is a closed term. -/
theorem tableWordsDecodeToTheirInstructions : Obligations.TableWordsDecodeToTheirInstructions := by
  unfold Obligations.TableWordsDecodeToTheirInstructions
  decide

end Sys2Proof

namespace Sys2Proof.Machine

/-! ## The stream of a tree in the reference adapter (R57) -/

theorem eventBits_append (es fs : List Event) : eventBits (es ++ fs) = eventBits es ++ eventBits fs :=
  List.flatMap_append

theorem Shape.eventBits_stream_length (t : Shape) :
    (eventBits t.stream).length = 9 * t.symbols.length + t.internals := by
  induction t with
  | leaf v => simp [stream, symbols, internals, eventBits, byteBits]
  | node l r ihl ihr =>
    have hnode : eventBits (Shape.node l r).stream = false :: (eventBits l.stream ++ eventBits r.stream) :=
      congrArg _ (eventBits_append _ _)
    simp only [hnode, symbols, internals, List.length_cons, List.length_append, ihl, ihr]
    omega

/-- Settles O5: the bits of the stream counted along the shape, and one leaf more than internal nodes. -/
theorem treeStreamLength : Obligations.TreeStreamLength := by
  intro t
  have hleaves := t.symbols_length
  have hbits := t.eventBits_stream_length
  exact ⟨hleaves, hbits, by omega⟩

/-! ## The step of a command word (R52, R54) -/

theorem step_of_command {s : State} (hidle : s.running = none) {v : Word} {l : List HostInput}
    (hport : s.host.port = .write regCmd v :: l) : step s = acceptCommand v (s.setPort l) := by
  rw [step_of_write hidle hport, if_pos rfl]

/-- Settles O7: the step accepts the word, which is legal. -/
theorem stepExecutesDecodedCommand : Obligations.StepExecutesDecodedCommand := by
  intro s v l i hidle hport hd
  rw [step_of_command hidle hport, acceptCommand_of_legal hd]
  rfl

/-- Settles O9: each of the four conditions fails a check of R54. -/
theorem illegalCommandWordRaisesInvalidArgument : Obligations.IllegalCommandWordRaisesInvalidArgument := by
  intro s v l hidle hport hbad
  have hwf : (commandFields v).wellFormed ≠ true := by
    rw [Ne, CommandFields.wellFormed_iff]
    rintro ⟨hhigh, hrsv, ⟨h0, h6, h7⟩, hsym⟩
    rcases hbad with h | h | h | h | h | ⟨hop, h⟩
    · exact h hhigh
    · exact h hrsv
    · exact h0 h
    · exact h6 h
    · exact h7 h
    · have h2 : v.extractLsb' 8 3 = 2 := hsym.resolve_right h
      rw [h2] at hop
      exact absurd hop (by decide)
  obtain ⟨e, he⟩ := decodeCommand_of_not_wellFormed hwf
  rw [step_of_command hidle hport, acceptCommand_of_illegal he, hidle]
  rfl

/-! ## The step of a record (R56, R102) -/

/-- After a call of DESERIALIZE, a source with no more to give for now leaves the command as `settle` says. -/
theorem goOn_of_withholds {s : State} {l : List SrcItem} (hsrc : s.chan.source = .script l)
    (hl : l = [] ∨ ∃ l', l = .hold :: l') (n : Nat) (a : Absorbed) : goOn n a s = .next (settle a s) := by
  cases a with
  | more st => exact desLoop_of_withholds (hsrc ▸ script_withholds hl _ _) (by simp [hsrc]) n
  | whole t => rfl
  | tooLarge => rfl

/-- The tag of the next record has come: DESERIALIZE makes of it what `readTag` says. -/
theorem step_deserialize_of_tag {s : State} {st : Staging} {b : Bool} {l : List SrcItem}
    (hrun : s.running = some (.deserialize st)) (htag : st.tag = false) (hsrc : s.chan.source = .script (.bit b :: l)) :
    step s = goOn 1023 (readTag st b) (s.setSource (.script l)) := by
  have hst : s.stalled (.deserialize st) = false := by simp only [State.stalled, hsrc, Source.withholds]
  have hcall : s.srcBit = (.got b, s.setSource (.script l)) := srcBit_of_gives (by simp [hsrc, Source.gives1])
  rw [step_of_answered hrun hst, resume, desLoop_at_tag htag, hcall]
  rfl

theorem readLeaf_of_deserialize {s : State} {st : Staging} (hrun : s.running = some (.deserialize st)) (v : Byte) :
    readLeaf v s = settle (st.addLeaf v) s := by
  simp only [readLeaf, hrun]

theorem readInternal_of_deserialize {s : State} {st : Staging} (hrun : s.running = some (.deserialize st)) :
    readInternal s = settle st.addInternal s := by
  simp only [readInternal, hrun]

theorem step_deserialize_of_leafRecord {s : State} {st : Staging} {v : Byte} {l : List SrcItem}
    (hrun : s.running = some (.deserialize st)) (htag : st.tag = false)
    (hsrc : s.chan.source = .script (.bit true :: .byte v :: l)) (hl : l = [] ∨ ∃ l', l = .hold :: l') :
    step s = exec (.tsLeaf v) (s.setSource (.script l)) := by
  rw [step_deserialize_of_tag hrun htag hsrc, exec, execTsLeaf,
    readLeaf_of_deserialize (s := s.setSource (.script l)) hrun]
  exact desLoop_of_symbol (st := { st with tag := true }) rfl rfl hl 1022

theorem step_deserialize_of_internalRecord {s : State} {st : Staging} {l : List SrcItem}
    (hrun : s.running = some (.deserialize st)) (htag : st.tag = false)
    (hsrc : s.chan.source = .script (.bit false :: l)) (hl : l = [] ∨ ∃ l', l = .hold :: l') :
    step s = exec .tsInternal (s.setSource (.script l)) := by
  rw [step_deserialize_of_tag hrun htag hsrc, exec, execTsInternal,
    readInternal_of_deserialize (s := s.setSource (.script l)) hrun]
  exact goOn_of_withholds rfl hl 1023 st.addInternal

/-- Settles O8: only the two records are coded by events, and each has its step. -/
theorem stepExecutesDecodedRecord : Obligations.StepExecutesDecodedRecord := by
  intro s st i es l hrun htag hcode hsrc hl
  cases i <;> cases hcode
  case tsLeaf v => exact step_deserialize_of_leafRecord hrun htag hsrc hl
  case tsInternal => exact step_deserialize_of_internalRecord hrun htag hsrc hl

end Sys2Proof.Machine
end

section
/-! PROOFS. The priority ordering and `extract_min` (R65 to R68); BUILD completes, and leaves the trees of R71. -/

namespace Sys2Proof.Machine

/-! ## The ordering (R65) -/

theorem lt_irrefl (x : Node) : lt x x = false :=
  Bool.eq_false_iff.mpr fun h => Nat.lt_irrefl _ (orderKey_lt h)

theorem lt_trans {x y z : Node} (hxy : lt x y = true) (hyz : lt y z = true) : lt x z = true := by
  rw [lt_iff] at hxy hyz ⊢
  rcases hxy with hxy | ⟨hfxy, hx, -, hsxy⟩
  · exact .inl (by omega)
  · rcases hyz with hyz | ⟨hfyz, -, hz, hsyz⟩
    · exact .inl (by omega)
    · exact .inr ⟨hfxy.trans hfyz, hx, hz, hsxy.trans hsyz⟩

theorem lt_incomparable_iff (x y : Node) : (lt x y = false ∧ lt y x = false) ↔
    (x.freq = y.freq ∧ ¬(x.leaf = true ∧ y.leaf = true ∧ x.sym ≠ y.sym)) := by
  rw [← Bool.not_eq_true, ← Bool.not_eq_true, lt_iff, lt_iff, Ne, ← BitVec.toNat_inj, ← BitVec.toNat_inj]
  by_cases hx : x.leaf = true
  · by_cases hy : y.leaf = true
    · simp only [hx, hy, true_and]
      omega
    · simp only [hy, Bool.false_eq_true, false_and, and_false, or_false, not_false_eq_true, and_true]
      omega
  · simp only [hx, Bool.false_eq_true, false_and, and_false, or_false, not_false_eq_true, and_true]
    omega

/-- Settles O24: the ordering as a statement about numbers. -/
theorem priorityOrderIsStrictPartial : Obligations.PriorityOrderIsStrictPartial :=
  fun x y _ => ⟨lt_iff x y, lt_irrefl x, lt_trans, lt_incomparable_iff x y⟩

/-! ## `extract_min` (R66, R68) -/

/-- Every element of a set is chosen under some draw. -/
theorem exists_draw {m : List NodeIdx} {k : NodeIdx} (h : k ∈ m) (c : Choices) :
    ∃ d, ∀ ds, ∃ c', choose m { c with draws := d :: ds } = some (k, c') := by
  obtain ⟨d, hd, rfl⟩ := List.mem_iff_getElem.mp h
  refine ⟨d, fun ds => ?_⟩
  match m, hd with
  | [x], hd =>
    obtain rfl : d = 0 := by simpa using hd
    exact ⟨_, rfl⟩
  | x :: y :: rest, hd =>
    refine ⟨{ c with draws := ds }, ?_⟩
    have hmod : d % (rest.length + 2) = d := Nat.mod_eq_of_lt hd
    simp only [choose, draw, hmod, List.getD_eq_getElem _ _ hd]

/-- Settles O25: what an extraction does, and `exists_draw` on the set `M`. -/
theorem extractMinReturnsAnyMinimalElement : Obligations.ExtractMinReturnsAnyMinimalElement := by
  intro b _ hq
  refine ⟨extractMin_isSome hq, fun m b' he => ?_, fun m hm hmin => ?_⟩
  · obtain ⟨hm, hmin, c, rfl⟩ := extractMin_some he
    exact ⟨hm, hmin, rfl, rfl, rfl⟩
  · obtain ⟨d, hd⟩ := exists_draw (mem_minimal.mpr ⟨hm, hmin⟩) b.choice
    refine ⟨d, fun ds => ?_⟩
    obtain ⟨c, hc⟩ := hd ds
    exact ⟨{ b with q := b.q.erase m, choice := c }, by simp only [extractMin, hc]⟩

/-! ## BUILD completes (R75) -/

/-- BUILD leaves the tree that was built, and the draws that are left. -/
theorem exec_build {s : State} {t : TreeState} {c : Choices} (h : buildTree s.freq s.choice = (t, c)) :
    exec .build s = .next { s with tree := t, err := 0, running := none, choice := c } := by
  rw [exec, execBuild, h]
  rfl

/-- Settles O19: BUILD's only outcome, which commits a tree and ends the command. -/
theorem buildAlwaysCompletes : Obligations.BuildAlwaysCompletes :=
  fun _ => ⟨_, exec_build Prod.mk.eta.symm, rfl, rfl, rfl, rfl, rfl, rfl, rfl⟩

theorem exists_exec_build (s : State) :
    ∃ t, exec .build s = .next t ∧ t.err = 0 ∧ t.tree = (buildTree s.freq s.choice).1 :=
  ⟨_, exec_build Prod.mk.eta.symm, rfl, rfl⟩

/-! ## The symbols that occur -/

theorem mem_allSymbols (a : Byte) : a ∈ allSymbols :=
  List.mem_map.mpr ⟨a.toNat, List.mem_range.mpr a.isLt, by simp⟩

theorem allSymbols_sorted : allSymbols.Pairwise (· < ·) := by
  refine List.pairwise_map.mpr (List.pairwise_lt_range.imp_of_mem fun {m n} _ hn hlt => ?_)
  rw [List.mem_range] at hn
  rw [BitVec.lt_def, BitVec.toNat_ofNat, BitVec.toNat_ofNat]
  omega

theorem mem_nonzero {f : FreqTable} {a : Byte} : a ∈ nonzero f allSymbols ↔ readFreq f a ≠ 0 := by
  simp [nonzero, mem_allSymbols]

theorem nonzero_sorted (f : FreqTable) : (nonzero f allSymbols).Pairwise (· < ·) :=
  allSymbols_sorted.filter _

theorem nonzero_nodup (f : FreqTable) : (nonzero f allSymbols).Nodup :=
  (nonzero_sorted f).imp fun hlt => BitVec.ne_of_lt hlt

/-- A sorted list of symbols with the same elements is the same list. -/
theorem nonzero_eq {f : FreqTable} {l : List Byte} (hl : l.Pairwise (· < ·)) (hmem : ∀ a, a ∈ l ↔ readFreq f a ≠ 0) :
    nonzero f allSymbols = l := by
  refine List.Perm.eq_of_pairwise' (nonzero_sorted f) hl ?_
  refine (List.perm_ext_iff_of_nodup (nonzero_nodup f) (hl.imp fun hlt => BitVec.ne_of_lt hlt)).mpr fun a => ?_
  rw [mem_nonzero, hmem]

/-- Step 1 passes over the symbols that do not occur (R70). -/
theorem buildLeaves_eq (f : FreqTable) (c : Choices) : buildLeaves f c =
    (nonzero f allSymbols).foldl (insertSymbol f)
      { nodes := [], li := Vector.replicate 256 none, q := [], choice := c } := by
  rw [nonzero, List.foldl_filter, buildLeaves]
  congr 1
  funext b a
  by_cases ha : readFreq f a = 0
  · simp [ha, insertSymbol]
  · rw [if_pos (bne_iff_ne.mpr ha)]

/-! ## The corner cases (R71) -/

/-- Settles O20: no symbol occurs. -/
theorem buildOfZeroTableGivesEmptyTree : Obligations.BuildOfZeroTableGivesEmptyTree := by
  intro s h
  exact exec_build (buildTree_zero (nonzero_eq .nil (by simp [h])) s.choice)

theorem buildTree_one {f : FreqTable} {a : Byte} (h : nonzero f allSymbols = [a]) (c : Choices) :
    buildTree f c =
      ({ nodes := [leafNode a (leafFreq f a)], root := some 0, li := setLi (Vector.replicate 256 none) a 0,
         nnode := 1 }, c) := by
  have ha : readFreq f a ≠ 0 := mem_nonzero.mp (by simp [h])
  have hleaves : buildLeaves f c =
      { nodes := [leafNode a (leafFreq f a)], li := setLi (Vector.replicate 256 none) a 0, q := [0], choice := c } := by
    rw [buildLeaves_eq, h]
    rw [List.foldl_cons, insertSymbol, if_neg ha]
    rfl
  have hmin : minimal [leafNode a (leafFreq f a)] [0] = [0] := by
    simp [minimal, before, lt_irrefl]
  simp only [buildTree, hleaves, List.length_singleton, mergeAll, le_refl, if_true, extractMin, hmin, choose]
  rfl

/-- Settles O21: step 2 has nothing to do. -/
theorem buildOfOneSymbolGivesOneLeaf : Obligations.BuildOfOneSymbolGivesOneLeaf := by
  intro s a ha hother
  have hone : nonzero s.freq allSymbols = [a] := nonzero_eq (List.pairwise_singleton _ _) fun b => by
    rw [List.mem_singleton]
    exact ⟨fun hb => hb ▸ ha, fun hb => by_contra fun hne => hb (hother b hne)⟩
  exact exec_build (buildTree_one hone s.choice)

end Sys2Proof.Machine
end

section
/-! PROOFS. Step 2 of BUILD, turn by turn, for every tie-break: the cells, the shapes of the trees in the queue and
their frequencies (R70), and what the tree left at the end satisfies (R74). -/

namespace Sys2Proof.Machine

/-! ## Frequencies of cells -/

/-- The frequency of a cell as a number. -/
def freqOf (nodes : List Node) (k : NodeIdx) : Nat := (nodeFreq nodes k).toNat

theorem freqOf_eq {nodes : List Node} {k : NodeIdx} {nd : Node} (h : nodes[k.toNat]? = some nd) :
    freqOf nodes k = nd.freq.toNat := by
  simp only [freqOf, nodeFreq, h]

/-- Of two cells, one that the other does not go before has at most its frequency (R65). -/
theorem freqOf_le_of_not_before {nodes : List Node} {x m : NodeIdx} (hx : x.toNat < nodes.length)
    (hm : m.toNat < nodes.length) (h : before nodes x m = false) : freqOf nodes m ≤ freqOf nodes x := by
  have hnx := List.getElem?_eq_getElem hx
  have hnm := List.getElem?_eq_getElem hm
  simp only [before, hnx, hnm, ← Bool.not_eq_true, lt_iff, not_or, Nat.not_lt] at h
  rw [freqOf_eq hnx, freqOf_eq hnm]
  exact h.1

/-! ## Cells and shapes after a join -/

section Join

variable {f : NodeFreq} {l r : NodeIdx} {nodes : List Node} {roots : List NodeIdx}

/-- A join changes nothing in a cell but its link to its parent. -/
theorem join_getElem?_old {j : Nat} {nd : Node} (h : nodes[j]? = some nd) :
    ∃ pv parent, (join f l r nodes)[j]? = some { nd with pv := pv, parent := parent } := by
  rw [join_getElem?, if_neg (lt_of_getElem? h).ne, h]
  split_ifs
  · exact ⟨true, idx nodes.length, rfl⟩
  · exact ⟨nd.pv, nd.parent, rfl⟩

theorem join_getElem?_new : (join f l r nodes)[nodes.length]? = some (internalNode f l r) := by
  rw [join_getElem?, if_pos rfl]

/-- A cell after a join is the new one, or one as it was up to its link to its parent. -/
theorem new_or_old_of_join {j : Nat} {nd : Node} (h : (join f l r nodes)[j]? = some nd) :
    (j = nodes.length ∧ nd = internalNode f l r) ∨
      ∃ nd0 pv parent, nodes[j]? = some nd0 ∧ nd = { nd0 with pv := pv, parent := parent } := by
  rcases join_getElem?_cases h with hnew | ⟨-, nd0, h0, -⟩
  · exact .inl hnew
  · obtain ⟨pv, parent, h'⟩ := join_getElem?_old (f := f) (l := l) (r := r) h0
    exact .inr ⟨nd0, pv, parent, h0, Option.some.inj (h.symm.trans h')⟩

theorem freqOf_join_old {k : NodeIdx} (h : k.toNat < nodes.length) :
    freqOf (join f l r nodes) k = freqOf nodes k := by
  have hnd := List.getElem?_eq_getElem h
  obtain ⟨pv, parent, h'⟩ := join_getElem?_old (f := f) (l := l) (r := r) hnd
  rw [freqOf_eq h', freqOf_eq hnd]

theorem freqOf_join_new (hn : nodes.length < 511) : freqOf (join f l r nodes) (idx nodes.length) = f.toNat := by
  rw [freqOf_eq (nd := internalNode f l r)]
  · rfl
  · rw [idx_toNat (by omega), join_getElem?_new]

theorem shapeAt_join {n : Nat} {k : NodeIdx} {sh : Shape} (h : shapeAt nodes n k = some sh) :
    shapeAt (join f l r nodes) n k = some sh := by
  induction n generalizing k sh with
  | zero => simp [shapeAt] at h
  | succ n ih =>
    obtain ⟨nd, hnd, hcase⟩ := shapeAt_succ_eq_some.mp h
    obtain ⟨pv, parent, h'⟩ := join_getElem?_old (f := f) (l := l) (r := r) hnd
    refine shapeAt_succ_eq_some.mpr ⟨_, h', hcase.imp_right ?_⟩
    rintro ⟨hl, shl, shr, hleft, hright, rfl⟩
    exact ⟨hl, shl, shr, ih hleft, ih hright, rfl⟩

/-- The shape of the tree at a cell in use. -/
def shapeOf (nodes : List Node) (k : NodeIdx) : Shape := (shapeAt nodes Config.nodeCap k).getD (.leaf 0)

theorem shapeOf_eq {k : NodeIdx} {sh : Shape} (h : shapeAt nodes Config.nodeCap k = some sh) :
    shapeOf nodes k = sh := by
  rw [shapeOf, h, Option.getD_some]

theorem shapeAt_eq_shapeOf (hf : Forest nodes roots) {k : NodeIdx} (hk : k.toNat < nodes.length) {n : Nat}
    (hn : k.toNat < n) : shapeAt nodes n k = some (shapeOf nodes k) := by
  obtain ⟨sh, hsh⟩ := exists_shapeAt hf hk
  rw [hsh n hn, shapeOf_eq (hsh _ (hk.trans_le hf.cap))]

theorem shapeOf_join_old (hf : Forest nodes roots) {k : NodeIdx} (hk : k.toNat < nodes.length) :
    shapeOf (join f l r nodes) k = shapeOf nodes k :=
  shapeOf_eq (shapeAt_join (shapeAt_eq_shapeOf hf hk (hk.trans_le hf.cap)))

theorem shapeOf_join_new (hf : Forest nodes roots) (hn : nodes.length < 511) (hl : l.toNat < nodes.length)
    (hr : r.toNat < nodes.length) :
    shapeOf (join f l r nodes) (idx nodes.length) = .node (shapeOf nodes l) (shapeOf nodes r) := by
  refine shapeOf_eq (shapeAt_succ_eq_some.mpr ⟨internalNode f l r, ?_, .inr ⟨rfl, _, _, ?_, ?_, rfl⟩⟩)
  · rw [idx_toNat (by omega), join_getElem?_new]
  · exact shapeAt_join (shapeAt_eq_shapeOf hf hl (by omega))
  · exact shapeAt_join (shapeAt_eq_shapeOf hf hr (by omega))

end Join

/-! ## One turn of step 2 (R70) -/

/-- The turn from `b` to `b'` joins `l` and `r`, of the least frequencies in the queue, and leaves `rest` beside the new
node. -/
structure Turn (b b' : Build) (l r : NodeIdx) (rest : List NodeIdx) : Prop where
  queue : b.q.Perm (l :: r :: rest)
  nodes : b'.nodes = join (nodeFreq b.nodes l + nodeFreq b.nodes r) l r b.nodes
  queue' : b'.q = rest ++ [idx b.nodes.length]
  first_min : ∀ x ∈ b.q, before b.nodes x l = false
  first_le : freqOf b.nodes l ≤ freqOf b.nodes r
  second_le : ∀ x ∈ rest, freqOf b.nodes r ≤ freqOf b.nodes x
  room : b.nodes.length < 511
  inv' : BuildInv b'

theorem mergeStep_turn {b : Build} (h : BuildInv b) (hq : 2 ≤ b.q.length) :
    ∃ l r rest, Turn b (mergeStep b) l r rest := by
  obtain ⟨l, r, c, hl, hlmin, hr, hrmin, heq⟩ := mergeStep_eq hq
  obtain ⟨hinv', -, -, hlen⟩ := mergeStep_inv h hq
  have hcap : (mergeStep b).nodes.length ≤ 511 := hinv'.forest.cap
  have huse := h.forest.rootsInUse
  have hr' := List.mem_of_mem_erase hr
  refine ⟨l, r, (b.q.erase l).erase r, erase_erase_perm hl hr, by rw [heq], by rw [heq], hlmin, ?_, fun x hx => ?_,
    by omega, hinv'⟩
  · exact freqOf_le_of_not_before (huse r hr') (huse l hl) (hlmin r hr')
  · have hx' := List.mem_of_mem_erase hx
    exact freqOf_le_of_not_before (huse x (List.mem_of_mem_erase hx')) (huse r hr') (hrmin x hx')

/-- What every turn keeps, step 2 keeps. -/
theorem mergeAll_keeps {P : Build → Prop} (hturn : ∀ b, P b → 2 ≤ b.q.length → P (mergeStep b)) (n : Nat) {b : Build}
    (h : P b) : P (mergeAll n b) := by
  induction n generalizing b with
  | zero => exact h
  | succ n ih =>
    rw [mergeAll]
    split_ifs with hq
    · exact h
    · exact ih (hturn b h (by omega))

/-! ## The trees in the queue and the symbols of the table -/

/-- `FREQ[a]` as a number. -/
def weight (f : FreqTable) (a : Byte) : Nat := (readFreq f a).toNat

theorem leafFreq_toNat (f : FreqTable) (a : Byte) : (leafFreq f a).toNat = weight f a := by
  have := (readFreq f a).isLt
  rw [leafFreq, weight, BitVec.toNat_setWidth]
  omega

/-- The sum of all frequencies fits a node's `freq` (R72). -/
theorem sum_weight_lt (f : FreqTable) : ((nonzero f allSymbols).map (weight f)).sum < 2 ^ 40 := by
  have hlen : (nonzero f allSymbols).length ≤ 256 := (List.length_filter_le _ _).trans allSymbols_length.le
  have hsum := List.sum_le_card_nsmul ((nonzero f allSymbols).map (weight f)) (2 ^ 32 - 1) fun x hx => by
    obtain ⟨a, -, rfl⟩ := List.mem_map.mp hx
    exact Nat.le_sub_one_of_lt (readFreq f a).isLt
  rw [List.length_map, smul_eq_mul] at hsum
  omega

/-- The trees in the queue share out the symbols of the table, and the frequency of a root is that of its symbols. -/
structure Grown (f : FreqTable) (b : Build) : Prop where
  inv : BuildInv b
  freq : ∀ k ∈ b.q, freqOf b.nodes k = ((shapeOf b.nodes k).symbols.map (weight f)).sum
  symbols : (b.q.flatMap fun k => (shapeOf b.nodes k).symbols).Perm (nonzero f allSymbols)

/-- The frequencies in the queue always have the same sum. -/
theorem Grown.sum_freqOf {f : FreqTable} {b : Build} (h : Grown f b) :
    (b.q.map (freqOf b.nodes)).sum = ((nonzero f allSymbols).map (weight f)).sum := by
  rw [← (h.symbols.map _).sum_eq, List.map_flatMap, List.flatMap_def, List.sum_flatten, List.map_map,
    List.map_congr_left h.freq]
  rfl

section Turns

variable {f : FreqTable} {b b' : Build} {l r : NodeIdx} {rest : List NodeIdx}

/-- The new node's frequency does not wrap (R72). -/
theorem Grown.toNat_add (h : Grown f b) (ht : Turn b b' l r rest) :
    (nodeFreq b.nodes l + nodeFreq b.nodes r).toNat = freqOf b.nodes l + freqOf b.nodes r := by
  have hsum := h.sum_freqOf
  rw [(ht.queue.map _).sum_eq, List.map_cons, List.map_cons, List.sum_cons, List.sum_cons] at hsum
  have hlt := sum_weight_lt f
  rw [BitVec.toNat_add, ← freqOf, ← freqOf, Nat.mod_eq_of_lt (by omega)]

theorem Grown.freqOf_new (h : Grown f b) (ht : Turn b b' l r rest) :
    freqOf b'.nodes (idx b.nodes.length) = freqOf b.nodes l + freqOf b.nodes r := by
  rw [ht.nodes, freqOf_join_new ht.room, h.toNat_add ht]

theorem Grown.inUse (h : Grown f b) (ht : Turn b b' l r rest) :
    l.toNat < b.nodes.length ∧ r.toNat < b.nodes.length ∧ ∀ k ∈ rest, k.toNat < b.nodes.length := by
  have huse : ∀ k ∈ l :: r :: rest, k.toNat < b.nodes.length := fun k hk =>
    h.inv.forest.rootsInUse k (ht.queue.mem_iff.mpr hk)
  simpa using huse

theorem Grown.freqOf_rest (h : Grown f b) (ht : Turn b b' l r rest) {k : NodeIdx} (hk : k ∈ rest) :
    freqOf b'.nodes k = freqOf b.nodes k := by
  rw [ht.nodes, freqOf_join_old ((h.inUse ht).2.2 k hk)]

theorem Grown.shapeOf_rest (h : Grown f b) (ht : Turn b b' l r rest) {k : NodeIdx} (hk : k ∈ rest) :
    shapeOf b'.nodes k = shapeOf b.nodes k := by
  rw [ht.nodes, shapeOf_join_old h.inv.forest ((h.inUse ht).2.2 k hk)]

theorem Grown.shapeOf_new (h : Grown f b) (ht : Turn b b' l r rest) :
    shapeOf b'.nodes (idx b.nodes.length) = .node (shapeOf b.nodes l) (shapeOf b.nodes r) := by
  obtain ⟨hl, hr, -⟩ := h.inUse ht
  rw [ht.nodes, shapeOf_join_new h.inv.forest ht.room hl hr]

theorem Grown.turn (h : Grown f b) (ht : Turn b b' l r rest) : Grown f b' where
  inv := ht.inv'
  freq k hk := by
    rw [ht.queue', List.mem_append, List.mem_singleton] at hk
    rcases hk with hk | rfl
    · rw [h.freqOf_rest ht hk, h.shapeOf_rest ht hk]
      exact h.freq k (ht.queue.mem_iff.mpr (by simp [hk]))
    · rw [h.freqOf_new ht, h.shapeOf_new ht, Shape.symbols, List.map_append, List.sum_append]
      rw [h.freq l (ht.queue.mem_iff.mpr (by simp)), h.freq r (ht.queue.mem_iff.mpr (by simp))]
  symbols := by
    refine List.Perm.trans ?_ ((ht.queue.flatMap_right _).symm.trans h.symbols)
    rw [ht.queue', List.flatMap_append, List.flatMap_congr fun k hk => by rw [h.shapeOf_rest ht hk]]
    rw [List.flatMap_cons, List.flatMap_nil, List.append_nil, h.shapeOf_new ht, Shape.symbols,
      List.flatMap_cons, List.flatMap_cons, ← List.append_assoc (shapeOf b.nodes l).symbols]
    exact List.perm_append_comm

end Turns

/-! ## Step 1 (R70) -/

/-- What is so of the leaf of each symbol is so of the queue that step 1 leaves. -/
theorem map_buildLeaves_q {α : Type} {f : FreqTable} {c : Choices} {g : NodeIdx → α} {g' : Byte → α}
    (h : ∀ k a, (buildLeaves f c).nodes[k.toNat]? = some (leafNode a (leafFreq f a)) → g k = g' a) :
    (buildLeaves f c).q.map g = (nonzero f allSymbols).map g' := by
  obtain ⟨hnodes, hq, -, hinv⟩ := buildLeaves_spec f c
  have hcap := hinv.forest.cap
  rw [hnodes, List.length_map, Config.nodeCap] at hcap
  rw [hq, List.map_map]
  refine List.ext_getElem (by simp) fun j hj hj' => ?_
  simp only [List.length_map] at hj'
  rw [List.getElem_map, List.getElem_map, List.getElem_range]
  refine h _ _ ?_
  rw [hnodes, idx_toNat (by omega), List.getElem?_map, List.getElem?_eq_getElem hj', Option.map_some]

theorem freqOf_buildLeaves (f : FreqTable) (c : Choices) :
    (buildLeaves f c).q.map (freqOf (buildLeaves f c).nodes) = (nonzero f allSymbols).map (weight f) :=
  map_buildLeaves_q fun _ a hk => (freqOf_eq hk).trans (leafFreq_toNat f a)

theorem shapeOf_buildLeaves (f : FreqTable) (c : Choices) :
    (buildLeaves f c).q.map (shapeOf (buildLeaves f c).nodes) = (nonzero f allSymbols).map .leaf :=
  map_buildLeaves_q fun _ _ hk => shapeOf_eq (shapeAt_eq_leaf.mpr ⟨_, hk, rfl, rfl⟩)

theorem grown_buildLeaves (f : FreqTable) (c : Choices) : Grown f (buildLeaves f c) where
  inv := (buildLeaves_spec f c).2.2.2
  freq := by
    rw [← List.map_inj_left, freqOf_buildLeaves]
    have := congrArg (List.map fun sh => (sh.symbols.map (weight f)).sum) (shapeOf_buildLeaves f c)
    simpa [Function.comp_def, Shape.symbols, eq_comm] using this
  symbols := by
    have := congrArg (List.flatMap Shape.symbols) (shapeOf_buildLeaves f c)
    rw [List.flatMap_map, List.flatMap_map] at this
    rw [this]
    simp [Shape.symbols]

/-! ## The cells of a built tree (R74) -/

/-- The cells are the leaves of step 1, and then nodes joined in non-decreasing order of frequency; the next one joined
will not have a lower frequency. -/
structure Merged (f : FreqTable) (b : Build) : Prop where
  grown : Grown f b
  leaves : ∀ (j : Nat) (a : Byte), (nonzero f allSymbols)[j]? = some a →
    ∃ nd, b.nodes[j]? = some nd ∧ nd.leaf = true ∧ nd.sym = a ∧ nd.freq.toNat = weight f a
  joins : ∀ (p : Nat) (nd : Node), (nonzero f allSymbols).length ≤ p → b.nodes[p]? = some nd →
    nd.leaf = false ∧ nd.freq.toNat = freqOf b.nodes nd.left + freqOf b.nodes nd.right ∧
      freqOf b.nodes nd.left ≤ freqOf b.nodes nd.right
  ascending : ∀ (p p' : Nat) (nd nd' : Node), (nonzero f allSymbols).length ≤ p → p ≤ p' →
    b.nodes[p]? = some nd → b.nodes[p']? = some nd' → nd.freq.toNat ≤ nd'.freq.toNat
  below : ∀ (p : Nat) (nd : Node), (nonzero f allSymbols).length ≤ p → b.nodes[p]? = some nd →
    ∀ x ∈ b.q, ∀ y ∈ b.q, x ≠ y → nd.freq.toNat ≤ freqOf b.nodes x + freqOf b.nodes y

theorem merged_buildLeaves (f : FreqTable) (c : Choices) : Merged f (buildLeaves f c) := by
  obtain ⟨hnodes, -, -, -⟩ := buildLeaves_spec f c
  have hnone : ∀ {p : Nat} {nd : Node}, (nonzero f allSymbols).length ≤ p →
      (buildLeaves f c).nodes[p]? ≠ some nd := fun hp => by
    rw [hnodes, List.getElem?_eq_none (by simpa using hp)]
    simp
  refine ⟨grown_buildLeaves f c, fun j a hj => ?_, fun _ _ hp hnd => absurd hnd (hnone hp),
    fun _ _ _ _ hp _ hnd => absurd hnd (hnone hp), fun _ _ hp hnd => absurd hnd (hnone hp)⟩
  exact ⟨_, by rw [hnodes, List.getElem?_map, hj, Option.map_some], rfl, rfl, leafFreq_toNat f a⟩

section Turns

variable {f : FreqTable} {b b' : Build} {l r : NodeIdx} {rest : List NodeIdx}

/-- Both children of a cell that step 2 has joined stand before it. -/
theorem Merged.freqOf_children (h : Merged f b) (ht : Turn b b' l r rest) {p : Nat} {nd : Node}
    (hp : b.nodes[p]? = some nd) (hl : nd.leaf = false) :
    freqOf b'.nodes nd.left = freqOf b.nodes nd.left ∧ freqOf b'.nodes nd.right = freqOf b.nodes nd.right := by
  obtain ⟨⟨-, _, hleft, -⟩, ⟨-, _, hright, -⟩, -⟩ := h.grown.inv.forest.children p nd hp hl
  rw [ht.nodes]
  exact ⟨freqOf_join_old (lt_of_getElem? hleft), freqOf_join_old (lt_of_getElem? hright)⟩

/-- The new node has the highest frequency of all nodes joined so far. -/
theorem Merged.freq_le_new (h : Merged f b) (ht : Turn b b' l r rest) {p : Nat} {nd : Node}
    (hp : (nonzero f allSymbols).length ≤ p) (hnd : b'.nodes[p]? = some nd) :
    nd.freq.toNat ≤ freqOf b.nodes l + freqOf b.nodes r := by
  rw [ht.nodes] at hnd
  rcases new_or_old_of_join hnd with ⟨-, rfl⟩ | ⟨nd0, pv, parent, h0, rfl⟩
  · exact (h.grown.toNat_add ht).le
  · have hdistinct := ht.queue.nodup_iff.mp h.grown.inv.forest.rootsDistinct
    exact h.below p nd0 hp h0 l (ht.queue.mem_iff.mpr (by simp)) r (ht.queue.mem_iff.mpr (by simp))
      (by rintro rfl; simp at hdistinct)

/-- The next node joined will not have a lower frequency than the new one. -/
theorem Grown.new_le_sum (h : Grown f b) (ht : Turn b b' l r rest) {x y : NodeIdx} (hx : x ∈ b'.q) (hy : y ∈ b'.q)
    (hxy : x ≠ y) : freqOf b.nodes l + freqOf b.nodes r ≤ freqOf b'.nodes x + freqOf b'.nodes y := by
  have hnew := h.freqOf_new ht
  rw [ht.queue', List.mem_append, List.mem_singleton] at hx hy
  rcases hx with hx | rfl
  · rcases hy with hy | rfl
    · have hl := ht.first_le
      have hrx := ht.second_le x hx
      have hry := ht.second_le y hy
      rw [h.freqOf_rest ht hx, h.freqOf_rest ht hy]
      omega
    · omega
  · omega

theorem Merged.turn (h : Merged f b) (ht : Turn b b' l r rest) : Merged f b' where
  grown := h.grown.turn ht
  leaves j a hj := by
    obtain ⟨nd, hnd, hleaf⟩ := h.leaves j a hj
    obtain ⟨pv, parent, h'⟩ := join_getElem?_old hnd
    exact ⟨_, (congrArg (·[j]?) ht.nodes).trans h', hleaf⟩
  joins p nd hp hnd := by
    rw [ht.nodes] at hnd
    rcases new_or_old_of_join hnd with ⟨-, rfl⟩ | ⟨nd0, pv, parent, h0, rfl⟩
    · obtain ⟨hl, hr, -⟩ := h.grown.inUse ht
      simp only [internalNode, ht.nodes, freqOf_join_old hl, freqOf_join_old hr]
      exact ⟨trivial, h.grown.toNat_add ht, ht.first_le⟩
    · obtain ⟨hleaf, hsum, hle⟩ := h.joins p nd0 hp h0
      obtain ⟨hleft, hright⟩ := h.freqOf_children ht h0 hleaf
      simp only [hleft, hright]
      exact ⟨hleaf, hsum, hle⟩
  ascending p p' nd nd' hp hpp' hnd hnd' := by
    have hle := h.freq_le_new ht hp hnd
    rw [ht.nodes] at hnd hnd'
    rcases new_or_old_of_join hnd' with ⟨-, rfl⟩ | ⟨nd0', pv', parent', h0', rfl⟩
    · exact hle.trans (h.grown.toNat_add ht).ge
    · have hlt' := lt_of_getElem? h0'
      rcases new_or_old_of_join hnd with ⟨rfl, -⟩ | ⟨nd0, pv, parent, h0, rfl⟩
      · omega
      · exact h.ascending p p' nd0 nd0' hp hpp' h0 h0'
  below p nd hp hnd x hx y hy hxy := (h.freq_le_new ht hp hnd).trans (h.grown.new_le_sum ht hx hy hxy)

end Turns

theorem merged_mergeAll (f : FreqTable) (c : Choices) (n : Nat) : Merged f (mergeAll n (buildLeaves f c)) := by
  refine mergeAll_keeps (fun b h hq => ?_) n (merged_buildLeaves f c)
  obtain ⟨l, r, rest, ht⟩ := mergeStep_turn h.grown.inv hq
  exact h.turn ht

/-- The leaves are those of step 1. -/
theorem Merged.getElem?_of_leaf {f : FreqTable} {b : Build} (h : Merged f b) {j : Nat} {nd : Node}
    (hnd : b.nodes[j]? = some nd) (hleaf : nd.leaf = true) : (nonzero f allSymbols)[j]? = some nd.sym := by
  rcases Nat.lt_or_ge j (nonzero f allSymbols).length with hlt | hge
  · obtain ⟨nd', hnd', -, hsym, -⟩ := h.leaves _ _ (List.getElem?_eq_getElem hlt)
    obtain rfl : nd = nd' := Option.some.inj (hnd.symm.trans hnd')
    rw [List.getElem?_eq_getElem hlt, hsym]
  · rw [(h.joins _ nd hge hnd).1] at hleaf
    cases hleaf

/-- The leaf index names the leaves of step 1 and no other cells (R74). -/
theorem Merged.readLi_eq_some_iff {f : FreqTable} {b : Build} (h : Merged f b) {a : Byte} {k : NodeIdx} :
    readLi b.li a = some k ↔ (nonzero f allSymbols)[k.toNat]? = some a := by
  have hnamed : ∀ {k : NodeIdx}, readLi b.li a = some k → (nonzero f allSymbols)[k.toNat]? = some a := by
    intro k hk
    obtain ⟨nd, hnd, hleaf, rfl⟩ := h.grown.inv.indexed.named a k hk
    exact h.getElem?_of_leaf hnd hleaf
  refine ⟨hnamed, fun hk => ?_⟩
  obtain ⟨nd, hnd, hleaf, rfl, -⟩ := h.leaves _ _ hk
  obtain ⟨k', hk'⟩ := Option.isSome_iff_exists.mp (h.grown.inv.indexed.complete _ nd hnd hleaf)
  have hlt' := (List.getElem?_eq_some_iff.mp (hnamed hk')).1
  rw [hk', Option.some_inj]
  exact BitVec.eq_of_toNat_eq ((List.getElem?_inj hlt' (nonzero_nodup f)).mp ((hnamed hk').trans hk.symm))

/-- The tree BUILD leaves is the one step 2 leaves, and its root is the only element of the queue. -/
theorem buildTree_merged {f : FreqTable} (h : nonzero f allSymbols ≠ []) (c : Choices) :
    ∃ b, b = mergeAll (buildLeaves f c).q.length (buildLeaves f c) ∧ Merged f b ∧ b.q = [idx (b.nodes.length - 1)] ∧
      b.nodes.length + 1 = 2 * (nonzero f allSymbols).length ∧ b.nodes.length ≤ 511 ∧
      (buildTree f c).1 =
        { nodes := b.nodes, root := some (idx (b.nodes.length - 1)), li := b.li,
          nnode := BitVec.ofNat 10 b.nodes.length } := by
  obtain ⟨b, hb, hinv, hq, hlen, htree⟩ := buildTree_nonzero h c
  exact ⟨b, hb, hb ▸ merged_mergeAll f c _, hq, hlen, hinv.forest.cap, htree⟩

theorem nonzero_ne_nil_of_shape {f : FreqTable} {c : Choices} {sh : Shape}
    (h : (buildTree f c).1.shape = some sh) : nonzero f allSymbols ≠ [] := fun hnil => by
  simp [buildTree_zero hnil, TreeState.shape, TreeState.empty] at h

/-- The shape of the tree BUILD leaves is that of the last tree in the queue. -/
theorem buildTree_shape {f : FreqTable} (h : nonzero f allSymbols ≠ []) (c : Choices) :
    ∃ b k, b = mergeAll (buildLeaves f c).q.length (buildLeaves f c) ∧ Merged f b ∧ b.q = [k] ∧
      (buildTree f c).1.li = b.li ∧ (buildTree f c).1.shape = some (shapeOf b.nodes k) := by
  obtain ⟨b, hall, hb, hq, hlen, hcap, htree⟩ := buildTree_merged h c
  have hpos := List.length_pos_iff.mpr h
  have hroot : (idx (b.nodes.length - 1)).toNat < b.nodes.length := by
    rw [idx_toNat (by omega)]
    omega
  refine ⟨b, _, hall, hb, hq, by rw [htree], ?_⟩
  rw [htree]
  exact (TreeState.shape_eq rfl).trans (shapeAt_eq_shapeOf hb.grown.inv.forest hroot (hroot.trans_le hcap))

/-- Settles O23: `Merged` holds of what step 1 leaves and every turn of step 2 keeps it. -/
theorem builtTreeIsAsSpecified : Obligations.BuiltTreeIsAsSpecified := by
  rintro s syms (rfl : syms = nonzero s.freq allSymbols) hne
  obtain ⟨b, -, hb, hq, hlen, hcap, htree⟩ := buildTree_merged hne s.choice
  have hlast : b.nodes.length - 1 = 2 * (nonzero s.freq allSymbols).length - 2 := by omega
  obtain ⟨t, hexec, herr, ht⟩ := exists_exec_build s
  rw [htree] at ht
  refine ⟨t, hexec, herr, ?_⟩
  rw [ht, ← hlast]
  refine ⟨by dsimp only; omega, ?_, rfl, fun j a hj => ⟨hb.leaves j a hj, ?_⟩, fun a ha => ?_, fun p nd hp hnd => ?_,
    hb.ascending, ?_⟩
  · simp only [BitVec.toNat_ofNat]
    omega
  · have hj' := (List.getElem?_eq_some_iff.mp hj).1
    refine hb.readLi_eq_some_iff.mpr ?_
    rwa [← idx, idx_toNat (by omega)]
  · refine Option.eq_none_iff_forall_ne_some.mpr fun k hk => ?_
    exact mem_nonzero.mp (List.mem_of_getElem? (hb.readLi_eq_some_iff.mp hk)) ha
  · obtain ⟨hleaf, hsum, hle⟩ := hb.joins p nd hp hnd
    obtain ⟨⟨-, nl, hnl, -⟩, ⟨-, nr, hnr, -⟩, -⟩ := hb.grown.inv.forest.children p nd hnd hleaf
    rw [freqOf_eq hnl, freqOf_eq hnr] at hsum hle
    exact ⟨hleaf, nl, nr, hnl, hnr, hsum, hle⟩
  · have hroot := hb.grown.sum_freqOf
    have hnd := List.getElem?_eq_getElem (l := b.nodes) (i := b.nodes.length - 1) (by omega)
    have hfreq : freqOf b.nodes (idx (b.nodes.length - 1)) = _ :=
      freqOf_eq (by rw [idx_toNat (by omega)]; exact hnd)
    rw [hq, List.map_singleton, List.sum_singleton, hfreq] at hroot
    exact ⟨_, hnd, hroot⟩

end Sys2Proof.Machine
end

section
/-! PROOFS. The tree BUILD leaves has the least cost, for every tie-break (R73). Codeword lengths that satisfy Kraft's
inequality stand for every code of R73 and every full binary tree; each turn of step 2 makes of such lengths for the
queue before it lengths for the queue after it, and they cost less by the frequency of the new node. -/

namespace Sys2Proof.Machine

/-! ## Kraft's inequality -/

/-- The sum of Kraft's inequality for codeword lengths. -/
noncomputable def kraftSum (ls : List Nat) : ℝ := (ls.map fun n => (1 / 2 : ℝ) ^ n).sum

@[simp] theorem kraftSum_nil : kraftSum [] = 0 := rfl

@[simp] theorem kraftSum_cons (n : Nat) (ls : List Nat) : kraftSum (n :: ls) = (1 / 2) ^ n + kraftSum ls :=
  List.sum_cons

@[simp] theorem kraftSum_append (ls ms : List Nat) : kraftSum (ls ++ ms) = kraftSum ls + kraftSum ms := by
  rw [kraftSum, List.map_append, List.sum_append, kraftSum, kraftSum]

theorem kraftSum_perm {ls ms : List Nat} (h : ls.Perm ms) : kraftSum ls = kraftSum ms := (h.map _).sum_eq

theorem kraftSum_nonneg (ls : List Nat) : 0 ≤ kraftSum ls := by
  induction ls with
  | nil => exact le_rfl
  | cons n ls ih => rw [kraftSum_cons]; positivity

/-- With no length above `n` the sum is a multiple of `2 ^ -n`. -/
theorem exists_kraftSum_mul_eq {n : Nat} {ls : List Nat} (h : ∀ m ∈ ls, m ≤ n) :
    ∃ N : Nat, kraftSum ls * 2 ^ n = N := by
  induction ls with
  | nil => exact ⟨0, by simp⟩
  | cons m ls ih =>
    obtain ⟨hm, hls⟩ := List.forall_mem_cons.mp h
    obtain ⟨N, hN⟩ := ih hls
    obtain ⟨k, rfl⟩ := Nat.exists_eq_add_of_le hm
    have hpow : (1 / 2 : ℝ) ^ m * 2 ^ (m + k) = 2 ^ k := by
      rw [pow_add, ← mul_assoc, ← mul_pow]
      norm_num
    exact ⟨2 ^ k + N, by rw [kraftSum_cons, add_mul, hpow, hN]; push_cast; rfl⟩

/-- The longest but one of the codewords can be one shorter when the longest is given up. -/
theorem kraftSum_shorten {k n : Nat} {ls : List Nat} (hmax : ∀ m ∈ ls, m ≤ n) (h : kraftSum (k :: n :: ls) ≤ 1) :
    n ≠ 0 ∧ kraftSum ((n - 1) :: ls) ≤ 1 := by
  have hk : (0 : ℝ) < (1 / 2) ^ k := by positivity
  have hlt : kraftSum (n :: ls) < 1 := by rw [kraftSum_cons] at h; linarith
  have hn : n ≠ 0 := by
    rintro rfl
    have := kraftSum_nonneg ls
    rw [kraftSum_cons, pow_zero] at hlt
    linarith
  refine ⟨hn, ?_⟩
  obtain ⟨N, hN⟩ := exists_kraftSum_mul_eq (n := n) (ls := n :: ls) (List.forall_mem_cons.mpr ⟨le_rfl, hmax⟩)
  have hpos : (0 : ℝ) < 2 ^ n := by positivity
  have hNlt : N + 1 ≤ 2 ^ n := by
    have : (N : ℝ) < 2 ^ n := by rw [← hN]; exact (mul_lt_iff_lt_one_left hpos).mpr hlt
    exact_mod_cast this
  have hshort : kraftSum ((n - 1) :: ls) * 2 ^ n = N + 1 := by
    obtain ⟨m, rfl⟩ := Nat.exists_eq_succ_of_ne_zero hn
    have hone : (1 / 2 : ℝ) ^ m * 2 ^ m = 1 := by rw [← mul_pow]; norm_num
    rw [← hN, kraftSum_cons, kraftSum_cons, Nat.succ_sub_one, pow_succ, pow_succ]
    linear_combination hone
  refine le_of_mul_le_mul_right ?_ hpos
  rw [hshort, one_mul]
  exact_mod_cast hNlt

/-! ## Prefix codes -/

/-- A code without the empty word in which no word begins another is uniquely decodable. -/
theorem uniquelyDecodable_of_prefixFree {S : Set (List Bool)} (hnil : [] ∉ S)
    (hpre : ∀ c ∈ S, ∀ d ∈ S, c <+: d → c = d) : InformationTheory.UniquelyDecodable S := by
  intro L
  induction L with
  | nil =>
    intro M _ hM h
    cases M with
    | nil => rfl
    | cons d M =>
      have hd : d = [] := (List.append_eq_nil_iff.mp h.symm).1
      exact absurd (hd ▸ hM d List.mem_cons_self) hnil
  | cons c L ih =>
    intro M hL hM h
    obtain ⟨hc, hL'⟩ := List.forall_mem_cons.mp hL
    cases M with
    | nil =>
      have hc' : c = [] := (List.append_eq_nil_iff.mp h).1
      exact absurd (hc' ▸ hc) hnil
    | cons d M =>
      obtain ⟨hd, hM'⟩ := List.forall_mem_cons.mp hM
      rw [List.flatten_cons, List.flatten_cons] at h
      have hcd : c = d := by
        rcases List.prefix_or_prefix_of_prefix (List.prefix_append c L.flatten) (h ▸ List.prefix_append d M.flatten)
          with hp | hp
        · exact hpre c hc d hd hp
        · exact (hpre d hd c hc hp).symm
      subst hcd
      rw [ih M hL' hM' (List.append_cancel_left h)]

/-- The lengths of codewords none of which begins another satisfy Kraft's inequality; the only codeword of a code may be
the empty word. -/
theorem kraftSum_le_one_of_prefixFree {l : List Byte} (hl : l.Nodup) {code : Byte → List Bool}
    (hpre : ∀ a ∈ l, ∀ b ∈ l, a ≠ b → ¬ code a <+: code b) : kraftSum (l.map fun a => (code a).length) ≤ 1 := by
  by_cases hnil : ∃ a ∈ l, code a = []
  · obtain ⟨a, ha, hca⟩ := hnil
    have honly : ∀ b ∈ l, b = a := fun b hb => by_contra fun hba =>
      hpre a ha b hb (Ne.symm hba) (hca ▸ List.nil_prefix)
    have hone : l = [a] := List.perm_singleton.mp
      ((List.perm_ext_iff_of_nodup hl (List.nodup_singleton a)).mpr fun b => by
        rw [List.mem_singleton]
        exact ⟨honly b, fun hb => hb ▸ ha⟩)
    simp [hone, hca]
  · have hwords : (l.map code).Nodup := List.Nodup.map_on (fun a ha b hb hab => by_contra fun hne =>
      hpre a ha b hb hne (hab ▸ List.prefix_rfl)) hl
    have hud : InformationTheory.UniquelyDecodable ((l.map code).toFinset : Set (List Bool)) := by
      refine uniquelyDecodable_of_prefixFree ?_ ?_
      · simpa using hnil
      · simp only [List.coe_toFinset, Set.mem_ofPred_eq, List.forall_mem_map]
        exact fun a ha b hb hp => by_contra fun hne => hpre a ha b hb (fun hab => hne (hab ▸ rfl)) hp
    have hkraft := InformationTheory.kraft_mcmillan_inequality hud
    rw [List.sum_toFinset _ hwords, List.map_map] at hkraft
    simpa [kraftSum, Function.comp_def] using hkraft

/-! ## Full binary trees -/

namespace Shape

/-- The symbol and the depth of each leaf, the root at depth `d`. -/
def leafDepths (d : Nat) : Shape → List (Byte × Nat)
  | .leaf v => [(v, d)]
  | .node l r => l.leafDepths (d + 1) ++ r.leafDepths (d + 1)

theorem leafDepths_map_fst (d : Nat) (t : Shape) : (t.leafDepths d).map Prod.fst = t.symbols := by
  induction t generalizing d with
  | leaf v => rfl
  | node l r ihl ihr => rw [leafDepths, List.map_append, ihl, ihr, symbols]

/-- The leaves of a full binary tree satisfy Kraft's inequality with equality. -/
theorem kraftSum_leafDepths (d : Nat) (t : Shape) : kraftSum ((t.leafDepths d).map Prod.snd) = (1 / 2) ^ d := by
  induction t generalizing d with
  | leaf v => simp [leafDepths]
  | node l r ihl ihr =>
    rw [leafDepths, List.map_append, kraftSum_append, ihl, ihr]
    ring

theorem cost_eq_sum_leafDepths (w : Byte → Nat) (d : Nat) (t : Shape) :
    t.cost w d = ((t.leafDepths d).map fun p => w p.1 * p.2).sum := by
  induction t generalizing d with
  | leaf v => simp [leafDepths, cost]
  | node l r ihl ihr => rw [leafDepths, List.map_append, List.sum_append, cost, ihl, ihr]

/-- A tree one level deeper costs its weight more. -/
theorem cost_succ (w : Byte → Nat) (d : Nat) (t : Shape) : t.cost w (d + 1) = t.cost w d + (t.symbols.map w).sum := by
  induction t generalizing d with
  | leaf v => simp [cost, symbols, Nat.mul_succ]
  | node l r ihl ihr =>
    rw [cost, ihl, ihr, cost, symbols, List.map_append, List.sum_append]
    omega

end Shape

/-! ## Codeword lengths for weights -/

/-- The cost of codeword lengths, each beside its weight: the sum of weight times length (R73). -/
def lengthCost (ps : List (Nat × Nat)) : Nat := (ps.map fun p => p.1 * p.2).sum

@[simp] theorem lengthCost_cons (w n : Nat) (ps : List (Nat × Nat)) :
    lengthCost ((w, n) :: ps) = w * n + lengthCost ps := List.sum_cons

theorem lengthCost_perm {ps qs : List (Nat × Nat)} (h : ps.Perm qs) : lengthCost ps = lengthCost qs := (h.map _).sum_eq

/-- Lengths for weights in another order. -/
theorem exists_perm_of_map_fst_perm {ps : List (Nat × Nat)} {ws : List Nat} (h : (ps.map Prod.fst).Perm ws) :
    ∃ qs : List (Nat × Nat), qs.map Prod.fst = ws ∧ qs.Perm ps := by
  have hlift : Relation.Comp (· = List.map Prod.fst ·) List.Perm ws ps := by
    rw [List.eq_map_comp_perm]
    exact h.symm
  obtain ⟨qs, hqs, hperm⟩ := hlift
  exact ⟨qs, hqs.symm, hperm⟩

/-- The exchange argument: the lengths can be handed out anew, at no higher cost, so that the lowest weight gets the
longest. -/
theorem exists_lowest_longest {w : Nat} (x : Nat) {ps : List (Nat × Nat)} (hw : ∀ p ∈ ps, w ≤ p.1) :
    ∃ n qs, qs.map Prod.fst = ps.map Prod.fst ∧ (n :: qs.map Prod.snd).Perm (x :: ps.map Prod.snd) ∧
      (∀ m ∈ qs.map Prod.snd, m ≤ n) ∧ lengthCost ((w, n) :: qs) ≤ lengthCost ((w, x) :: ps) := by
  induction ps with
  | nil => exact ⟨x, [], rfl, .rfl, by simp, le_rfl⟩
  | cons p ps ih =>
    obtain ⟨v, y⟩ := p
    obtain ⟨hv, hps⟩ := List.forall_mem_cons.mp hw
    obtain ⟨n, qs, hfst, hperm, hmax, hcost⟩ := ih hps
    have hperm' : (y :: n :: qs.map Prod.snd).Perm (x :: y :: ps.map Prod.snd) := (hperm.cons y).trans (.swap x y _)
    simp only [lengthCost_cons] at hcost ⊢
    rcases Nat.le_total y n with hyn | hny
    · refine ⟨n, (v, y) :: qs, congrArg (List.cons v) hfst, (List.Perm.swap y n _).trans hperm',
        List.forall_mem_cons.mpr ⟨hyn, hmax⟩, ?_⟩
      rw [lengthCost_cons]
      omega
    · refine ⟨y, (v, n) :: qs, congrArg (List.cons v) hfst, hperm',
        List.forall_mem_cons.mpr ⟨hny, fun m hm => (hmax m hm).trans hny⟩, ?_⟩
      have hswap : w * y + v * n ≤ w * n + v * y := mul_add_mul_le_mul_add_mul hv hny
      rw [lengthCost_cons]
      omega

/-- Lengths for weights of which `a` and `b` are the lowest give lengths with `a + b` in their place. -/
theorem exists_merged_lengths {a b : Nat} {ws : List Nat} {ps : List (Nat × Nat)} (hps : ps.map Prod.fst = a :: b :: ws)
    (hab : a ≤ b) (hws : ∀ w ∈ ws, b ≤ w) (hk : kraftSum (ps.map Prod.snd) ≤ 1) :
    ∃ qs, qs.map Prod.fst = (a + b) :: ws ∧ kraftSum (qs.map Prod.snd) ≤ 1 ∧
      lengthCost qs + (a + b) ≤ lengthCost ps := by
  obtain ⟨⟨a', x⟩, ps1, rfl, ha, hps1⟩ := List.map_eq_cons_iff.mp hps
  obtain rfl : a = a' := ha.symm
  have hlow : ∀ p ∈ ps1, a ≤ p.1 := by
    rw [← List.forall_mem_map (f := Prod.fst) (P := (a ≤ ·)), hps1]
    exact List.forall_mem_cons.mpr ⟨hab, fun w hw => hab.trans (hws w hw)⟩
  obtain ⟨m, qs1, hfst1, hperm1, hmax1, hcost1⟩ := exists_lowest_longest x hlow
  obtain ⟨⟨b', y⟩, ps2, rfl, hb, hps2⟩ := List.map_eq_cons_iff.mp (hfst1.trans hps1)
  obtain rfl : b = b' := hb.symm
  have hlow2 : ∀ p ∈ ps2, b ≤ p.1 := by
    rw [← List.forall_mem_map (f := Prod.fst) (P := (b ≤ ·)), hps2]
    exact hws
  obtain ⟨n, qs2, hfst2, hperm2, hmax2, hcost2⟩ := exists_lowest_longest y hlow2
  have hnm : n ≤ m := hmax1 n (hperm2.mem_iff.mp List.mem_cons_self)
  rw [List.map_cons, ← kraftSum_perm hperm1, List.map_cons, ← kraftSum_perm (hperm2.cons m)] at hk
  obtain ⟨hn, hk'⟩ := kraftSum_shorten hmax2 hk
  refine ⟨(a + b, n - 1) :: qs2, congrArg (List.cons (a + b)) (hfst2.trans hps2), hk', ?_⟩
  obtain ⟨n, rfl⟩ := Nat.exists_eq_succ_of_ne_zero hn
  have ham := Nat.mul_le_mul_left a hnm
  simp only [lengthCost_cons, Nat.succ_sub_one, Nat.mul_succ, Nat.add_mul] at hcost1 hcost2 ham ⊢
  omega

/-! ## Step 2 has the least cost -/

/-- The cost of the trees in the queue. -/
def openCost (f : FreqTable) (b : Build) : Nat := (b.q.map fun k => (shapeOf b.nodes k).cost (weight f) 0).sum

/-- A turn makes the trees in the queue dearer by the frequency of the new node. -/
theorem Grown.openCost_turn {f : FreqTable} {b b' : Build} {l r : NodeIdx} {rest : List NodeIdx} (h : Grown f b)
    (ht : Turn b b' l r rest) :
    openCost f b' = openCost f b + (freqOf b.nodes l + freqOf b.nodes r) := by
  have hl := h.freq l (ht.queue.mem_iff.mpr (by simp))
  have hr := h.freq r (ht.queue.mem_iff.mpr (by simp))
  rw [openCost, openCost, (ht.queue.map _).sum_eq, ht.queue', List.map_append, List.sum_append, List.map_singleton,
    List.sum_singleton, List.map_congr_left fun k hk => by rw [h.shapeOf_rest ht hk], h.shapeOf_new ht, Shape.cost,
    Shape.cost_succ, Shape.cost_succ, ← hl, ← hr, List.map_cons, List.map_cons, List.sum_cons, List.sum_cons]
  omega

/-- Step 2 makes the trees in the queue no dearer than any codeword lengths for their frequencies. -/
theorem Grown.openCost_mergeAll_le {f : FreqTable} (n : Nat) {b : Build} (h : Grown f b) {ps : List (Nat × Nat)}
    (hps : (ps.map Prod.fst).Perm (b.q.map (freqOf b.nodes))) (hk : kraftSum (ps.map Prod.snd) ≤ 1) :
    openCost f (mergeAll n b) ≤ openCost f b + lengthCost ps := by
  induction n generalizing b ps with
  | zero => exact Nat.le_add_right _ _
  | succ n ih =>
    rw [mergeAll]
    split_ifs with hq
    · exact Nat.le_add_right _ _
    · obtain ⟨l, r, rest, ht⟩ := mergeStep_turn h.inv (by omega)
      obtain ⟨ps1, hps1, hperm⟩ := exists_perm_of_map_fst_perm (hps.trans (ht.queue.map _))
      rw [← kraftSum_perm (hperm.map _)] at hk
      obtain ⟨qs, hqs, hkqs, hcost⟩ := exists_merged_lengths hps1 ht.first_le (by simpa using ht.second_le) hk
      have hqs' : (qs.map Prod.fst).Perm ((mergeStep b).q.map (freqOf (mergeStep b).nodes)) := by
        rw [hqs, ht.queue', List.map_append, List.map_singleton, h.freqOf_new ht,
          List.map_congr_left fun k hk => h.freqOf_rest ht hk]
        exact (List.perm_append_singleton _ _).symm
      have hrest := ih (h.turn ht) hqs' hkqs
      rw [h.openCost_turn ht] at hrest
      rw [lengthCost_perm hperm] at hcost
      omega

theorem openCost_buildLeaves (f : FreqTable) (c : Choices) : openCost f (buildLeaves f c) = 0 := by
  have hcost := congrArg (List.map (Shape.cost (weight f) 0)) (shapeOf_buildLeaves f c)
  rw [List.map_map, List.map_map] at hcost
  rw [openCost, ← Function.comp_def, hcost]
  simp [Function.comp_def, Shape.cost]

/-! ## The tree BUILD leaves -/

/-- The shape of the tree BUILD leaves: it has a leaf for each symbol that occurs, and costs no more than any codeword
lengths for their frequencies. -/
theorem buildTree_cost_le_lengthCost {f : FreqTable} (h : nonzero f allSymbols ≠ []) (c : Choices) :
    ∃ sh, (buildTree f c).1.shape = some sh ∧ sh.symbols.Perm (nonzero f allSymbols) ∧
      ∀ ps : List (Nat × Nat), (ps.map Prod.fst).Perm ((nonzero f allSymbols).map (weight f)) →
        kraftSum (ps.map Prod.snd) ≤ 1 → sh.cost (weight f) 0 ≤ lengthCost ps := by
  obtain ⟨b, k, rfl, hb, hq, -, hshape⟩ := buildTree_shape h c
  refine ⟨_, hshape, by simpa [hq] using hb.grown.symbols, fun ps hps hk => ?_⟩
  have hle := (grown_buildLeaves f c).openCost_mergeAll_le (buildLeaves f c).q.length
    ((freqOf_buildLeaves f c).symm ▸ hps) hk
  rw [openCost_buildLeaves, openCost, hq] at hle
  simpa using hle

/-- Settles O27: the codewords of a code give lengths, which satisfy Kraft's inequality. -/
theorem builtTreeCostIsMinimalAmongPrefixCodes : Obligations.BuiltTreeCostIsMinimalAmongPrefixCodes := by
  rintro s ⟨a, ha⟩
  obtain ⟨sh, hsh, -, hcost⟩ := buildTree_cost_le_lengthCost (List.ne_nil_of_mem (mem_nonzero.mpr ha)) s.choice
  obtain ⟨t, hexec, -, ht⟩ := exists_exec_build s
  refine ⟨t, sh, hexec, ht ▸ hsh, fun code hpre => ?_⟩
  have hkraft := kraftSum_le_one_of_prefixFree (nonzero_nodup s.freq) (code := code) fun a ha b hb =>
    hpre a b (mem_nonzero.mp ha) (mem_nonzero.mp hb)
  have hle := hcost ((nonzero s.freq allSymbols).map fun a => (weight s.freq a, (code a).length))
    (by rw [List.map_map]; exact .rfl) (by rw [List.map_map]; exact hkraft)
  rw [lengthCost, List.map_map] at hle
  exact hle.trans ((List.filter_sublist.map _).sum_le_sum fun _ _ => Nat.zero_le _)

/-- No full binary tree with the same leaves costs less. -/
theorem buildTree_cost_le {f : FreqTable} {c : Choices} {sh : Shape} (hsh : (buildTree f c).1.shape = some sh) :
    sh.symbols.Perm (nonzero f allSymbols) ∧
      ∀ u : Shape, u.symbols.Perm (nonzero f allSymbols) → sh.cost (weight f) 0 ≤ u.cost (weight f) 0 := by
  obtain ⟨sh', hsh', hsyms, hcost⟩ := buildTree_cost_le_lengthCost (nonzero_ne_nil_of_shape hsh) c
  obtain rfl : sh' = sh := Option.some.inj (hsh'.symm.trans hsh)
  refine ⟨hsyms, fun u hu => ?_⟩
  have hps : (((u.leafDepths 0).map fun p => (weight f p.1, p.2)).map Prod.fst).Perm
      ((nonzero f allSymbols).map (weight f)) := by
    rw [← u.leafDepths_map_fst 0] at hu
    have hmap := hu.map (weight f)
    rw [List.map_map] at hmap ⊢
    exact hmap
  have hle := hcost _ hps (by rw [List.map_map]; exact (u.kraftSum_leafDepths 0).le.trans_eq (pow_zero _))
  rw [lengthCost, List.map_map] at hle
  exact hle.trans_eq (u.cost_eq_sum_leafDepths (weight f) 0).symm

/-- Settles O28: either tree costs no more than the other, and no more than any other tree with the same leaves. -/
theorem builtTreeCostIsTheSameForEveryTieBreak : Obligations.BuiltTreeCostIsTheSameForEveryTieBreak := by
  intro f c c' sh sh' hsh hsh'
  obtain ⟨hsyms, hmin⟩ := buildTree_cost_le hsh
  obtain ⟨hsyms', hmin'⟩ := buildTree_cost_le hsh'
  exact ⟨Nat.le_antisymm (hmin sh' hsyms') (hmin' sh hsyms), fun u hu => hmin u (hu.trans hsyms)⟩

end Sys2Proof.Machine
end

section
/-! PROOFS. The trees of tables with two lowest symbols of one frequency: two symbols (R71 d), and a tie between a leaf
and an internal node (R68, 95_test_vectors V5). -/

namespace Sys2Proof.Machine

/-! ## The first turn -/

theorem mergeAll_of_two {n : Nat} {b : Build} (h : 2 ≤ b.q.length) : mergeAll (n + 1) b = mergeAll n (mergeStep b) := by
  rw [mergeAll, if_neg (by omega)]

theorem mergeAll_of_one {n : Nat} {b : Build} (h : b.q.length = 1) : mergeAll n b = b := by
  cases n with
  | zero => rfl
  | succ n => rw [mergeAll, if_pos (by omega)]

/-- An element that goes before all others is the only minimal one. -/
theorem eq_of_before {nodes : List Node} {m k : NodeIdx} {q : List NodeIdx} (hm : ∀ x ∈ q, before nodes m x = true)
    (hk : k ∈ m :: q) (hmin : ∀ x ∈ m :: q, before nodes x k = false) : k = m := by
  rcases List.mem_cons.mp hk with hk | hk
  · exact hk
  · exact absurd (hm k hk) (by simp [hmin m List.mem_cons_self])

theorem before_eq_lt {nodes : List Node} {x m : NodeIdx} {nx nm : Node} (hx : nodes[x.toNat]? = some nx)
    (hm : nodes[m.toNat]? = some nm) : before nodes x m = lt nx nm := by
  simp only [before, hx, hm]

theorem lt_leafNode_iff {f : FreqTable} {a b : Byte} :
    lt (leafNode a (leafFreq f a)) (leafNode b (leafFreq f b)) = true ↔
      weight f a < weight f b ∨ (weight f a = weight f b ∧ a < b) := by
  simp only [lt_iff, leafNode, leafFreq_toNat, true_and, BitVec.lt_def]

theorem cells_buildLeaves (f : FreqTable) (c : Choices) :
    (buildLeaves f c).q.map (fun k => (buildLeaves f c).nodes[k.toNat]?) =
      (nonzero f allSymbols).map fun a => some (leafNode a (leafFreq f a)) :=
  map_buildLeaves_q fun _ _ hk => hk

/-- When the two lowest symbols have one frequency and all others a higher one, the first turn joins the leaf of the
lower to that of the higher. -/
theorem exists_first_turn {f : FreqTable} {a b : Byte} {l : List Byte} (h : nonzero f allSymbols = a :: b :: l)
    (hab : weight f a = weight f b) (hl : ∀ d ∈ l, weight f b < weight f d) (c : Choices) :
    ∃ ka kb rest, Turn (buildLeaves f c) (mergeStep (buildLeaves f c)) ka kb rest ∧
      shapeOf (buildLeaves f c).nodes ka = .leaf a ∧ shapeOf (buildLeaves f c).nodes kb = .leaf b ∧
      (rest.map (shapeOf (buildLeaves f c).nodes)).Perm (l.map .leaf) := by
  have hlt : a < b := (List.pairwise_cons.mp (h ▸ nonzero_sorted f)).1 b List.mem_cons_self
  have hcells := cells_buildLeaves f c
  have hshapes := shapeOf_buildLeaves f c
  obtain ⟨ka, q, hq, ha, hcells⟩ := List.map_eq_cons_iff.mp (hcells.trans (congrArg _ h))
  obtain ⟨kb, q, rfl, hb, hcells⟩ := List.map_eq_cons_iff.mp hcells
  rw [hq, h] at hshapes
  simp only [List.map_cons, List.cons.injEq] at hshapes
  obtain ⟨hsha, hshb, hshq⟩ := hshapes
  have hcell : ∀ x ∈ q, ∃ d ∈ l, some (leafNode d (leafFreq f d)) = (buildLeaves f c).nodes[x.toNat]? := fun x hx =>
    List.mem_map.mp (hcells ▸ List.mem_map_of_mem hx)
  have hbefore : ∀ x ∈ kb :: q, before (buildLeaves f c).nodes ka x = true := by
    refine List.forall_mem_cons.mpr ⟨?_, fun x hx => ?_⟩
    · rw [before_eq_lt ha hb, lt_leafNode_iff]
      exact .inr ⟨hab, hlt⟩
    · obtain ⟨d, hd, hx⟩ := hcell x hx
      rw [before_eq_lt ha hx.symm, lt_leafNode_iff]
      exact .inl (hab.trans_lt (hl d hd))
  obtain ⟨l', r, rest, ht⟩ := mergeStep_turn (grown_buildLeaves f c).inv (by simp [hq])
  have hqueue := ht.queue
  have hmin := ht.first_min
  rw [hq] at hqueue hmin
  obtain rfl := eq_of_before hbefore (hqueue.mem_iff.mpr List.mem_cons_self) hmin
  have hqueue' := hqueue.cons_inv
  have hr : r = kb := by
    by_contra hne
    have hle := ht.second_le kb (List.mem_of_ne_of_mem (Ne.symm hne) (hqueue'.mem_iff.mp List.mem_cons_self))
    obtain ⟨d, hd, hx⟩ := hcell r (List.mem_of_ne_of_mem hne (hqueue'.mem_iff.mpr List.mem_cons_self))
    rw [freqOf_eq hb, freqOf_eq hx.symm, leafNode, leafNode, leafFreq_toNat, leafFreq_toNat] at hle
    exact absurd (hl d hd) (by omega)
  subst hr
  exact ⟨l', r, rest, ht, hsha, hshb, hshq ▸ (hqueue'.cons_inv.symm.map _)⟩

/-! ## Two symbols (R71 d) -/

theorem buildTree_shape_of_two {f : FreqTable} {a b : Byte} (h : nonzero f allSymbols = [a, b])
    (hab : weight f a = weight f b) (c : Choices) :
    (buildTree f c).1.shape = some (.node (.leaf a) (.leaf b)) := by
  obtain ⟨ka, kb, rest, ht, hsha, hshb, hrest⟩ := exists_first_turn h hab (by simp) c
  obtain rfl : rest = [] := List.map_eq_nil_iff.mp hrest.eq_nil
  obtain ⟨_, k, rfl, -, hq, -, hshape⟩ := buildTree_shape (f := f) (by simp [h]) c
  have hlen : (buildLeaves f c).q.length = 2 := ht.queue.length_eq
  rw [hlen, mergeAll_of_two hlen.ge, mergeAll_of_one (by simp [ht.queue'])] at hq hshape
  obtain rfl : idx (buildLeaves f c).nodes.length = k := by simpa [ht.queue'] using hq
  rw [hshape, (grown_buildLeaves f c).shapeOf_new ht, hsha, hshb]

/-- The path of a leaf in the shape is the codeword of its symbol. -/
theorem buildTree_isCodeword {f : FreqTable} {c : Choices} {sh : Shape} (hsh : (buildTree f c).1.shape = some sh)
    {p : List Bool} {a : Byte} (hp : sh.sub p = some (.leaf a)) : (buildTree f c).1.IsCodeword a p := by
  obtain ⟨b, -, hb, -, -, -, htree⟩ := buildTree_merged (nonzero_ne_nil_of_shape hsh) c
  obtain ⟨sh', hsh', -, -, -, hleaf⟩ :=
    treeHasItsShape _ (buildTree_inv f c) (by rw [htree]; exact Option.some_ne_none _)
  obtain rfl : sh = sh' := Option.some.inj (hsh.symm.trans hsh')
  obtain ⟨k, nd, hpath, hnd, hl, rfl⟩ := (hleaf p a).mpr hp
  refine ⟨k, ?_, hpath⟩
  rw [htree] at hnd ⊢
  exact hb.readLi_eq_some_iff.mpr (hb.getElem?_of_leaf hnd hl)

/-- Settles O22: the one turn joins the lower symbol to the higher one. -/
theorem buildOfTwoEqualSymbolsOrdersThem : Obligations.BuildOfTwoEqualSymbolsOrdersThem := by
  intro s a b hab ha heq hother
  have htwo : nonzero s.freq allSymbols = [a, b] := nonzero_eq (List.pairwise_pair.mpr hab) fun d => by
    rw [List.mem_pair]
    constructor
    · rintro (rfl | rfl)
      · exact ha
      · exact heq ▸ ha
    · exact fun hd => or_iff_not_imp_left.mpr fun hda => by_contra fun hdb => hd (hother d hda hdb)
  have hshape := buildTree_shape_of_two htwo (congrArg BitVec.toNat heq) s.choice
  obtain ⟨t, hexec, herr, ht⟩ := exists_exec_build s
  refine ⟨t, hexec, herr, ?_⟩
  rw [ht]
  exact ⟨hshape, buildTree_isCodeword hshape rfl, buildTree_isCodeword hshape rfl⟩

/-! ## A tie between a leaf and an internal node (95_test_vectors V5) -/

/-- With a third symbol of higher frequency, the second turn joins its leaf and the node over the other two, in the one
order or the other. -/
theorem buildTree_shape_of_three {f : FreqTable} {a b d : Byte} (h : nonzero f allSymbols = [a, b, d])
    (hab : weight f a = weight f b) (hbd : weight f b < weight f d) (c : Choices) :
    (buildTree f c).1.shape = some (.node (.leaf d) (.node (.leaf a) (.leaf b))) ∨
      (buildTree f c).1.shape = some (.node (.node (.leaf a) (.leaf b)) (.leaf d)) := by
  obtain ⟨ka, kb, rest, ht, hsha, hshb, hrest⟩ := exists_first_turn h hab (by simpa using hbd) c
  obtain ⟨kd, rfl, hshd⟩ := List.map_eq_singleton_iff.mp (List.perm_singleton.mp hrest)
  have hgrown := grown_buildLeaves f c
  have hnew := hgrown.shapeOf_new ht
  have hold := hgrown.shapeOf_rest ht List.mem_cons_self
  rw [hsha, hshb] at hnew
  rw [hshd] at hold
  have hlen : (buildLeaves f c).q.length = 3 := ht.queue.length_eq
  have hlen' : (mergeStep (buildLeaves f c)).q.length = 2 := by simp [ht.queue']
  obtain ⟨l, r, rest, ht'⟩ := mergeStep_turn ht.inv' hlen'.ge
  obtain rfl : rest = [] := List.length_eq_zero_iff.mp (by simpa [hlen'] using ht'.queue.length_eq.symm)
  obtain ⟨_, k, rfl, -, hq, -, hshape⟩ := buildTree_shape (f := f) (by simp [h]) c
  rw [hlen, mergeAll_of_two (by omega), mergeAll_of_two hlen'.ge, mergeAll_of_one (by simp [ht'.queue'])] at hq hshape
  obtain rfl : idx (mergeStep (buildLeaves f c)).nodes.length = k := by simpa [ht'.queue'] using hq
  rw [hshape, (hgrown.turn ht).shapeOf_new ht']
  have horder := ht'.queue
  rw [ht.queue', List.singleton_append, List.pair_perm] at horder
  rcases horder with horder | horder <;> cases horder
  · exact .inl (by rw [hold, hnew])
  · exact .inr (by rw [hold, hnew])

/-- Settles O26: `buildTree_shape_of_three`, and a draw for each of the two. -/
theorem tieAdmitsBothOutcomesAndNoOther : Obligations.TieAdmitsBothOutcomesAndNoOther := by
  rintro f rfl
  refine ⟨buildTree_shape_of_three ?_ ?_ ?_, ⟨{ draws := [0], fresh := 0 }, ?_⟩, ⟨{ draws := [1], fresh := 0 }, ?_⟩⟩ <;>
    decide +kernel

end Sys2Proof.Machine
end

section
/-! PROOFS. ENCODE: the codewords of a tree are prefix-free (R84), what it answers (R80 to R83), and the frame it shares
with SERIALIZE. -/

namespace Sys2Proof.Machine

/-! ## Paths to leaves (R84) -/

/-- No path goes on from a leaf. -/
theorem followPath_of_leaf {nodes : List Node} {k j : NodeIdx} {nd : Node} (hk : nodes[k.toNat]? = some nd)
    (hl : nd.leaf = true) {c : List Bool} (hc : followPath nodes c k = some j) : c = [] ∧ j = k := by
  cases c with
  | nil =>
    rw [followPath_nil_of_lt (lt_of_getElem? hk)] at hc
    exact ⟨rfl, (Option.some.inj hc).symm⟩
  | cons b c =>
    obtain ⟨nd', hk', hl', -⟩ := followPath_cons.mp hc
    cases hk.symm.trans hk'
    simp [hl] at hl'

theorem TreeState.atPath_eq_some_iff {t : TreeState} {c : List Bool} {k : NodeIdx} :
    t.atPath c = some k ↔ ∃ r, t.root = some r ∧ followPath t.nodes c r = some k := by
  cases hr : t.root <;> simp [TreeState.atPath, hr]

/-- Settles O31: a longer path would go on from the first leaf. -/
theorem codeIsPrefixFree : Obligations.CodeIsPrefixFree := by
  rintro t c _ k j nk nj - hc hnk hlk hd - - hne ⟨e, rfl⟩
  obtain ⟨r, hr, hc⟩ := TreeState.atPath_eq_some_iff.mp hc
  rw [t.atPath_eq hr] at hd
  obtain ⟨i, hi, he⟩ := followPath_append.mp hd
  obtain rfl : k = i := Option.some.inj (hc.symm.trans hi)
  exact hne (followPath_of_leaf hnk hlk he).2.symm

/-! ## What ENCODE answers (R81, R82) -/

theorem exec_encode_of_accepts {s : State} {a : Byte} {c : List Bool} {p : SinkPlan} (htree : TreeInv s.tree)
    (hc : s.tree.IsCodeword a c) (hp : s.chan.sinkPlan.accepts c.length = some p) :
    exec (.encode a) s = .next (((s.sinkTook (c.map .bit) p).setClen (BitVec.ofNat 8 c.length)).done) := by
  rw [exec, execEncode_of_isCodeword htree hc, sendCodeword, emit_of_accepts _ _ _ _ _ _ hp]

/-- Settles O33: a path of at most 255 bits, whose number fits in `CLEN`. -/
theorem encodeSendsTheCodeword : Obligations.EncodeSendsTheCodeword := by
  intro s a c p htree hc hp
  refine ⟨exec_encode_of_accepts htree hc hp, ?_⟩
  obtain ⟨k, -, hpath⟩ := hc
  obtain ⟨r, -, hpath⟩ := TreeState.atPath_eq_some_iff.mp hpath
  have hlen := htree.followPath_length_le hpath
  rw [BitVec.toNat_ofNat, Nat.mod_eq_of_lt (by omega)]

/-- Settles O34: the second check of ENCODE fails. -/
theorem encodeOfUnknownSymbolIsNotFound : Obligations.EncodeOfUnknownSymbolIsNotFound :=
  fun _ _ hroot hk => execEncode_of_unregistered hroot hk

/-- Settles O35: the absent root is found before any call is made. -/
theorem commandsOnTheEmptyTree : Obligations.CommandsOnTheEmptyTree :=
  fun _ a hroot => ⟨execEncode_of_empty hroot a, execDecode_of_empty hroot, execSerialize_of_empty hroot⟩

/-- The only leaf of the degenerate tree is its root, so the codeword of its symbol is empty (R82 (b)). -/
theorem TreeInv.isCodeword_nil {t : TreeState} (h : TreeInv t) {r : NodeIdx} {nd : Node} (hr : t.root = some r)
    (hnd : t.node? r = some nd) (hl : nd.leaf = true) : t.IsCodeword nd.sym [] := by
  obtain ⟨k, hk⟩ := Option.isSome_iff_exists.mp (h.indexed.complete _ nd hnd hl)
  obtain ⟨c, j, hj, hc⟩ := h.exists_isCodeword (by simp [hr]) hk
  obtain ⟨rfl, -⟩ := followPath_of_leaf hnd hl ((t.atPath_eq hr c).symm.trans hc)
  exact ⟨j, hj, hc⟩

/-- Settles O36: ENCODE has an empty codeword to send, and DECODE's descent starts at a leaf. -/
theorem degenerateTreeUsesNoBits : Obligations.DegenerateTreeUsesNoBits := by
  intro s r nd htree hr hnd hl
  constructor
  · rw [exec_encode_of_accepts htree (htree.isCodeword_nil hr hnd hl) rfl, List.map_nil, sinkTook_nil]
    rfl
  · exact (execDecode_of_root hr).trans (descendLoop_leaf hnd hl _)

/-! ## The frame of a command that sends (R80, R94) -/

/-- Everything ENCODE can do. -/
theorem execEncode_cases {s t : State} {a : Byte} (h : execEncode a s = .next t) :
    (s.tree.root = none ∧ t = s.raise .emptyTree) ∨
      (s.tree.root ≠ none ∧ readLi s.tree.li a = none ∧ t = s.raise .notFound) ∨
      ∃ k c, s.tree.root ≠ none ∧ readLi s.tree.li a = some k ∧ codeword s.tree.nodes k = some c ∧
        t = sendCodeword (BitVec.ofNat 8 c.length) c s := by
  by_cases hroot : s.tree.root = none
  · rw [execEncode_of_empty hroot] at h
    cases h; exact .inl ⟨hroot, rfl⟩
  cases hk : readLi s.tree.li a with
  | none =>
    rw [execEncode_of_unregistered hroot hk] at h
    cases h; exact .inr (.inl ⟨hroot, rfl, rfl⟩)
  | some k =>
    simp only [execEncode, if_neg hroot, hk] at h
    split at h
    · cases h
    · next c hc => cases h; exact .inr (.inr ⟨k, c, hroot, rfl, hc, rfl⟩)

/-- Everything SERIALIZE can do. -/
theorem execSerialize_cases {s t : State} (h : execSerialize s = .next t) :
    (s.tree.root = none ∧ t = s.done) ∨
      ∃ r es, s.tree.root = some r ∧ serEvents s.tree.nodes Config.nodeCap r = some es ∧ t = sendEvents es s := by
  cases hr : s.tree.root with
  | none =>
    rw [execSerialize_of_empty hr] at h
    cases h; exact .inl ⟨rfl, rfl⟩
  | some r =>
    simp only [execSerialize, hr] at h
    split at h
    · cases h
    · next es hes => cases h; exact .inr ⟨r, es, rfl, hes, rfl⟩

/-- From `s` to `t` nothing has changed but the sink, its plan, the status and, unless `keep` holds, `CLEN`; the sink
has only been appended to. -/
def SendFrame (keep : Prop) (s t : State) : Prop :=
  t.freq = s.freq ∧ t.tree = s.tree ∧ t.rsym = s.rsym ∧ t.host = s.host ∧ t.choice = s.choice ∧
    t.chan.source = s.chan.source ∧ s.chan.sink <+: t.chan.sink ∧ (keep → t.clen = s.clen)

section
variable {keep : Prop} {s t : State}

theorem sendFrame_raise (e : ErrKind) : SendFrame keep s (s.raise e) :=
  ⟨rfl, rfl, rfl, rfl, rfl, rfl, List.prefix_rfl, fun _ => rfl⟩

theorem sendFrame_done : SendFrame keep s s.done :=
  ⟨rfl, rfl, rfl, rfl, rfl, rfl, List.prefix_rfl, fun _ => rfl⟩

theorem sendFrame_setRunning (r : Running) : SendFrame keep s (s.setRunning r) :=
  ⟨rfl, rfl, rfl, rfl, rfl, rfl, List.prefix_rfl, fun _ => rfl⟩

theorem SendFrame.mono {keep' : Prop} (h : SendFrame keep s t) (hkeep : keep' → keep) :
    SendFrame keep' s t := by
  obtain ⟨hfreq, htree, hrsym, hhost, hchoice, hsource, hsink, hclen⟩ := h
  exact ⟨hfreq, htree, hrsym, hhost, hchoice, hsource, hsink, hclen ∘ hkeep⟩

theorem SendFrame.of_sinkTook {es : List Event} {p : SinkPlan} (h : SendFrame keep (s.sinkTook es p) t) :
    SendFrame keep s t := by
  obtain ⟨hfreq, htree, hrsym, hhost, hchoice, hsource, hsink, hclen⟩ := h
  exact ⟨hfreq, htree, hrsym, hhost, hchoice, hsource, (List.prefix_append _ es).trans hsink, hclen⟩

end

/-- A list is sent within the frame if the command ends within it. -/
theorem sendFrame_emit {α : Type} {keep : State → Prop} (ev : α → Event) (wait : List α → Running)
    {fin : State → State} (hfin : ∀ u, SendFrame (keep (fin u)) u (fin u)) (l : List α) (s : State) :
    SendFrame (keep (emit ev wait fin l s)) s (emit ev wait fin l s) := by
  obtain ⟨sent, rest, p, -, ⟨-, heq⟩ | ⟨-, heq⟩ | ⟨-, heq⟩⟩ := emit_cases ev wait fin l s <;> rw [heq]
  · exact (hfin _).of_sinkTook
  · exact (sendFrame_raise _).of_sinkTook
  · exact (sendFrame_setRunning _).of_sinkTook

/-- The command has not ended with success. -/
def NotDone (t : State) : Prop := t.err ≠ 0 ∨ t.running ≠ none

theorem sendFrame_setClen_done (s : State) (n : Byte) : SendFrame (NotDone (s.setClen n).done) s (s.setClen n).done :=
  ⟨rfl, rfl, rfl, rfl, rfl, rfl, List.prefix_rfl, fun h => by simp [NotDone] at h⟩

theorem sendFrame_sendCodeword (len : Byte) (bits : List Bool) (s : State) :
    SendFrame (NotDone (sendCodeword len bits s)) s (sendCodeword len bits s) :=
  sendFrame_emit _ _ (fun u => sendFrame_setClen_done u len) bits s

theorem sendFrame_sendEvents {keep : Prop} (es : List Event) (s : State) : SendFrame keep s (sendEvents es s) :=
  sendFrame_emit (keep := fun _ => keep) _ _ (fun _ => sendFrame_done) es s

theorem sendFrame_execEncode {s t : State} {a : Byte} (h : execEncode a s = .next t) : SendFrame (NotDone t) s t := by
  obtain ⟨-, rfl⟩ | ⟨-, -, rfl⟩ | ⟨k, c, -, -, -, rfl⟩ := execEncode_cases h
  · exact sendFrame_raise _
  · exact sendFrame_raise _
  · exact sendFrame_sendCodeword _ c s

theorem sendFrame_execSerialize {keep : Prop} {s t : State} (h : execSerialize s = .next t) :
    SendFrame keep s t := by
  obtain ⟨-, rfl⟩ | ⟨r, es, -, -, rfl⟩ := execSerialize_cases h
  · exact sendFrame_done
  · exact sendFrame_sendEvents es s

/-- Settles O52: both commands, at once or after a wait, end at once or send a list (`sendFrame_emit`). -/
theorem encodeAndSerializeFrame : Obligations.EncodeAndSerializeFrame := by
  constructor
  · rintro s t _ a (rfl | rfl) h
    · exact (sendFrame_execEncode h).mono fun (hkeep : _ ∨ NotDone _) => hkeep.resolve_left nofun
    · exact sendFrame_execSerialize h
  · rintro s t _ bits len es (rfl | rfl) h <;> cases h
    · exact (sendFrame_sendCodeword len bits s).mono fun (hkeep : _ ∨ NotDone _) => hkeep.resolve_left nofun
    · exact sendFrame_sendEvents es s

end Sys2Proof.Machine
end

section
/-! PROOFS. DECODE: a long enough bit sequence begins with one codeword (R90), what it answers (R88, R89), the round
trip with ENCODE (R91), and the frame it shares with DESERIALIZE. -/

namespace Sys2Proof.Machine

/-! ## One leaf on every long bit sequence (R90) -/

/-- Along any bits a walk down either passes a leaf, or has followed them all to an internal node. -/
theorem exists_leaf_or_followPath {nodes : List Node} {roots : List NodeIdx} (h : Forest nodes roots) {k : NodeIdx}
    {nd : Node} (hk : nodes[k.toNat]? = some nd) (w : List Bool) :
    (∃ c j nj, c <+: w ∧ followPath nodes c k = some j ∧ nodes[j.toNat]? = some nj ∧ nj.leaf = true) ∨
      ∃ j nj, followPath nodes w k = some j ∧ nodes[j.toNat]? = some nj ∧ nj.leaf = false := by
  have hnil := followPath_nil_of_lt (lt_of_getElem? hk)
  cases hl : nd.leaf with
  | true => exact .inl ⟨[], k, nd, List.nil_prefix, hnil, hk, hl⟩
  | false =>
    cases w with
    | nil => exact .inr ⟨k, nd, hnil, hk, hl⟩
    | cons b w =>
      obtain ⟨-, nc, hnc, -⟩ := child_links h hk hl b
      obtain ⟨c, j, nj, hc, hj, hleaf⟩ | ⟨j, nj, hj, hinternal⟩ := exists_leaf_or_followPath h hnc w
      · exact .inl ⟨b :: c, j, nj, (List.prefix_cons_inj b).mpr hc, followPath_cons.mpr ⟨nd, hk, hl, hj⟩, hleaf⟩
      · exact .inr ⟨j, nj, followPath_cons.mpr ⟨nd, hk, hl, hj⟩, hinternal⟩

/-- Below an internal node there is one step more, so its path is shorter than 255 (R23 item 7). -/
theorem TreeInv.followPath_internal_length_lt {t : TreeState} (h : TreeInv t) {c : List Bool} {k j : NodeIdx}
    {nd : Node} (hc : followPath t.nodes c k = some j) (hj : t.nodes[j.toNat]? = some nd) (hl : nd.leaf = false) :
    c.length < 255 := by
  have hlt := (child_links h.forest hj hl false).1
  have hjlt := lt_of_getElem? hj
  have hstep : followPath t.nodes (c ++ [false]) k = some nd.left :=
    followPath_concat.mpr ⟨j, nd, hc, hj, hl, rfl, Nat.lt_trans hlt hjlt⟩
  have hlen := h.followPath_length_le hstep
  rw [List.length_append, List.length_singleton] at hlen
  omega

/-- Of two leaves on one bit sequence the paths, and so the symbols, are the same (R84). -/
theorem TreeInv.leafAtPath_of_prefix {t : TreeState} (h : TreeInv t) {c d : List Bool} {v u : Byte}
    (hc : t.leafAtPath c v) (hd : t.leafAtPath d u) (hcd : c <+: d) : d = c ∧ u = v := by
  obtain ⟨k, nk, hpath, hk, hlk, rfl⟩ := hc
  obtain ⟨j, nj, hpath', hj, hlj, rfl⟩ := hd
  obtain rfl : k = j := by_contra fun hne => codeIsPrefixFree t c d k j nk nj h hpath hk hlk hpath' hj hlj hne hcd
  obtain rfl : nk = nj := Option.some.inj (hk.symm.trans hj)
  obtain ⟨e, -, -, hunique⟩ := everyCellHasOnePath t h k (lt_of_getElem? hk)
  exact ⟨(hunique d hpath').trans (hunique c hpath).symm, rfl⟩

/-- Settles O32: 255 bits cannot end at an internal node, and of two leaves on them one path would begin with the
other. -/
theorem longBitSequenceBeginsWithOneCodeword : Obligations.LongBitSequenceBeginsWithOneCodeword := by
  intro t w htree hroot hw
  obtain ⟨r, hr⟩ := Option.ne_none_iff_exists'.mp hroot
  have hlast := htree.last r hr
  have hrlt : r.toNat < t.nodes.length := by omega
  obtain ⟨c, j, nd, hc, hpath, hj, hl⟩ | ⟨j, nd, hpath, hj, hl⟩ :=
    exists_leaf_or_followPath htree.forest (List.getElem?_eq_getElem hrlt) w
  · have hleaf : t.leafAtPath c nd.sym := ⟨j, nd, (t.atPath_eq hr c).trans hpath, hj, hl, rfl⟩
    refine ⟨c, nd.sym, hc, hleaf, fun d u hd hdleaf => ?_⟩
    obtain hcd | hdc := List.prefix_or_prefix_of_prefix hc hd
    · exact htree.leafAtPath_of_prefix hleaf hdleaf hcd
    · obtain ⟨hpaths, hsyms⟩ := htree.leafAtPath_of_prefix hdleaf hleaf hdc
      exact ⟨hpaths.symm, hsyms.symm⟩
  · have hlt := htree.followPath_internal_length_lt hpath hj hl
    omega

/-! ## What DECODE answers (R88, R89) -/

/-- DECODE follows the bits of a path to its end, with turns to spare. -/
theorem exec_decode_of_atPath {s : State} {c : List Bool} {j : NodeIdx} {x : Source} (htree : TreeInv s.tree)
    (hpath : s.tree.atPath c = some j) (hx : s.chan.source.gives (c.map .bit) = some x) :
    ∃ n, exec .decode s = descendLoop (n + 1) j (s.setSource x) := by
  obtain ⟨r, hr, hpath⟩ := TreeState.atPath_eq_some_iff.mp hpath
  obtain ⟨n, hn⟩ := resume_decode_of_path htree hpath hx
  exact ⟨n, (execDecode_of_root hr).trans hn⟩

theorem exec_decode_of_leafAtPath {s : State} {c : List Bool} {v : Byte} {x : Source} (htree : TreeInv s.tree)
    (hleaf : s.tree.leafAtPath c v) (hx : s.chan.source.gives (c.map .bit) = some x) :
    exec .decode s = .next (((s.setSource x).setRsym v).done) := by
  obtain ⟨j, nd, hpath, hj, hl, rfl⟩ := hleaf
  obtain ⟨n, hn⟩ := exec_decode_of_atPath htree hpath hx
  exact hn.trans (descendLoop_leaf (s := s.setSource x) hj hl n)

/-- Settles O37: the descent ends at the leaf. -/
theorem decodeReadsOneCodeword : Obligations.DecodeReadsOneCodeword :=
  fun _ _ _ _ htree hleaf hx => exec_decode_of_leafAtPath htree hleaf hx

/-- Settles O38: the descent comes to the internal node, whose call is not answered with a bit. -/
theorem decodeReportsSourceFailure : Obligations.DecodeReportsSourceFailure := by
  intro s c k nd kind x y htree hpath hk hl hx hy
  obtain ⟨n, hn⟩ := exec_decode_of_atPath htree hpath hx
  rw [hn, descendLoop_internal (s := s.setSource x) hk hl,
    onReply_srcBit_of_fails (s := s.setSource x) hy]
  rfl

/-! ## The round trip (R91) -/

/-- The codeword of a symbol is the path of a leaf that carries it (R23 item 5, R58). -/
theorem TreeInv.leafAtPath_of_isCodeword {t : TreeState} (h : TreeInv t) {a : Byte} {c : List Bool}
    (hc : t.IsCodeword a c) : t.leafAtPath c a := by
  obtain ⟨k, hk, hpath⟩ := hc
  obtain ⟨nd, hnd, hl, hsym⟩ := h.indexed.named a k hk
  exact ⟨k, nd, hpath, hnd, hl, hsym⟩

/-- The length of a path is kept in full by the 8 bits of `CLEN` (R59). -/
theorem TreeInv.ofNat_length_toNat {t : TreeState} (h : TreeInv t) {c : List Bool} {k : NodeIdx}
    (hpath : t.atPath c = some k) : (BitVec.ofNat 8 c.length).toNat = c.length := by
  obtain ⟨r, -, hpath⟩ := TreeState.atPath_eq_some_iff.mp hpath
  have hlen := h.followPath_length_le hpath
  rw [BitVec.toNat_ofNat, Nat.mod_eq_of_lt (by omega)]

/-- The walk of ENCODE finds nothing but the codeword (R58, R81). -/
theorem TreeInv.isCodeword_of_codeword {t : TreeState} (h : TreeInv t) (hroot : t.root ≠ none) {a : Byte} {k : NodeIdx}
    {c : List Bool} (hk : readLi t.li a = some k) (hc : codeword t.nodes k = some c) : t.IsCodeword a c := by
  obtain ⟨d, hd⟩ := h.exists_isCodeword hroot hk
  obtain ⟨-, j, hj, hjd⟩ := h.codeword_of_isCodeword hd
  obtain rfl : k = j := Option.some.inj (hk.symm.trans hj)
  obtain rfl : c = d := Option.some.inj (hc.symm.trans hjd)
  exact hd

theorem ErrKind.code_ne_zero (e : ErrKind) : e.code ≠ 0 := by
  cases e <;> decide

theorem notDone_raise (s : State) (e : ErrKind) : NotDone (s.raise e) := .inl e.code_ne_zero

theorem notDone_setRunning (s : State) (r : Running) : NotDone (s.setRunning r) := .inr nofun

theorem not_notDone_done (s : State) : ¬ NotDone s.done := by simp [NotDone]

/-- A codeword whose sending ends with success has been sent whole. -/
theorem sendCodeword_of_done {len : Byte} {bits : List Bool} {s : State} (h : ¬ NotDone (sendCodeword len bits s)) :
    ∃ p, sendCodeword len bits s = ((s.sinkTook (bits.map .bit) p).setClen len).done := by
  unfold sendCodeword at h ⊢
  obtain ⟨sent, rest, p, rfl, ⟨rfl, heq⟩ | ⟨-, heq⟩ | ⟨-, heq⟩⟩ :=
    emit_cases Event.bit (fun rest => .encode rest len) (fun s' => (s'.setClen len).done) bits s
  · rw [List.append_nil] at heq ⊢
    exact ⟨p, heq⟩
  · exact absurd (heq ▸ notDone_raise _ _) h
  · exact absurd (heq ▸ notDone_setRunning _ _) h

/-- An ENCODE that ends with success has sent the codeword of its symbol (R81). -/
theorem execEncode_of_done {s t : State} {a : Byte} (htree : TreeInv s.tree) (h : execEncode a s = .next t)
    (hdone : ¬ NotDone t) : ∃ c p, s.tree.IsCodeword a c ∧
      t = ((s.sinkTook (c.map .bit) p).setClen (BitVec.ofNat 8 c.length)).done := by
  obtain ⟨-, rfl⟩ | ⟨-, -, rfl⟩ | ⟨k, c, hroot, hk, hc, rfl⟩ := execEncode_cases h
  · exact absurd (notDone_raise _ _) hdone
  · exact absurd (notDone_raise _ _) hdone
  · obtain ⟨p, hp⟩ := sendCodeword_of_done hdone
    exact ⟨c, p, htree.isCodeword_of_codeword hroot hk hc, hp⟩

/-- Settles O39: ENCODE sent the codeword of the symbol, which is the path DECODE follows to a leaf that carries it. -/
theorem decodeOfEncodeGivesTheSymbol : Obligations.DecodeOfEncodeGivesTheSymbol := by
  intro s t a htree h hrun herr
  have hdone : ¬ NotDone t := by simp [NotDone, hrun, herr]
  obtain ⟨c, p, hc, rfl⟩ := execEncode_of_done htree h hdone
  have hleaf := htree.leafAtPath_of_isCodeword hc
  obtain ⟨k, -, hpath⟩ := hc
  refine ⟨c, rfl, htree.ofNat_length_toNat hpath, fun y x hx => ?_⟩
  exact exec_decode_of_leafAtPath
    (s := ((s.sinkTook (c.map .bit) p).setClen (BitVec.ofNat 8 c.length)).done.setSource y) htree hleaf hx

/-! ## The frame of a command that receives (R87, R100) -/

/-- From `s`, after source calls alone, the command has come to its own end, which `fin` relates to the state it ends
from, or has failed with its source, or is still in progress. -/
def SourceEnd (fin : State → State → Prop) (s t : State) : Prop :=
  ∃ u, SourceOnly s u ∧
    (fin u t ∨ (∃ e, (e = .sourceExhausted ∨ e = .ioFailure) ∧ t = u.raise e) ∨ ∃ r, t = u.setRunning r)

section
variable {fin : State → State → Prop} {s u t : State}

theorem SourceEnd.of_fin (h : fin s t) : SourceEnd fin s t := ⟨s, .refl s, .inl h⟩

theorem sourceEnd_setRunning (r : Running) : SourceEnd fin s (s.setRunning r) := ⟨s, .refl s, .inr (.inr ⟨r, rfl⟩)⟩

theorem SourceEnd.of_sourceOnly (hsu : SourceOnly s u) (h : SourceEnd fin u t) : SourceEnd fin s t := by
  obtain ⟨w, hw, hend⟩ := h
  exact ⟨w, hsu.trans hw, hend⟩

/-- A source call keeps within such ends if what follows its answer does. -/
theorem sourceEnd_onReply {α : Type} {p : Reply α × State} {wait : Running}
    {go : α → State → Host.Outcome State Fault Refusal} (hp : SourceOnly s p.2)
    (hgo : ∀ a u, go a u = .next t → SourceEnd fin u t) (h : onReply p wait go = .next t) : SourceEnd fin s t := by
  obtain ⟨a, -, heq⟩ | ⟨-, heq⟩ | ⟨-, heq⟩ | ⟨-, heq⟩ := onReply_cases h
  · exact (hgo a _ heq.symm).of_sourceOnly hp
  · cases heq
    exact ⟨_, hp, .inr (.inl ⟨_, .inl rfl, rfl⟩)⟩
  · cases heq
    exact ⟨_, hp, .inr (.inl ⟨_, .inr rfl, rfl⟩)⟩
  · cases heq
    exact (sourceEnd_setRunning wait).of_sourceOnly hp

end

/-- DECODE's own end: it returns a symbol. -/
def Returned (u t : State) : Prop := ∃ v, t = (u.setRsym v).done

/-- DESERIALIZE's own ends: it commits a tree, or its stream is too large. -/
def Committed (u t : State) : Prop := (∃ tree, t = (u.commit tree).done) ∨ t = u.raise .capacityExceeded

/-- Everything DECODE's descent can do in a tree that need not keep R23. -/
theorem descendLoop_sourceEnd {n : Nat} {k : NodeIdx} {s t : State} (h : descendLoop n k s = .next t) :
    SourceEnd Returned s t := by
  induction n generalizing k s with
  | zero =>
    cases h
    exact sourceEnd_setRunning _
  | succ n ih =>
    cases hk : s.tree.nodes[k.toNat]? with
    | none => simp [descendLoop, hk] at h
    | some nd =>
      cases hl : nd.leaf with
      | true =>
        rw [descendLoop_leaf hk hl] at h
        cases h
        exact .of_fin ⟨nd.sym, rfl⟩
      | false =>
        rw [descendLoop_internal hk hl] at h
        exact sourceEnd_onReply (sourceOnly_srcBit s) (fun _ _ => ih) h

/-- Everything DESERIALIZE's loop can do from a staged state that need not be in order. -/
theorem desLoop_sourceEnd {n : Nat} {st : Staging} {s t : State} (h : desLoop n st s = .next t) :
    SourceEnd Committed s t := by
  induction n generalizing st s with
  | zero =>
    cases h
    exact sourceEnd_setRunning _
  | succ n ih =>
    have hgo : ∀ (a : Absorbed) (u : State), goOn n a u = .next t → SourceEnd Committed u t := by
      intro a u h
      cases a with
      | more st => exact ih h
      | whole tree =>
        cases h
        exact .of_fin (.inl ⟨tree, rfl⟩)
      | tooLarge =>
        cases h
        exact .of_fin (.inr rfl)
    cases ht : st.tag with
    | true =>
      rw [desLoop_at_symbol ht] at h
      exact sourceEnd_onReply (sourceOnly_srcByte s) (fun _ => hgo _) h
    | false =>
      rw [desLoop_at_tag ht] at h
      exact sourceEnd_onReply (sourceOnly_srcBit s) (fun _ => hgo _) h

/-- From `s` to `t` nothing has changed but the source, the counter of free values, the status, the tree state unless
`keepTree` holds, and `RSYM` unless `keepRsym` holds. -/
def ReceiveFrame (keepTree keepRsym : Prop) (s t : State) : Prop :=
  t.freq = s.freq ∧ t.clen = s.clen ∧ t.host = s.host ∧ t.chan.sink = s.chan.sink ∧
    t.chan.sinkPlan = s.chan.sinkPlan ∧ t.choice.draws = s.choice.draws ∧
    (keepTree → t.tree = s.tree) ∧ (keepRsym → t.rsym = s.rsym)

section
variable {keepTree keepRsym : Prop} {s u t : State}

theorem receiveFrame_raise (e : ErrKind) : ReceiveFrame keepTree keepRsym s (s.raise e) :=
  ⟨rfl, rfl, rfl, rfl, rfl, rfl, fun _ => rfl, fun _ => rfl⟩

theorem receiveFrame_setRunning (r : Running) : ReceiveFrame keepTree keepRsym s (s.setRunning r) :=
  ⟨rfl, rfl, rfl, rfl, rfl, rfl, fun _ => rfl, fun _ => rfl⟩

theorem ReceiveFrame.mono {keepTree' keepRsym' : Prop} (h : ReceiveFrame keepTree keepRsym s t)
    (htree : keepTree' → keepTree) (hrsym : keepRsym' → keepRsym) : ReceiveFrame keepTree' keepRsym' s t := by
  obtain ⟨hfreq, hclen, hhost, hsink, hplan, hdraws, ht, hr⟩ := h
  exact ⟨hfreq, hclen, hhost, hsink, hplan, hdraws, ht ∘ htree, hr ∘ hrsym⟩

theorem ReceiveFrame.of_sourceOnly (hsu : SourceOnly s u) (h : ReceiveFrame keepTree keepRsym u t) :
    ReceiveFrame keepTree keepRsym s t := by
  obtain ⟨x, n, rfl⟩ := hsu
  exact h

/-- A command stays within the frame if its own end does. -/
theorem SourceEnd.receiveFrame {fin : State → State → Prop} (h : SourceEnd fin s t)
    (hfin : ∀ u, fin u t → ReceiveFrame keepTree keepRsym u t) : ReceiveFrame keepTree keepRsym s t := by
  obtain ⟨u, hsu, hend | ⟨e, -, rfl⟩ | ⟨r, rfl⟩⟩ := h
  · exact (hfin u hend).of_sourceOnly hsu
  · exact (receiveFrame_raise e).of_sourceOnly hsu
  · exact (receiveFrame_setRunning r).of_sourceOnly hsu

theorem receiveFrame_resume_decode {k : NodeIdx} (h : resume (.decode k) s = .next t) :
    ReceiveFrame True (NotDone t) s t := by
  refine (descendLoop_sourceEnd h).receiveFrame ?_
  rintro u ⟨v, rfl⟩
  exact ⟨rfl, rfl, rfl, rfl, rfl, rfl, fun _ => rfl, fun hnot => absurd hnot (not_notDone_done _)⟩

theorem receiveFrame_resume_deserialize {st : Staging} (h : resume (.deserialize st) s = .next t) :
    ReceiveFrame (NotDone t) True s t := by
  refine (desLoop_sourceEnd h).receiveFrame ?_
  rintro u (⟨tree, rfl⟩ | rfl)
  · exact ⟨rfl, rfl, rfl, rfl, rfl, rfl, fun hnot => absurd hnot (not_notDone_done _), fun _ => rfl⟩
  · exact receiveFrame_raise _

theorem receiveFrame_execDecode (h : execDecode s = .next t) : ReceiveFrame True (NotDone t) s t := by
  cases hr : s.tree.root with
  | none =>
    rw [execDecode_of_empty hr] at h
    cases h
    exact receiveFrame_raise _
  | some r => exact receiveFrame_resume_decode ((execDecode_of_root hr).symm.trans h)

end

/-- Settles O53: DESERIALIZE, and DECODE in a tree with a root, start as they go on after a wait, and both stay within
the frame. -/
theorem decodeAndDeserializeFrame : Obligations.DecodeAndDeserializeFrame := by
  constructor
  · rintro s t _ (rfl | rfl) h
    · exact (receiveFrame_execDecode h).mono (fun _ => trivial) (Or.resolve_left · nofun)
    · exact (receiveFrame_resume_deserialize h).mono (Or.resolve_left · nofun) fun _ => trivial
  · rintro s t _ k st (rfl | rfl) h
    · exact (receiveFrame_resume_decode h).mono (fun _ => trivial) (Or.resolve_left · nofun)
    · exact (receiveFrame_resume_deserialize h).mono (Or.resolve_left · nofun) fun _ => trivial

end Sys2Proof.Machine
end

section
/-! PROOFS. SERIALIZE: the stream of a shape determines the shape and its own end (R97), and what SERIALIZE sends
(R95). -/

namespace Sys2Proof.Machine

/-- A stream tells where it ends: its first tag says which kind of node it is of, and each subtree's stream ends where
the next part begins (R97). -/
theorem Shape.stream_append_inj {t u : Shape} {es fs : List Event} (h : t.stream ++ es = u.stream ++ fs) :
    t = u ∧ es = fs := by
  induction t generalizing u es fs with
  | leaf v =>
    cases u with
    | leaf w => simpa [stream] using h
    | node l r => simp [stream] at h
  | node l r ihl ihr =>
    cases u with
    | leaf w => simp [stream] at h
    | node l' r' =>
      have hparts : l.stream ++ (r.stream ++ es) = l'.stream ++ (r'.stream ++ fs) := by simpa [stream] using h
      obtain ⟨rfl, hright⟩ := ihl hparts
      obtain ⟨rfl, hrest⟩ := ihr hright
      exact ⟨rfl, hrest⟩

/-- Settles O4: a stream tells where it ends. -/
theorem treeStreamDeterminesShape : Obligations.TreeStreamDeterminesShape :=
  fun _ _ _ _ h => Shape.stream_append_inj h

theorem TreeState.shape_eq_some_iff {t : TreeState} {sh : Shape} :
    t.shape = some sh ↔ ∃ r, t.root = some r ∧ shapeAt t.nodes Config.nodeCap r = some sh := by
  cases hr : t.root with
  | none => simp [TreeState.shape, hr]
  | some r => simp [TreeState.shape_eq hr]

theorem exec_serialize_of_accepts {s : State} {sh : Shape} {p : SinkPlan} (hsh : s.tree.shape = some sh)
    (hp : s.chan.sinkPlan.accepts sh.stream.length = some p) :
    exec .serialize s = .next (s.sinkTook sh.stream p).done := by
  obtain ⟨r, hr, hsh⟩ := TreeState.shape_eq_some_iff.mp hsh
  rw [exec, execSerialize_of_shapeAt hr hsh, sendEvents, emit_of_accepts _ _ _ _ _ _ hp, List.map_id]

/-- Settles O40: the calls of `ser(ROOT)` are the stream of the root's shape, and the sink takes them all. -/
theorem serializeSendsTheTreeStream : Obligations.SerializeSendsTheTreeStream :=
  fun _ _ _ hsh hp => exec_serialize_of_accepts hsh hp

end Sys2Proof.Machine
end

section
/-! PROOFS. DESERIALIZE reads a stream: the loop follows its events one call at a time, and the stream of a shape leaves
the cells of the shape in post-order (R102, R108). -/

namespace Sys2Proof.Machine

/-! ## Reading events (R42, R102) -/

/-- What a running DESERIALIZE makes of one more event; `none` when the event is not of the call that is due. -/
def Absorbed.read (a : Absorbed) (e : Event) : Option Absorbed :=
  match a, e with
  | .more st, .bit b => if st.tag then none else some (readTag st b)
  | .more st, .byte v => if st.tag then some (st.addLeaf v) else none
  | .whole _, _ => none
  | .tooLarge, _ => none

/-- What it makes of a sequence of events. -/
def Absorbed.reads (a : Absorbed) (es : List Event) : Option Absorbed := es.foldlM Absorbed.read a

@[simp] theorem Absorbed.reads_nil (a : Absorbed) : a.reads [] = some a := rfl

theorem Absorbed.reads_cons_eq_some {a c : Absorbed} {e : Event} {es : List Event} :
    a.reads (e :: es) = some c ↔ ∃ b, a.read e = some b ∧ b.reads es = some c :=
  Option.bind_eq_some_iff

theorem Absorbed.reads_append_eq_some {a c : Absorbed} {es fs : List Event} :
    a.reads (es ++ fs) = some c ↔ ∃ b, a.reads es = some b ∧ b.reads fs = some c := by
  rw [reads, List.foldlM_append]
  exact Option.bind_eq_some_iff

/-- Only a command that goes on reads an event: a tag where one is due, or the symbol after tag 1. -/
theorem Absorbed.read_eq_some {a b : Absorbed} {e : Event} (h : a.read e = some b) :
    ∃ st, a = .more st ∧
      ((∃ t, e = .bit t ∧ st.tag = false ∧ b = readTag st t) ∨
        (∃ v, e = .byte v ∧ st.tag = true ∧ b = st.addLeaf v)) := by
  cases a with
  | whole t => cases h
  | tooLarge => cases h
  | more st =>
    refine ⟨st, rfl, ?_⟩
    cases e with
    | bit t =>
      obtain ⟨htag, rfl⟩ : st.tag = false ∧ readTag st t = b := by simpa [read] using h
      exact .inl ⟨t, rfl, htag, rfl⟩
    | byte v =>
      obtain ⟨htag, rfl⟩ : st.tag = true ∧ st.addLeaf v = b := by simpa [read] using h
      exact .inr ⟨v, rfl, htag, rfl⟩

/-- One turn of the loop: the source gives the event that is read. -/
theorem goOn_of_read {a b : Absorbed} {e : Event} {s : State} {x : Source} (ha : a.read e = some b)
    (hx : s.chan.source.gives1 e = some x) (n : Nat) : goOn (n + 1) a s = goOn n b (s.setSource x) := by
  obtain ⟨st, rfl, ⟨t, rfl, htag, rfl⟩ | ⟨v, rfl, htag, rfl⟩⟩ := Absorbed.read_eq_some ha
  · rw [goOn, desLoop_at_tag htag, srcBit_of_gives hx]
    rfl
  · rw [goOn, desLoop_at_symbol htag, srcByte_of_gives hx]
    rfl

/-- The loop follows the events that the source gives. -/
theorem goOn_of_reads {a b : Absorbed} {es : List Event} {s : State} {x : Source} (ha : a.reads es = some b)
    (hx : s.chan.source.gives es = some x) (n : Nat) : goOn (es.length + n) a s = goOn n b (s.setSource x) := by
  induction es generalizing a s with
  | nil =>
    cases ha
    cases hx
    rw [List.length_nil, Nat.zero_add]
    rfl
  | cons e es ih =>
    obtain ⟨c, hc, ha⟩ := Absorbed.reads_cons_eq_some.mp ha
    obtain ⟨y, hy, hx⟩ := gives_cons.mp hx
    rw [List.length_cons, Nat.succ_add, goOn_of_read hc hy, ih (s := s.setSource y) ha hx]
    rfl

/-! ## Reading the stream of a shape (R108) -/

/-- What the stream of a shape leaves of a staged state: the cells of the shape, its leaves registered, its root
attached under the pending records. -/
def Staging.grown (st : Staging) (t : Shape) : Absorbed :=
  Staging.attach (t.register st.nodes.length st.li) (st.ic + t.internals) st.stack
    (idx (st.nodes.length + t.size - 1)) (st.nodes ++ t.cells st.nodes.length none)

theorem Staging.addInternal_of_lt {st : Staging} (h : st.ic < Config.maxInternal) :
    st.addInternal = .more { st with ic := st.ic + 1, stack := .first :: st.stack, tag := false } :=
  if_neg (by omega)

theorem Staging.addInternal_of_le {st : Staging} (h : Config.maxInternal ≤ st.ic) : st.addInternal = .tooLarge :=
  if_pos (by omega)

/-- DESERIALIZE reads the stream of a shape that is within its capacity, subtree by subtree. -/
theorem reads_stream (t : Shape) {st : Staging} (htag : st.tag = false)
    (hic : st.ic + t.internals ≤ Config.maxInternal) (hsize : st.nodes.length + t.size ≤ Config.nodeCap) :
    (Absorbed.more st).reads t.stream = some (st.grown t) := by
  induction t generalizing st with
  | leaf v =>
    have hread : (Absorbed.more st).read (.bit true) = some (.more { st with tag := true }) := by
      simp [Absorbed.read, htag, readTag]
    exact Absorbed.reads_cons_eq_some.mpr ⟨_, hread, rfl⟩
  | node l r ihl ihr =>
    simp only [Shape.internals, Shape.size] at hic hsize
    have hread : (Absorbed.more st).read (.bit false) =
        some (.more { st with ic := st.ic + 1, stack := .first :: st.stack, tag := false }) := by
      simp only [Absorbed.read, htag, readTag, Bool.false_eq_true, if_false]
      rw [Staging.addInternal_of_lt (by omega)]
    refine Absorbed.reads_cons_eq_some.mpr ⟨_, hread, Absorbed.reads_append_eq_some.mpr
      ⟨_, ihl rfl (by dsimp only; omega) (by dsimp only; omega), ?_⟩⟩
    refine (ihr rfl (by dsimp only; omega) ?_).trans (congrArg some ?_)
    · simp only [List.length_append, Shape.cells_length]; omega
    · have hjoin := join_cells st.nodes l r (by simp only [Config.nodeCap] at hsize; omega)
      have hcount : st.ic + 1 + l.internals + r.internals = st.ic + (l.node r).internals := by
        simp only [Shape.internals]; omega
      have hroot : st.nodes.length + l.size + r.size = st.nodes.length + (l.node r).size - 1 := by
        simp only [Shape.size]; omega
      simp only [Staging.grown, Staging.attach, List.length_append, Shape.cells_length]
      rw [hjoin, hcount, hroot, Shape.register]

theorem reads_stream_fresh {t : Shape} (h : t.internals ≤ Config.maxInternal) :
    (Absorbed.more Staging.fresh).reads t.stream = some (.whole t.toTree) := by
  have hsize := t.size_eq
  rw [reads_stream t rfl (by simpa [Staging.fresh] using h)
    (by simp only [Staging.fresh, List.length_nil, Config.nodeCap, Config.maxInternal] at h ⊢; omega)]
  simp [Staging.grown, Staging.fresh, Staging.attach, Shape.toTree]

theorem Shape.stream_length (t : Shape) : t.stream.length = 3 * t.internals + 2 := by
  induction t with
  | leaf v => rfl
  | node l r ihl ihr => simp only [stream, internals, List.length_cons, List.length_append]; omega

/-- DESERIALIZE after a first part of a stream, and enough turns left for more. -/
theorem exec_deserialize_of_reads {t : Shape} {es rest : List Event} {a : Absorbed} {s : State} {x : Source}
    (ht : t.internals ≤ Config.maxInternal) (hes : t.stream = es ++ rest)
    (ha : (Absorbed.more Staging.fresh).reads es = some a) (hx : s.chan.source.gives es = some x) :
    ∃ n, exec .deserialize s = goOn (n + 1) a (s.setSource x) := by
  have hlen := congrArg List.length hes
  rw [t.stream_length, List.length_append] at hlen
  simp only [Config.maxInternal] at ht
  refine ⟨desTurns - es.length - 1, ?_⟩
  have hturns : es.length + (desTurns - es.length - 1 + 1) = desTurns := by simp only [desTurns]; omega
  rw [← goOn_of_reads ha hx, hturns]
  rfl

theorem exec_deserialize_of_stream {t : Shape} {s : State} {x : Source} (ht : t.internals ≤ Config.maxInternal)
    (hx : s.chan.source.gives t.stream = some x) :
    exec .deserialize s = .next (((s.setSource x).commit t.toTree).done) := by
  obtain ⟨n, hn⟩ := exec_deserialize_of_reads ht (List.append_nil _).symm (reads_stream_fresh ht) hx
  exact hn

/-! ## The shape of the cells (R26, R108) -/

namespace Shape

/-- From cell `base` on stand the nodes of the shape in post-order, with the links to their children. -/
def StoredAt (nodes : List Node) (base : Nat) : Shape → Prop
  | .leaf v => ∃ nd, nodes[base]? = some nd ∧ nd.leaf = true ∧ nd.sym = v
  | .node l r =>
    StoredAt nodes base l ∧ StoredAt nodes (base + l.size) r ∧
      ∃ nd, nodes[base + l.size + r.size]? = some nd ∧ nd.leaf = false ∧ nd.left = idx (base + l.size - 1) ∧
        nd.right = idx (base + l.size + r.size - 1)

theorem getElem?_append_cons {front rest : List Node} {nd : Node} :
    (front ++ nd :: rest)[front.length]? = some nd := by
  simp

theorem storedAt_cells (t : Shape) (pre post : List Node) (parent : Option NodeIdx) :
    t.StoredAt (pre ++ t.cells pre.length parent ++ post) pre.length := by
  induction t generalizing pre post parent with
  | leaf v => exact ⟨_, by simp [cells]; rfl, rfl, rfl⟩
  | node l r ihl ihr =>
    have hl := fun p q => ihl pre q (some p)
    have hr := fun p p' q => ihr (pre ++ l.cells pre.length (some p)) q (some p')
    have hroot := fun p q nd => getElem?_append_cons
      (front := pre ++ l.cells pre.length (some p) ++ r.cells (pre.length + l.size) (some q)) (nd := nd) (rest := post)
    simp only [List.length_append, cells_length] at hl hr hroot
    simp only [List.append_assoc] at hl hr hroot
    simp only [StoredAt, cells, List.append_assoc, List.singleton_append]
    exact ⟨hl _ _, hr _ _ _, _, hroot _ _ _, rfl, rfl, rfl⟩

theorem size_pos (t : Shape) : 0 < t.size := by
  cases t <;> simp [size]

theorem StoredAt.shapeAt_eq {t : Shape} {nodes : List Node} {base : Nat} (h : t.StoredAt nodes base)
    (hsize : base + t.size ≤ 512) {n : Nat} (hn : t.size ≤ n) :
    shapeAt nodes n (idx (base + t.size - 1)) = some t := by
  obtain ⟨n, rfl⟩ : ∃ m, n = m + 1 := ⟨n - 1, by have := t.size_pos; omega⟩
  induction t generalizing base n with
  | leaf v =>
    simp only [size] at hsize
    obtain ⟨nd, hnd, hleaf, rfl⟩ := h
    exact shapeAt_eq_leaf.mpr ⟨nd, by rwa [size, Nat.add_sub_cancel, idx_toNat (by omega)], hleaf, rfl⟩
  | node l r ihl ihr =>
    obtain ⟨hl, hr, nd, hnd, hleaf, hleft, hright⟩ := h
    simp only [size] at hsize hn
    have hlpos := l.size_pos
    have hrpos := r.size_pos
    obtain ⟨n, rfl⟩ : ∃ m, n = m + 1 := ⟨n - 1, by omega⟩
    refine shapeAt_succ_eq_some.mpr ⟨nd, ?_, .inr ⟨hleaf, l, r, ?_, ?_, rfl⟩⟩
    · rwa [show base + (l.node r).size - 1 = base + l.size + r.size by simp only [size]; omega, idx_toNat (by omega)]
    · rw [hleft]
      exact ihl hl (by omega) _ (by omega)
    · rw [hright]
      exact ihr hr (by omega) _ (by omega)

theorem storedAt_toTree (t : Shape) : t.StoredAt t.toTree.nodes 0 := by
  simpa [toTree] using t.storedAt_cells [] [] none

theorem toTree_shape {t : Shape} (h : t.internals ≤ Config.maxInternal) : t.toTree.shape = some t := by
  have hsize := t.size_eq
  simp only [Config.maxInternal] at h
  have hat := t.storedAt_toTree.shapeAt_eq (by omega) (n := Config.nodeCap) (by simp only [Config.nodeCap]; omega)
  rw [Nat.zero_add] at hat
  exact (TreeState.shape_eq rfl).trans hat

/-! ## The leaf that the leaf index names (R104, R108) -/

/-- The path of the leaf carrying `a` that comes last in preorder. -/
def lastLeaf (a : Byte) : Shape → Option (List Bool)
  | .leaf v => if v = a then some [] else none
  | .node l r => ((r.lastLeaf a).map (List.cons true)).or ((l.lastLeaf a).map (List.cons false))

/-- The first step of a path from the cell of an internal node. -/
theorem StoredAt.followPath_cons {l r : Shape} {nodes : List Node} {base : Nat} (h : (l.node r).StoredAt nodes base)
    (hsize : base + (l.node r).size ≤ 512) (b : Bool) (c : List Bool) :
    followPath nodes (b :: c) (idx (base + (l.node r).size - 1)) =
      followPath nodes c (if b then idx (base + l.size + r.size - 1) else idx (base + l.size - 1)) := by
  obtain ⟨-, -, nd, hnd, hleaf, hleft, hright⟩ := h
  simp only [size] at hsize ⊢
  have hk : nodes[(idx (base + (l.size + r.size + 1) - 1)).toNat]? = some nd := by
    rwa [idx_toNat (by omega), show base + (l.size + r.size + 1) - 1 = base + l.size + r.size by omega]
  simp only [followPath, hk, hleaf, Bool.false_eq_true, if_false, hleft, hright]

/-- The leaf index names the last leaf of each symbol, and keeps what it held for a symbol without a leaf. -/
theorem StoredAt.readLi_register {t : Shape} {nodes : List Node} {base : Nat} (h : t.StoredAt nodes base)
    (hsize : base + t.size ≤ 512) (li : LeafIndex) (a : Byte) :
    readLi (t.register base li) a =
      (t.lastLeaf a).elim (readLi li a) fun c => followPath nodes c (idx (base + t.size - 1)) := by
  induction t generalizing base li with
  | leaf v =>
    simp only [size] at hsize
    obtain ⟨nd, hnd, -⟩ := h
    have hroot : followPath nodes [] (idx base) = some (idx base) :=
      followPath_nil_of_lt (by rw [idx_toNat (by omega)]; exact lt_of_getElem? hnd)
    rw [register, readLi_setLi, lastLeaf]
    by_cases hav : a = v
    · simp [hav, size, hroot]
    · simp [hav, Ne.symm hav]
  | node l r ihl ihr =>
    have hpath := h.followPath_cons hsize
    obtain ⟨hl, hr, -⟩ := h
    simp only [size] at hsize
    rw [register, ihr hr (by omega), ihl hl (by omega), lastLeaf]
    cases r.lastLeaf a with
    | some c => simp [hpath]
    | none => cases l.lastLeaf a <;> simp [hpath]

/-- `d` branches off `c` to the first-branch side: it comes before `c` in preorder, and neither is part of the other. -/
def Precedes (d c : List Bool) : Prop := ∃ p u w, d = p ++ false :: u ∧ c = p ++ true :: w

theorem Precedes.lt {d c : List Bool} (h : Precedes d c) : d < c := by
  obtain ⟨p, u, w, rfl, rfl⟩ := h
  exact List.append_left_lt (List.cons_lt_cons_iff.mpr (.inl Bool.false_lt_true))

theorem Precedes.cons {d c : List Bool} (h : Precedes d c) (b : Bool) : Precedes (b :: d) (b :: c) := by
  obtain ⟨p, u, w, rfl, rfl⟩ := h
  exact ⟨b :: p, u, w, rfl, rfl⟩

theorem sub_ne_of_lastLeaf_eq_none {t : Shape} {a : Byte} (h : t.lastLeaf a = none) (c : List Bool) :
    t.sub c ≠ some (.leaf a) := by
  induction t generalizing c with
  | leaf v => cases c <;> simp_all [lastLeaf, sub]
  | node l r ihl ihr =>
    obtain ⟨hr, hl⟩ : r.lastLeaf a = none ∧ l.lastLeaf a = none := by simpa [lastLeaf] using h
    cases c with
    | nil => simp [sub]
    | cons b c =>
      cases b
      · exact ihl hl c
      · exact ihr hr c

theorem sub_lastLeaf {t : Shape} {a : Byte} {c : List Bool} (h : t.lastLeaf a = some c) : t.sub c = some (.leaf a) := by
  induction t generalizing c with
  | leaf v =>
    obtain ⟨rfl, rfl⟩ : v = a ∧ [] = c := by simpa [lastLeaf] using h
    rfl
  | node l r ihl ihr =>
    simp only [lastLeaf, Option.or_eq_some_iff, Option.map_eq_some_iff] at h
    obtain ⟨w, hw, rfl⟩ | ⟨-, w, hw, rfl⟩ := h
    · exact ihr hw
    · exact ihl hw

theorem precedes_lastLeaf {t : Shape} {a : Byte} {c d : List Bool} (h : t.lastLeaf a = some c)
    (hd : t.sub d = some (.leaf a)) : d = c ∨ Precedes d c := by
  induction t generalizing c d with
  | leaf v =>
    obtain ⟨rfl, rfl⟩ : v = a ∧ [] = c := by simpa [lastLeaf] using h
    cases d with
    | nil => exact .inl rfl
    | cons b d => simp [sub] at hd
  | node l r ihl ihr =>
    simp only [lastLeaf, Option.or_eq_some_iff, Option.map_eq_some_iff, Option.map_eq_none_iff] at h
    match d with
    | [] => simp [sub] at hd
    | false :: u =>
      obtain ⟨w, hw, rfl⟩ | ⟨-, w, hw, rfl⟩ := h
      · exact .inr ⟨[], u, w, rfl, rfl⟩
      · exact (ihl hw hd).imp (congrArg _) (·.cons false)
    | true :: u =>
      obtain ⟨w, hw, rfl⟩ | ⟨hnone, -⟩ := h
      · exact (ihr hw hd).imp (congrArg _) (·.cons true)
      · exact absurd hd (sub_ne_of_lastLeaf_eq_none hnone u)

theorem lastLeaf_eq_some_iff {t : Shape} {a : Byte} {c : List Bool} :
    t.lastLeaf a = some c ↔
      t.sub c = some (.leaf a) ∧ ∀ d, t.sub d = some (.leaf a) → d = c ∨ Precedes d c := by
  refine ⟨fun h => ⟨sub_lastLeaf h, fun _ => precedes_lastLeaf h⟩, fun ⟨hc, hlast⟩ => ?_⟩
  cases h : t.lastLeaf a with
  | none => exact absurd hc (sub_ne_of_lastLeaf_eq_none h c)
  | some d =>
    obtain rfl | hdc := hlast d (sub_lastLeaf h)
    · rfl
    · obtain rfl | hcd := precedes_lastLeaf h hc
      · rfl
      · exact absurd hcd.lt (List.lt_asymm hdc.lt)

/-- The codeword of a symbol in the tree of a shape is the path of its last leaf. -/
theorem isCodeword_toTree_iff {t : Shape} (h : t.internals ≤ Config.maxInternal) {a : Byte} {c : List Bool} :
    t.toTree.IsCodeword a c ↔ t.lastLeaf a = some c := by
  obtain ⟨-, hf⟩ := (treeInv_toTree h).root_spec rfl
  have hshape := (TreeState.shape_eq rfl).symm.trans (toTree_shape h)
  have hsize := t.size_eq
  simp only [Config.maxInternal] at h
  have hread := t.storedAt_toTree.readLi_register (by omega) (Vector.replicate 256 none) a
  rw [Nat.zero_add, readLi_empty] at hread
  simp only [TreeState.IsCodeword, TreeState.atPath_eq (t := t.toTree) rfl]
  change (∃ k, readLi (t.register 0 _) a = some k ∧ _) ↔ _
  rw [hread]
  constructor
  · rintro ⟨k, hk, hc⟩
    cases hd : t.lastLeaf a with
    | none => simp [hd] at hk
    | some d =>
      rw [hd] at hk
      rw [path_unique hf hc hk]
  · intro hc
    obtain ⟨k, hk, -⟩ := (sub_eq_some_iff hf hshape c _).mp (sub_lastLeaf hc)
    exact ⟨k, by rwa [hc], hk⟩

end Shape

/-- Settles O42: the stream of the shape is read whole, and the tree it leaves is that of the shape. -/
theorem deserializeRebuildsTheTree : Obligations.DeserializeRebuildsTheTree := by
  intro s t x ht hx
  exact ⟨exec_deserialize_of_stream ht hx, Shape.toTree_shape ht,
    fun _ _ => (Shape.isCodeword_toTree_iff ht).trans Shape.lastLeaf_eq_some_iff⟩

end Sys2Proof.Machine
end

section
/-! PROOFS. The two records of the tree-shape stream, as a running DESERIALIZE reads them (R56, R102). -/

namespace Sys2Proof.Machine

theorem exec_tsLeaf_of_deserialize {s : State} {st : Staging} (hrun : s.running = some (.deserialize st)) (v : Byte) :
    exec (.tsLeaf v) s = .next (settle (st.addLeaf v) s) :=
  congrArg _ (readLeaf_of_deserialize hrun v)

theorem exec_tsInternal_of_deserialize {s : State} {st : Staging} (hrun : s.running = some (.deserialize st)) :
    exec .tsInternal s = .next (settle st.addInternal s) :=
  congrArg _ (readInternal_of_deserialize hrun)

/-- Settles O49: the record is one more, or one too many. -/
theorem internalRecordOpensANode : Obligations.InternalRecordOpensANode := by
  intro s st hrun
  rw [exec_tsInternal_of_deserialize hrun]
  refine ⟨fun hlt => ?_, fun hle => ?_⟩
  · rw [Staging.addInternal_of_lt hlt]
    rfl
  · rw [Staging.addInternal_of_le hle]
    rfl

/-! ## The frame of a record -/

/-- Whatever a record has come to, DESERIALIZE changes nothing but the tree state and the status. -/
theorem settle_frame (a : Absorbed) (s : State) :
    ∃ t e r, settle a s = { s with tree := t, err := e, running := r } := by
  cases a <;> exact ⟨_, _, _, rfl⟩

theorem readLeaf_of_not_deserialize {s : State} (h : ∀ st, s.running ≠ some (.deserialize st)) (v : Byte) :
    readLeaf v s = s := by
  unfold readLeaf
  split
  · next st hrun => exact absurd hrun (h st)
  · rfl

theorem readInternal_of_not_deserialize {s : State} (h : ∀ st, s.running ≠ some (.deserialize st)) :
    readInternal s = s := by
  unfold readInternal
  split
  · next st hrun => exact absurd hrun (h st)
  · rfl

/-- Everything a record can do: a running DESERIALIZE settles it, and without one nothing reads it (log 8). -/
theorem exec_record_cases {s : State} {v : Byte} {i : Instr} (hi : i = .tsLeaf v ∨ i = .tsInternal) :
    (∃ st a, s.running = some (.deserialize st) ∧ exec i s = .next (settle a s)) ∨
      ((∀ st, s.running ≠ some (.deserialize st)) ∧ exec i s = .next s) := by
  by_cases h : ∃ st, s.running = some (.deserialize st)
  · obtain ⟨st, hrun⟩ := h
    obtain rfl | rfl := hi
    · exact .inl ⟨st, _, hrun, exec_tsLeaf_of_deserialize hrun v⟩
    · exact .inl ⟨st, _, hrun, exec_tsInternal_of_deserialize hrun⟩
  · have hne : ∀ st, s.running ≠ some (.deserialize st) := not_exists.mp h
    refine .inr ⟨hne, ?_⟩
    obtain rfl | rfl := hi
    · exact congrArg _ (readLeaf_of_not_deserialize hne v)
    · exact congrArg _ (readInternal_of_not_deserialize hne)

/-- Settles O50: a record that is settled keeps within `settle_frame`. -/
theorem recordsFrame : Obligations.RecordsFrame := by
  intro s v i hi
  obtain ⟨st, a, hrun, heq⟩ | ⟨-, heq⟩ := exec_record_cases hi
  · obtain ⟨t, e, r, hframe⟩ := settle_frame a s
    rw [heq, hframe]
    exact ⟨_, rfl, rfl, rfl, rfl, rfl, rfl, rfl, fun hne => absurd hrun (hne st)⟩
  · exact ⟨s, heq, rfl, rfl, rfl, rfl, rfl, rfl, fun _ => rfl⟩

/-! ## A leaf record (R102, R104, R106) -/

/-- Cell `j` is a leaf that carries `v`, with `freq` 0, whatever its parent. -/
def LeafCell (nodes : List Node) (j : Nat) (v : Byte) : Prop :=
  ∃ nd, nodes[j]? = some nd ∧ nd.leaf = true ∧ nd.sym = v ∧ nd.freq = 0

/-- A join leaves a leaf one, and its symbol and `freq` as they were. -/
theorem leafCell_join {nodes : List Node} {j : Nat} {v : Byte} (h : LeafCell nodes j v) (f : NodeFreq)
    (l r : NodeIdx) : LeafCell (join f l r nodes) j v := by
  obtain ⟨nd, hnd, hleaf, hsym, hfreq⟩ := h
  have hlt := lt_of_getElem? hnd
  rw [LeafCell, join_getElem?, if_neg (by omega), hnd]
  split_ifs
  · exact ⟨_, rfl, hleaf, hsym, hfreq⟩
  · exact ⟨nd, rfl, hleaf, hsym, hfreq⟩

/-- Attaching a node to the pending records leaves more to read or a whole tree; it keeps the leaf index, the count and
every leaf. -/
theorem attach_cases {li : LeafIndex} {ic : Nat} {fs : List Frame} {k : NodeIdx} {nodes : List Node} {j : Nat}
    {v : Byte} (h : LeafCell nodes j v) :
    (∃ st, Staging.attach li ic fs k nodes = .more st ∧ LeafCell st.nodes j v ∧ st.li = li ∧ st.ic = ic) ∨
      ∃ t, Staging.attach li ic fs k nodes = .whole t ∧ LeafCell t.nodes j v ∧ t.li = li := by
  induction fs generalizing k nodes with
  | nil => exact .inr ⟨_, rfl, h, rfl⟩
  | cons f fs ih =>
    cases f with
    | first => exact .inl ⟨_, rfl, h, rfl, rfl⟩
    | second l => exact ih (leafCell_join h 0 l k)

/-- What a leaf record adds: a leaf in the next free cell, registered for its symbol. -/
theorem Staging.addLeaf_cases (st : Staging) (v : Byte) :
    (∃ st', st.addLeaf v = .more st' ∧ LeafCell st'.nodes st.nodes.length v ∧
      st'.li = setLi st.li v (idx st.nodes.length) ∧ st'.ic = st.ic) ∨
      ∃ t, st.addLeaf v = .whole t ∧ LeafCell t.nodes st.nodes.length v ∧
        t.li = setLi st.li v (idx st.nodes.length) :=
  attach_cases ⟨leafNode v 0, by simp, rfl, rfl, rfl⟩

theorem Staging.addLeaf_of_root {st : Staging} (h : st.stack = []) (v : Byte) :
    st.addLeaf v = .whole
      { nodes := st.nodes ++ [leafNode v 0], root := some (idx st.nodes.length),
        li := setLi st.li v (idx st.nodes.length), nnode := BitVec.ofNat 10 (st.nodes.length + 1) } := by
  rw [addLeaf, h, attach, List.length_append, List.length_singleton]

theorem Staging.addLeaf_of_first {st : Staging} {fs : List Frame} (h : st.stack = .first :: fs) (v : Byte) :
    st.addLeaf v = .more
      { nodes := st.nodes ++ [leafNode v 0], li := setLi st.li v (idx st.nodes.length), ic := st.ic,
        stack := .second (idx st.nodes.length) :: fs, tag := false } := by
  rw [addLeaf, h, attach]

theorem Staging.addLeaf_of_last_second {st : Staging} {l : NodeIdx} (h : st.stack = [.second l]) (v : Byte) :
    st.addLeaf v = .whole
      { nodes := join 0 l (idx st.nodes.length) (st.nodes ++ [leafNode v 0]), root := some (idx (st.nodes.length + 1)),
        li := setLi st.li v (idx st.nodes.length), nnode := BitVec.ofNat 10 (st.nodes.length + 2) } := by
  rw [addLeaf, h, attach, attach, join_length, List.length_append, List.length_singleton]

/-- Settles O47: a leaf is added under any pending records; with none, or below a first subtree that is due, nothing is
joined. -/
theorem leafRecordConstructsALeaf : Obligations.LeafRecordConstructsALeaf := by
  intro s st v hrun
  rw [exec_tsLeaf_of_deserialize hrun]
  refine ⟨?_, fun hstack => ?_, fun fs hstack => ?_⟩
  · obtain ⟨st', ha, hleaf, hli, hic⟩ | ⟨t, ha, hleaf, hli⟩ := st.addLeaf_cases v
    · rw [ha]
      exact ⟨_, _, _, rfl, .inr ⟨st', rfl, rfl, rfl, rfl, rfl, hic⟩, hleaf, hli⟩
    · rw [ha]
      exact ⟨_, _, _, rfl, .inl ⟨rfl, rfl, rfl, rfl⟩, hleaf, hli⟩
  · rw [Staging.addLeaf_of_root hstack]
    rfl
  · rw [Staging.addLeaf_of_first hstack]
    rfl

/-- Settles O48: the cells of the join of `l` and the new leaf. -/
theorem leafRecordClosesAnInternalNode : Obligations.LeafRecordClosesAnInternalNode := by
  intro s st v l nl hrun hstack hl hn
  have hlt := lt_of_getElem? hl
  have hcell := join_getElem? 0 l (idx st.nodes.length) (st.nodes ++ [leafNode v 0])
  rw [List.length_append, List.length_singleton, idx_toNat (by omega)] at hcell
  rw [exec_tsLeaf_of_deserialize hrun, Staging.addLeaf_of_last_second hstack]
  refine ⟨_, _, _, rfl, rfl, rfl, rfl, ?_, ?_, ?_, rfl, ?_, rfl, fun j hj hjlt => ?_⟩
  · simp [settle]
  · exact (hcell _).trans (if_pos rfl)
  · refine (hcell _).trans ?_
    rw [if_neg (by omega), if_pos (.inl rfl), List.getElem?_append_left hlt, hl]
    rfl
  · refine (hcell _).trans ?_
    rw [if_neg (by omega), if_pos (.inr rfl), List.getElem?_concat_length]
    rfl
  · refine (hcell _).trans ?_
    rw [if_neg (by omega), if_neg (by omega), List.getElem?_append_left hjlt]

end Sys2Proof.Machine
end

section
/-! PROOFS. DESERIALIZE of a stream that ends early, or that is too large: it reads what there is of the stream and
keeps the old tree (R19, R103, R105). -/

namespace Sys2Proof.Machine

/-! ## A stream that ends early (R103 (b), (c)) -/

/-- Before an event that can be read, the command goes on. -/
theorem Absorbed.more_of_reads_append {a c : Absorbed} {es rest : List Event} {e : Event}
    (h : a.reads (es ++ e :: rest) = some c) :
    ∃ st b, a.reads es = some (.more st) ∧ (Absorbed.more st).read e = some b := by
  obtain ⟨d, hes, hrest⟩ := reads_append_eq_some.mp h
  obtain ⟨b, hb, -⟩ := reads_cons_eq_some.mp hrest
  obtain ⟨st, rfl, -⟩ := read_eq_some hb
  exact ⟨st, b, hes, hb⟩

/-- Inside the stream of a shape within its capacity, DESERIALIZE goes on: it has read what the source gave, and the
next event can be read. -/
theorem exec_deserialize_of_prefix {t : Shape} {es rest : List Event} {e : Event} {s : State} {x : Source}
    (ht : t.internals ≤ Config.maxInternal) (hes : t.stream = es ++ e :: rest) (hx : s.chan.source.gives es = some x) :
    ∃ n st b, (Absorbed.more Staging.fresh).reads es = some (.more st) ∧ (Absorbed.more st).read e = some b ∧
      exec .deserialize s = desLoop (n + 1) st (s.setSource x) := by
  obtain ⟨st, b, hst, hb⟩ := Absorbed.more_of_reads_append (hes ▸ reads_stream_fresh ht)
  obtain ⟨n, hn⟩ := exec_deserialize_of_reads ht hes hst hx
  exact ⟨n, st, b, hst, hb, hn⟩

/-- Whichever call is due, a source that fails it ends the command with the kind of the failure. -/
theorem desLoop_of_fails {s : State} {kind : ErrKind} {y : Source} (h : s.chan.source.fails kind = some y) (n : Nat)
    (st : Staging) : desLoop (n + 1) st s = .next ((s.setSource y).raise kind) := by
  cases htag : st.tag with
  | true => rw [desLoop_at_symbol htag, onReply_srcByte_of_fails h]
  | false => rw [desLoop_at_tag htag, onReply_srcBit_of_fails h]

/-- The reference adapter has no byte to give from fewer than 8 bits, and keeps them (R43). -/
theorem srcByte_of_adapter_short {s : State} {bits : List Bool} (hsrc : s.chan.source = .adapter bits)
    (hlen : bits.length < 8) : s.srcByte = (.exhausted, s) := by
  simp only [State.srcByte, hsrc, if_pos hlen]

/-- Settles O44: in the first clause whichever call is due fails; in the second a symbol is due, and the adapter is
short of bits. -/
theorem deserializeOfTruncatedStreamKeepsTree : Obligations.DeserializeOfTruncatedStreamKeepsTree := by
  constructor
  · intro s t es rest kind x y ht hes hrest hx hy
    obtain ⟨e, rest, rfl⟩ := List.exists_cons_of_ne_nil hrest
    obtain ⟨n, st, -, -, -, hn⟩ := exec_deserialize_of_prefix ht hes hx
    exact hn.trans (desLoop_of_fails (s := s.setSource x) hy n st)
  · intro s t es rest v bits ht hes hx hbits
    obtain ⟨n, st, b, -, hb, hn⟩ := exec_deserialize_of_prefix ht hes hx
    obtain ⟨_, ⟨⟩, ⟨_, ⟨⟩, -⟩ | ⟨_, -, htag, -⟩⟩ := Absorbed.read_eq_some hb
    rw [hn, desLoop_at_symbol htag, srcByte_of_adapter_short (s := s.setSource (.adapter bits)) rfl hbits]
    rfl

/-! ## A stream with too many internal records (R105) -/

/-- The internal records read are the tags 0 read. -/
theorem Absorbed.read_ic {st st' : Staging} {e : Event} (h : (Absorbed.more st).read e = some (.more st')) :
    st'.ic = st.ic + [e].count (.bit false) := by
  obtain ⟨_, ⟨⟩, ⟨b, rfl, -, hb⟩ | ⟨v, rfl, -, hv⟩⟩ := read_eq_some h
  · cases b with
    | true => cases hb; rfl
    | false =>
      rcases Nat.lt_or_ge st.ic Config.maxInternal with hlt | hge
      · rw [readTag, if_neg Bool.false_ne_true, Staging.addInternal_of_lt hlt] at hb
        cases hb; rfl
      · rw [readTag, if_neg Bool.false_ne_true, Staging.addInternal_of_le hge] at hb
        cases hb
  · obtain ⟨st₁, ha, -, -, hic⟩ | ⟨t, ha, -⟩ := st.addLeaf_cases v
    · cases hv.trans ha
      exact hic
    · cases hv.trans ha

theorem Absorbed.reads_ic {st st' : Staging} {es : List Event} (h : (Absorbed.more st).reads es = some (.more st')) :
    st'.ic = st.ic + es.count (.bit false) := by
  induction es using List.reverseRecOn generalizing st' with
  | nil => cases h; rfl
  | append_singleton es e ih =>
    obtain ⟨a, ha, h⟩ := reads_append_eq_some.mp h
    obtain ⟨c, hc, ⟨⟩⟩ := reads_cons_eq_some.mp h
    obtain ⟨st₁, rfl, -⟩ := read_eq_some hc
    rw [read_ic hc, ih ha, List.count_append, Nat.add_assoc]

theorem Shape.count_stream (t : Shape) : t.stream.count (.bit false) = t.internals := by
  induction t with
  | leaf v => rfl
  | node l r ihl ihr => simp [stream, internals, ihl, ihr]

/-- A list cut before an element is cut in its second part or before an element of its first. -/
theorem append_eq_append_cons {l r es rest : List Event} {e : Event} (h : l ++ r = es ++ e :: rest) :
    (∃ fs, es = l ++ fs ∧ r = fs ++ e :: rest) ∨ ∃ fs, l = es ++ e :: fs := by
  obtain ⟨fs, hes, hr⟩ | ⟨fs, hl, hfs⟩ := List.append_eq_append_iff.mp h
  · exact .inl ⟨fs, hes, hr⟩
  · obtain ⟨rfl, hr⟩ | ⟨gs, rfl, -⟩ := List.cons_eq_append_iff.mp hfs
    · exact .inl ⟨[], by simpa using hl.symm, hr⟩
    · exact .inr ⟨gs, hl⟩

/-- A stream cut before a tag is also that of a smaller shape, with a leaf for every subtree not yet begun: its internal
nodes are those read. -/
theorem Shape.exists_pruned {t : Shape} {es rest : List Event} {b : Bool} (h : t.stream = es ++ .bit b :: rest) :
    ∃ (u : Shape) (rest' : List Event), u.stream = es ++ .bit true :: rest' ∧
      u.internals = es.count (.bit false) := by
  induction t generalizing es rest with
  | leaf v =>
    match es with
    | [] => exact ⟨.leaf v, _, rfl, rfl⟩
    | [_] => simp [stream] at h
    | _ :: _ :: _ => simp [stream] at h
  | node l r ihl ihr =>
    cases es with
    | nil => exact ⟨.leaf 0, _, rfl, rfl⟩
    | cons e es =>
      obtain ⟨rfl, hsub⟩ : .bit false = e ∧ l.stream ++ r.stream = es ++ .bit b :: rest := by simpa [stream] using h
      obtain ⟨fs, rfl, hr⟩ | ⟨fs, hl⟩ := append_eq_append_cons hsub
      · obtain ⟨u, rest', hu, hcount⟩ := ihr hr
        exact ⟨.node l u, rest', by simp [stream, hu], by simp [internals, hcount, l.count_stream]⟩
      · obtain ⟨u, rest', hu, hcount⟩ := ihl hl
        exact ⟨.node u (.leaf 0), rest' ++ (Shape.leaf 0).stream, by simp [stream, hu], by simp [internals, hcount]⟩

/-- Settles O45: the records read are those of a smaller shape within the capacity, and the tag that follows counts one
record too many. -/
theorem deserializeCapacityExceeded : Obligations.DeserializeCapacityExceeded := by
  intro s t es rest x hes hcount hx
  obtain ⟨u, rest', hu, hint⟩ := Shape.exists_pruned hes
  obtain ⟨y, hy, hx⟩ := gives_append.mp hx
  obtain ⟨z, hz, hx⟩ := gives_cons.mp hx
  obtain rfl : z = x := Option.some.inj hx
  obtain ⟨n, st, b, hst, hb, hn⟩ := exec_deserialize_of_prefix (hint.trans hcount).le hu hy
  have hic : st.ic = 255 := by rw [Absorbed.reads_ic hst, hcount]; rfl
  obtain ⟨_, ⟨⟩, ⟨_, -, htag, -⟩ | ⟨_, ⟨⟩, -⟩⟩ := Absorbed.read_eq_some hb
  have hlarge : (Absorbed.more st).read (.bit false) = some .tooLarge := by
    simp [Absorbed.read, htag, readTag, Staging.addInternal_of_le hic.ge]
  exact hn.trans (goOn_of_read (s := s.setSource y) hlarge hz n)

end Sys2Proof.Machine
end

section
/-! PROOFS. DESERIALIZE of what SERIALIZE sent gives the tree back (R107). -/

namespace Sys2Proof.Machine

/-- Events whose sending ends with success have been sent whole. -/
theorem sendEvents_of_done {es : List Event} {s : State} (h : ¬ NotDone (sendEvents es s)) :
    ∃ p, sendEvents es s = (s.sinkTook es p).done := by
  unfold sendEvents at h ⊢
  obtain ⟨sent, rest, p, rfl, ⟨rfl, heq⟩ | ⟨-, heq⟩ | ⟨-, heq⟩⟩ := emit_cases id .serialize State.done es s
  · rw [List.append_nil] at heq ⊢
    exact ⟨p, by rwa [List.map_id] at heq⟩
  · exact absurd (heq ▸ notDone_raise _ _) h
  · exact absurd (heq ▸ notDone_setRunning _ _) h

/-- A SERIALIZE that ends with success has sent the stream of the tree's shape (R95, R97). -/
theorem execSerialize_of_done {s t : State} {sh : Shape} (hsh : s.tree.shape = some sh)
    (h : execSerialize s = .next t) (hdone : ¬ NotDone t) : ∃ p, t = (s.sinkTook sh.stream p).done := by
  obtain ⟨r, hr, hsh⟩ := TreeState.shape_eq_some_iff.mp hsh
  rw [execSerialize_of_shapeAt hr hsh] at h
  cases h
  exact sendEvents_of_done hdone

/-- The symbols registered in a tree are those that have a codeword. -/
theorem TreeInv.isSome_readLi_iff {t : TreeState} (h : TreeInv t) (hroot : t.root ≠ none) (a : Byte) :
    (readLi t.li a).isSome = true ↔ ∃ c, t.IsCodeword a c := by
  constructor
  · intro ha
    obtain ⟨k, hk⟩ := Option.isSome_iff_exists.mp ha
    exact h.exists_isCodeword hroot hk
  · rintro ⟨c, k, hk, -⟩
    rw [hk]; rfl

/-- A symbol has at most one codeword. -/
theorem TreeInv.isCodeword_unique {t : TreeState} (h : TreeInv t) {a : Byte} {c d : List Bool}
    (hc : t.IsCodeword a c) (hd : t.IsCodeword a d) : d = c := by
  obtain ⟨k, hk, hc⟩ := hc
  obtain ⟨j, hj, hd⟩ := hd
  obtain rfl : k = j := Option.some.inj (hk.symm.trans hj)
  obtain ⟨r, hr, hc⟩ := TreeState.atPath_eq_some_iff.mp hc
  exact path_unique (h.root_spec hr).2 hc ((t.atPath_eq hr d).symm.trans hd)

/-- The path of a codeword leads in the shape to a leaf that carries the symbol. -/
theorem TreeInv.sub_of_isCodeword {t : TreeState} (h : TreeInv t) {sh : Shape} (hsh : t.shape = some sh) {a : Byte}
    {c : List Bool} (hc : t.IsCodeword a c) : sh.sub c = some (.leaf a) := by
  obtain ⟨r, hr, -⟩ := TreeState.shape_eq_some_iff.mp hsh
  obtain ⟨sh', hsh', -, -, -, hleaf⟩ := treeHasItsShape t h (by simp [hr])
  obtain rfl : sh = sh' := Option.some.inj (hsh.symm.trans hsh')
  exact (hleaf c a).mp (h.leafAtPath_of_isCodeword hc)

/-- In a tree BUILD made, no symbol has two leaves: its codeword is the path of the last one. -/
theorem buildTree_isCodeword_iff {f : FreqTable} {c : Choices} {sh : Shape} (hsh : (buildTree f c).1.shape = some sh)
    {p : List Bool} {a : Byte} : (buildTree f c).1.IsCodeword a p ↔ sh.lastLeaf a = some p := by
  have hinv := buildTree_inv f c
  constructor
  · intro hp
    refine Shape.lastLeaf_eq_some_iff.mpr ⟨hinv.sub_of_isCodeword hsh hp, fun d hd => .inl ?_⟩
    exact hinv.isCodeword_unique hp (buildTree_isCodeword hsh hd)
  · exact fun hp => buildTree_isCodeword hsh (Shape.sub_lastLeaf hp)

/-- A tree made by BUILD or by DESERIALIZE is one that DESERIALIZE can make again from its shape, with the same
codewords (R26). -/
theorem alike_toTree {t : TreeState}
    (h : (∃ f c, t = (buildTree f c).1) ∨ ∃ sh : Shape, sh.internals ≤ 255 ∧ t = sh.toTree) (hroot : t.root ≠ none) :
    ∃ sh : Shape, sh.internals ≤ Config.maxInternal ∧ t.shape = some sh ∧ Alike t sh.toTree := by
  obtain ⟨f, c, rfl⟩ | ⟨sh, hsh, rfl⟩ := h
  · have hinv := buildTree_inv f c
    obtain ⟨sh, hshape, -, -, hint, -⟩ := treeHasItsShape _ hinv hroot
    refine ⟨sh, hint, hshape, hinv, treeInv_toTree hint, hshape.trans (Shape.toTree_shape hint).symm, fun a p => ?_⟩
    rw [buildTree_isCodeword_iff hshape, Shape.isCodeword_toTree_iff hint]
  · exact ⟨sh, hsh, Shape.toTree_shape hsh, treeInv_toTree hsh, treeInv_toTree hsh, rfl, fun _ _ => Iff.rfl⟩

/-- Settles O51: SERIALIZE sent the stream of the tree's shape, and the tree of that shape is alike. -/
theorem deserializeOfSerializeGivesTheTree : Obligations.DeserializeOfSerializeGivesTheTree := by
  intro s t hmade hroot h hrun herr
  obtain ⟨sh, hint, hsh, halike⟩ := alike_toTree hmade hroot
  obtain ⟨p, rfl⟩ := execSerialize_of_done hsh h (by simp [NotDone, hrun, herr])
  refine ⟨sh.stream, rfl, fun u x hx => ⟨_, exec_deserialize_of_stream hint hx, rfl, rfl, rfl, halike.shape.symm, ?_,
    fun a => ⟨?_, fun c => (halike.codewords a c).symm⟩⟩⟩
  · refine BitVec.eq_of_toNat_eq ?_
    rw [halike.left.nnode_eq_size, halike.shape]
    exact halike.right.nnode_eq_size
  · refine Bool.eq_iff_iff.mpr ?_
    rw [halike.left.isSome_readLi_iff hroot, exists_congr (halike.codewords a)]
    exact halike.right.isSome_readLi_iff nofun a

end Sys2Proof.Machine
end

section
/-! PROOFS. Errors: which command can end with which code (R118), and what a failed command leaves unchanged (R112). -/

namespace Sys2Proof.Machine

/-! ## The codes of a command that sends (R118) -/

/-- A list that is sent ends the command with success if `fin` does, or with `IoFailure`. -/
theorem emit_err {α : Type} {ev : α → Event} {wait : List α → Running} {fin : State → State}
    (hfin : ∀ u, (fin u).err = 0) {l : List α} {s : State} (hidle : (emit ev wait fin l s).running = none) :
    (emit ev wait fin l s).err = 0 ∨ (emit ev wait fin l s).err = 5 := by
  obtain ⟨sent, rest, p, -, ⟨-, heq⟩ | ⟨-, heq⟩ | ⟨-, heq⟩⟩ := emit_cases ev wait fin l s <;> rw [heq] at hidle ⊢
  · exact .inl (hfin _)
  · exact .inr rfl
  · cases hidle

theorem sendCodeword_err {len : Byte} {bits : List Bool} {s : State} (hidle : (sendCodeword len bits s).running = none) :
    (sendCodeword len bits s).err = 0 ∨ (sendCodeword len bits s).err = 5 :=
  emit_err (fun _ => rfl) hidle

theorem sendEvents_err {es : List Event} {s : State} (hidle : (sendEvents es s).running = none) :
    (sendEvents es s).err = 0 ∨ (sendEvents es s).err = 5 :=
  emit_err (fun _ => rfl) hidle

theorem execEncode_err {s t : State} {a : Byte} (h : execEncode a s = .next t) (hidle : t.running = none) :
    t.err = 0 ∨ t.err = 2 ∨ t.err = 3 ∨ t.err = 5 := by
  obtain ⟨-, rfl⟩ | ⟨-, -, rfl⟩ | ⟨k, c, -, -, -, rfl⟩ := execEncode_cases h
  · exact .inr (.inr (.inl rfl))
  · exact .inr (.inl rfl)
  · exact (sendCodeword_err hidle).imp_right (.inr ∘ .inr)

theorem execSerialize_err {s t : State} (h : execSerialize s = .next t) (hidle : t.running = none) :
    t.err = 0 ∨ t.err = 5 := by
  obtain ⟨-, rfl⟩ | ⟨r, es, -, -, rfl⟩ := execSerialize_cases h
  · exact .inl rfl
  · exact sendEvents_err hidle

/-! ## The codes of a command that receives (R118) -/

/-- A command that receives and has ended has come to its own end, or failed with its source. -/
theorem SourceEnd.fin_or_err {fin : State → State → Prop} {s t : State} (h : SourceEnd fin s t)
    (hidle : t.running = none) : (∃ u, fin u t) ∨ t.err = 4 ∨ t.err = 5 := by
  obtain ⟨u, -, hend | ⟨e, rfl | rfl, rfl⟩ | ⟨r, rfl⟩⟩ := h
  · exact .inl ⟨u, hend⟩
  · exact .inr (.inl rfl)
  · exact .inr (.inr rfl)
  · cases hidle

theorem resume_decode_err {s t : State} {k : NodeIdx} (h : resume (.decode k) s = .next t) (hidle : t.running = none) :
    t.err = 0 ∨ t.err = 4 ∨ t.err = 5 := by
  obtain ⟨u, v, rfl⟩ | herr := (descendLoop_sourceEnd h).fin_or_err hidle
  · exact .inl rfl
  · exact .inr herr

theorem resume_deserialize_err {s t : State} {st : Staging} (h : resume (.deserialize st) s = .next t)
    (hidle : t.running = none) : t.err = 0 ∨ t.err = 4 ∨ t.err = 5 ∨ t.err = 6 := by
  obtain ⟨u, ⟨tree, rfl⟩ | rfl⟩ | herr | herr := (desLoop_sourceEnd h).fin_or_err hidle
  · exact .inl rfl
  · exact .inr (.inr (.inr rfl))
  · exact .inr (.inl herr)
  · exact .inr (.inr (.inl herr))

theorem execDecode_err {s t : State} (h : execDecode s = .next t) (hidle : t.running = none) :
    t.err = 0 ∨ t.err = 3 ∨ t.err = 4 ∨ t.err = 5 := by
  cases hr : s.tree.root with
  | none =>
    rw [execDecode_of_empty hr] at h
    cases h
    exact .inr (.inl rfl)
  | some r => exact (resume_decode_err ((execDecode_of_root hr).symm.trans h) hidle).imp_right .inr

/-- Settles O54: the codes of each command, by how it can end. -/
theorem commandsEndWithTheirOwnCodes : Obligations.CommandsEndWithTheirOwnCodes := by
  intro s t hidle
  refine ⟨fun v e hv h => ?_, fun h => ?_, fun _ h => execEncode_err h hidle, fun h => execDecode_err h hidle,
    fun h => execSerialize_err h hidle, fun h => resume_deserialize_err h hidle, fun rest len h => ?_,
    fun _ h => resume_decode_err h hidle, fun rest h => ?_, fun _ h => resume_deserialize_err h hidle⟩
  · rw [acceptCommand_of_illegal hv] at h
    cases h; rfl
  · cases h; rfl
  · cases h; exact sendCodeword_err hidle
  · cases h; exact sendEvents_err hidle

/-! ## What a failed command leaves unchanged (R112) -/

/-- From `s` to `t` the registers but `ERR`, the tree state and the host side are unchanged, and the sink has only been
appended to. -/
def FailFrame (s t : State) : Prop :=
  t.freq = s.freq ∧ t.tree = s.tree ∧ t.rsym = s.rsym ∧ t.clen = s.clen ∧ t.host = s.host ∧
    s.chan.sink <+: t.chan.sink

theorem SendFrame.failFrame {keep : Prop} {s t : State} (h : SendFrame keep s t) (hkeep : keep) : FailFrame s t := by
  obtain ⟨hfreq, htree, hrsym, hhost, -, -, hsink, hclen⟩ := h
  exact ⟨hfreq, htree, hrsym, hclen hkeep, hhost, hsink⟩

theorem ReceiveFrame.failFrame {keepTree keepRsym : Prop} {s t : State} (h : ReceiveFrame keepTree keepRsym s t)
    (htree : keepTree) (hrsym : keepRsym) : FailFrame s t := by
  obtain ⟨hfreq, hclen, hhost, hsink, -, -, ht, hr⟩ := h
  exact ⟨hfreq, ht htree, hr hrsym, hclen, hhost, hsink ▸ List.prefix_rfl⟩

/-- A record that does not complete the tree changes nothing but the status. -/
theorem failFrame_settle {a : Absorbed} {s : State} (hnot : NotDone (settle a s)) : FailFrame s (settle a s) := by
  cases a with
  | more st => exact ⟨rfl, rfl, rfl, rfl, rfl, List.prefix_rfl⟩
  | whole tree => exact absurd hnot (not_notDone_done _)
  | tooLarge => exact ⟨rfl, rfl, rfl, rfl, rfl, List.prefix_rfl⟩

theorem failFrame_record {s t : State} {v : Byte} {i : Instr} (hi : i = .tsLeaf v ∨ i = .tsInternal)
    (h : exec i s = .next t) (hnot : NotDone t) : FailFrame s t := by
  obtain ⟨st, a, -, heq⟩ | ⟨-, heq⟩ := exec_record_cases hi
  · cases heq.symm.trans h
    exact failFrame_settle hnot
  · cases heq.symm.trans h
    exact ⟨rfl, rfl, rfl, rfl, rfl, List.prefix_rfl⟩

theorem failFrame_resume {s t : State} {r : Running} (h : resume r s = .next t) (hnot : NotDone t) :
    FailFrame s t := by
  cases r with
  | encode rest len =>
    cases h
    exact (sendFrame_sendCodeword len rest s).failFrame hnot
  | decode k => exact (receiveFrame_resume_decode h).failFrame trivial hnot
  | serialize rest =>
    cases h
    exact (sendFrame_sendEvents rest s).failFrame trivial
  | deserialize st => exact (receiveFrame_resume_deserialize h).failFrame hnot trivial

theorem failFrame_exec {s t : State} {i : Instr} (h : exec i s = .next t) (hnot : NotDone t) : FailFrame s t := by
  cases i with
  | build =>
    cases h
    exact absurd hnot (not_notDone_done _)
  | encode a => exact (sendFrame_execEncode h).failFrame hnot
  | decode => exact (receiveFrame_execDecode h).failFrame trivial hnot
  | serialize => exact (sendFrame_execSerialize h).failFrame trivial
  | deserialize => exact failFrame_resume (r := .deserialize Staging.fresh) h hnot
  | tsLeaf v => exact failFrame_record (.inl rfl) h hnot
  | tsInternal => exact failFrame_record (v := 0) (.inr rfl) h hnot

/-- Settles O55: a command that ends with a code other than 0 has not ended with success, and keeps within
`FailFrame`. -/
theorem failedCommandChangesOnlyErr : Obligations.FailedCommandChangesOnlyErr :=
  ⟨fun _ _ => rfl, fun _ _ _ h _ herr => failFrame_exec h (.inl herr),
    fun _ _ _ h _ herr => failFrame_resume h (.inl herr), fun s _ _ hv => acceptCommand_of_illegal hv s⟩

end Sys2Proof.Machine
end

section
/-! PROOFS. `ERR` is not sticky (R113): a command beside the same command with another value in `ERR`. -/

namespace Sys2Proof.Machine

/-- `s` with another value in `ERR`. -/
def State.setErr (e : BitVec 3) (s : State) : State := { s with err := e }

/-- Where `o` is the end of a command, so is `o'`, in the same state. -/
def SameEnd (o o' : Host.Outcome State Fault Refusal) : Prop :=
  ∀ t, o = .next t → t.running = none → o' = .next t

theorem SameEnd.refl (o : Host.Outcome State Fault Refusal) : SameEnd o o := fun _ h _ => h

/-- A command that waits has not ended. -/
theorem sameEnd_setRunning (s : State) (r : Running) (o : Host.Outcome State Fault Refusal) :
    SameEnd (.next (s.setRunning r)) o := by
  rintro _ ⟨⟩ ⟨⟩

section
variable (e : BitVec 3)

/-! ## The channels do not see `ERR` -/

theorem srcBit_setErr (s : State) : (s.setErr e).srcBit = (s.srcBit.1, s.srcBit.2.setErr e) := by
  simp only [State.srcBit, State.setErr]
  split <;> rfl

theorem srcByte_setErr (s : State) : (s.setErr e).srcByte = (s.srcByte.1, s.srcByte.2.setErr e) := by
  obtain ⟨_, _, _, _, _, _, _, ⟨src, plan, sink⟩, _⟩ := s
  cases src with
  | script l =>
    cases l with
    | nil => rfl
    | cons item l => cases item <;> rfl
  | adapter l =>
    simp only [State.srcByte, State.setErr]
    split <;> rfl
  | unknown => rfl

theorem sinkCall_setErr (ev : Event) (s : State) :
    (s.setErr e).sinkCall ev = ((s.sinkCall ev).1, (s.sinkCall ev).2.setErr e) := by
  simp only [State.sinkCall, State.setErr]
  split <;> rfl

theorem sameEnd_emit {α : Type} (ev : α → Event) (wait : List α → Running) {fin : State → State}
    (hfin : ∀ s, fin (s.setErr e) = fin s) (l : List α) (s : State) :
    SameEnd (.next (emit ev wait fin l s)) (.next (emit ev wait fin l (s.setErr e))) := by
  induction l generalizing s with
  | nil =>
    simp only [emit, hfin]
    exact .refl _
  | cons a l ih =>
    simp only [emit, sinkCall_setErr]
    generalize s.sinkCall (ev a) = r
    obtain ⟨item, t⟩ := r
    cases item with
    | ok => exact ih t
    | ioFail => exact .refl _
    | hold => exact sameEnd_setRunning t _ _

theorem sameEnd_onReply {α : Type} {p : Reply α × State} {wait : Running}
    {go : α → State → Host.Outcome State Fault Refusal} (hgo : ∀ a u, SameEnd (go a u) (go a (u.setErr e))) :
    SameEnd (onReply p wait go) (onReply (p.1, p.2.setErr e) wait go) := by
  obtain ⟨reply, u⟩ := p
  cases reply with
  | got a => exact hgo a u
  | exhausted => exact .refl _
  | ioFail => exact .refl _
  | withheld => exact sameEnd_setRunning u _ _

/-! ## The commands -/

theorem sameEnd_descendLoop (n : Nat) (k : NodeIdx) (s : State) :
    SameEnd (descendLoop n k s) (descendLoop n k (s.setErr e)) := by
  induction n generalizing k s with
  | zero => exact sameEnd_setRunning s _ _
  | succ n ih =>
    cases hk : s.tree.nodes[k.toNat]? with
    | none =>
      simp only [descendLoop, hk]
      nofun
    | some nd =>
      cases hl : nd.leaf with
      | true =>
        rw [descendLoop_leaf hk hl, descendLoop_leaf (s := s.setErr e) hk hl]
        exact .refl _
      | false =>
        rw [descendLoop_internal hk hl, descendLoop_internal (s := s.setErr e) hk hl, srcBit_setErr]
        exact sameEnd_onReply e fun _ => ih _

theorem sameEnd_desLoop (n : Nat) (st : Staging) (s : State) :
    SameEnd (desLoop n st s) (desLoop n st (s.setErr e)) := by
  induction n generalizing st s with
  | zero => exact sameEnd_setRunning s _ _
  | succ n ih =>
    have hgo : ∀ (a : Absorbed) (u : State), SameEnd (goOn n a u) (goOn n a (u.setErr e)) := by
      intro a u
      cases a with
      | more st => exact ih st u
      | whole tree => exact .refl _
      | tooLarge => exact .refl _
    cases ht : st.tag with
    | true =>
      rw [desLoop_at_symbol ht, desLoop_at_symbol ht, srcByte_setErr]
      exact sameEnd_onReply e fun _ => hgo _
    | false =>
      rw [desLoop_at_tag ht, desLoop_at_tag ht, srcBit_setErr]
      exact sameEnd_onReply e fun _ => hgo _

theorem sameEnd_resume (r : Running) (s : State) : SameEnd (resume r s) (resume r (s.setErr e)) := by
  cases r with
  | encode rest len => exact sameEnd_emit e _ _ (fun _ => rfl) rest s
  | decode k => exact sameEnd_descendLoop e _ k s
  | serialize rest => exact sameEnd_emit e _ _ (fun _ => rfl) rest s
  | deserialize st => exact sameEnd_desLoop e _ st s

theorem sameEnd_execEncode (a : Byte) (s : State) : SameEnd (execEncode a s) (execEncode a (s.setErr e)) := by
  intro t h hidle
  obtain ⟨hroot, rfl⟩ | ⟨hroot, hk, rfl⟩ | ⟨k, c, hroot, hk, hc, rfl⟩ := execEncode_cases h
  · exact execEncode_of_empty (s := s.setErr e) hroot a
  · exact execEncode_of_unregistered (s := s.setErr e) hroot hk
  · rw [execEncode_of_codeword (s := s.setErr e) hroot hk hc]
    exact sameEnd_resume e (.encode c _) s _ rfl hidle

theorem sameEnd_execDecode (s : State) : SameEnd (execDecode s) (execDecode (s.setErr e)) := by
  cases hr : s.tree.root with
  | none =>
    rw [execDecode_of_empty hr, execDecode_of_empty (s := s.setErr e) hr]
    exact .refl _
  | some r =>
    rw [execDecode_of_root hr, execDecode_of_root (s := s.setErr e) hr]
    exact sameEnd_resume e _ s

theorem sameEnd_execSerialize (s : State) : SameEnd (execSerialize s) (execSerialize (s.setErr e)) := by
  intro t h hidle
  obtain ⟨hr, rfl⟩ | ⟨r, es, hr, hes, rfl⟩ := execSerialize_cases h
  · exact execSerialize_of_empty (s := s.setErr e) hr
  · rw [execSerialize_of_serEvents (s := s.setErr e) hr hes]
    exact sameEnd_resume e (.serialize es) s _ rfl hidle

end

/-- Settles O56: `done` and `raise` write `ERR`, and nothing a command does before its end reads it. -/
theorem errIsNotSticky : Obligations.ErrIsNotSticky := by
  refine ⟨fun s t i e a hi => ?_, fun s t r e => sameEnd_resume e r s t⟩
  obtain rfl | rfl | rfl | rfl | rfl := hi
  · exact SameEnd.refl (exec .build s) t
  · exact sameEnd_execEncode e a s t
  · exact sameEnd_execDecode e s t
  · exact sameEnd_execSerialize e s t
  · exact sameEnd_resume e (.deserialize Staging.fresh) s t

end Sys2Proof.Machine
end

section
/-! PROOFS. The reset input (R130). -/

namespace Sys2Proof.Machine

theorem serveIdle_of_reset {s : State} {l : List HostInput} (hport : s.host.port = .reset :: l) :
    serveIdle s = .next (applyReset (s.setPort l)) := by
  simp only [serveIdle, hport]

theorem serveBusy_of_reset {s : State} {l : List HostInput} (hport : s.host.port = .reset :: l) :
    serveBusy s = applyReset (s.setPort l) := by
  simp only [serveBusy, hport]

theorem passHold_sink (r : Running) (s : State) : (s.passHold r).chan.sink = s.chan.sink := by
  obtain ⟨x, p, n, heq⟩ := passHold_frame r s
  rw [heq]

theorem step_of_idle_reset {s : State} {l : List HostInput} (hidle : s.running = none)
    (hport : s.host.port = .reset :: l) : step s = .next (applyReset (s.setPort l)) := by
  rw [step_of_idle hidle, serveIdle_of_reset hport]

/-- Reset is served in the state in which one withheld answer has passed (R40, R130). -/
theorem step_of_stalled_reset {s : State} {r : Running} {l : List HostInput} (hrun : s.running = some r)
    (hst : s.stalled r = true) (hport : s.host.port = .reset :: l) :
    step s = .next (applyReset ((s.passHold r).setPort l)) := by
  rw [step_of_stalled hrun hst, serveBusy_of_reset ((passHold_host r s).symm ▸ hport)]

/-- Settles O18: `applyReset` keeps the host and the channels of the state in which it is served, and the answer a
stalled command waited for leaves the host and the sink's content alone. -/
theorem resetInputRestoresResetValues : Obligations.ResetInputRestoresResetValues := by
  intro s l hport hcase
  obtain hidle | ⟨r, hrun, hst⟩ := hcase
  · exact ⟨_, step_of_idle_reset hidle hport, rfl, rfl, rfl, rfl, rfl, rfl, rfl, rfl, fun _ => rfl⟩
  · have hhost : ((s.passHold r).setPort l).host = { s.host with port := l } :=
      congrArg (fun h : HostSide => { h with port := l }) (passHold_host r s)
    exact ⟨_, step_of_stalled_reset hrun hst hport, rfl, rfl, rfl, rfl, rfl, rfl, hhost, passHold_sink r s,
      fun hidle => nomatch hrun.symm.trans hidle⟩

end Sys2Proof.Machine
end
